-- ==== Sys2Proof/Word.lean ====
section
/-! DEFINITION. The widths of the PBI dispatcher core (R6, R8): a bus data value, a bus address, an event word and a
snapshot word. All quantities are unsigned. -/

namespace Sys2Proof

/-- A bus data value, `DATA_W` = 8 bits (R6). -/
abbrev Byte := BitVec 8

/-- A bus address, `ADDR_W` = 16 bits (R6, D2). -/
abbrev Addr := BitVec 16

/-- An event word, 40 bits (R81). -/
abbrev EventWord := BitVec 40

/-- A snapshot word ("int"), `SNAP_WORD_W` = 32 bits (R6, D17; the width is from general knowledge, log 13). -/
abbrev SnapWord := BitVec 32

end Sys2Proof
end

