-- ==== Sys2Proof/Config.lean ====
section
/-! DEFINITION. What an implementation fixes: the parameters of R6, the vocabulary of the device contract
(40_device_contract.md), and the free values. A free value is an opaque constant without a body: no proof can see it, so a
claim that mentions one holds whatever it is. -/

namespace Sys2Proof

/-- One of the three fixed address windows (R51); the argument `w` of a device handler. -/
inductive Window
  | d1 | d6 | d7
deriving DecidableEq, Repr, Inhabited

/-- A device's capability record (R92, R112). `ramw` is used only for `RAM_BACKED_PON` (D13); `hasBs` and `hasIs` mark the
optional handlers as present. -/
structure Caps where
  xd1 : Bool := false
  cd1 : Bool := false
  xd67 : Bool := false
  ramw : Bool := false
  hasBs : Bool := false
  hasIs : Bool := false
deriving DecidableEq, Repr, Inhabited

/-- A device's internal state `dstate[i]` (R28c), plain data. The core never looks inside. One shape serves every device: the
counters and the two small fields are what the spec's test devices use (95_test_vectors.md Part 2), and `ram` holds any
further bytes, so any finite device state can be written down in it (log 7). -/
structure DState where
  /-- `sel` of BANK, `pend` of STATC. -/
  flag : Bool := false
  /-- `reg` of REG, `last` of X1. -/
  reg : Byte := 0
  nRd : Nat := 0
  nW : Nat := 0
  nBS : Nat := 0
  nIS : Nat := 0
  nRst : Nat := 0
  /-- `ram` of X67. -/
  ram : List Byte := []
deriving DecidableEq, Repr, Inhabited

/-- The result of a cooperative read: a tagged value, never a sentinel byte (R10, R113). -/
inductive Tagged
  | handled (v : Byte)
  | notHandled
deriving DecidableEq, Repr, Inhabited

/-- The result of a bank-select handler (R10, R116). -/
inductive Claim
  | handled
  | notHandled
deriving DecidableEq, Repr, Inhabited

/-- A change a handler makes outside its own device state (R120). -/
inductive Eff
  | memWrite (a : Addr) (v : Byte)
  | irqSet (m : Byte)
  | irqClr (m : Byte)
deriving DecidableEq, Repr, Inhabited

/-- What a handler gives back: its result, the device's new state and the effects in order (R120). -/
structure Reply (α : Type) where
  ans : α
  dst : DState
  effs : List Eff
deriving DecidableEq, Repr, Inhabited

/-- What stands behind the handlers of a slot of `DEVS`. `ext k cap` is ANY device with the capabilities `cap`: its handlers
are the opaque functions below, applied to its name `k` (U19, log 7). The others are the spec's own test devices
(95_test_vectors.md Part 2), whose handlers the spec gives. -/
inductive DevModel
  | ext (k : Nat) (cap : Caps)
  | bank (c p : Byte)
  | stat (st : Byte)
  | statc (st : Byte)
  | reg (a0 : Addr)
  | x1
  | x67
  | ramw
  | bad
deriving DecidableEq, Repr, Inhabited

/-- A slot of the ordered list `DEVS` (R110): the behaviour (with its capabilities), the enable input `en[i]`, the argument of
`Initialize`, the owned bits `IRQ_MASK[i]` and the device's internal state. DESIGN CHOICE (log 33): R122 calls the argument the
device's own and gives it no shape; here it is a list of bytes. -/
structure Device where
  model : DevModel
  en : Bool
  args : List Byte
  irqMask : Byte
  dst : DState
deriving DecidableEq, Repr, Inhabited

/-- The parameters of R6 that are not fixed by the document. The remaining ones are literals of Machine/Constants.lean
(`OPEN_BUS`, `LEGAL`, the shadow constants), widths of Word.lean, or stand in the device slots (`cap`, `IRQ_MASK`). -/
structure Params where
  d1Lo : Addr
  d1Hi : Addr
  d6Lo : Addr
  d6Hi : Addr
  d7Lo : Addr
  d7Hi : Addr
  latchAddr : Addr
  romSize : Nat
  /-- `RAM_BACKED_PON`; `none` is the default, the OR of `ramw` over the enabled devices at `PON` (D13). -/
  ramBackedPon : Option Bool
  resetViaTransition : Bool
  traceEn : Bool
deriving DecidableEq, Repr, Inhabited

/-! The handlers of an arbitrary device (U19): free values. The name `k` tells devices apart. -/

/-- `Read(w, a, nse)` of R113. -/
opaque Config.extRead (k : Nat) (d : DState) (w : Window) (a : Addr) (nse : Bool) : Reply Tagged

/-- `ReadX(w, a, nse)` of R114: a byte, always (D7). -/
opaque Config.extReadX (k : Nat) (d : DState) (w : Window) (a : Addr) (nse : Bool) : Reply Byte

/-- `Write(w, a, v)` of R115. -/
opaque Config.extWrite (k : Nat) (d : DState) (w : Window) (a : Addr) (v : Byte) : Reply Unit

/-- `BankSelect(v)` of R116. -/
opaque Config.extBankSelect (k : Nat) (d : DState) (v : Byte) : Reply Claim

/-- `IrqStatus()` of R117. -/
opaque Config.extIrqStatus (k : Nat) (d : DState) : Reply Byte

/-- `Reset()` of R119. -/
opaque Config.extReset (k : Nat) (d : DState) : Reply Unit

/-- `Initialize(args)` of R122. -/
opaque Config.extInit (k : Nat) (d : DState) (args : List Byte) : Reply Bool

/-- `Shutdown()` of R122. -/
opaque Config.extShutdown (k : Nat) (d : DState) : Reply Unit

/-- The launch contents of `MEM` (R54, U17): any value, and never assumed to be zero. -/
opaque Config.launchMem (a : Nat) : Byte

/-- The contents of the firmware ROM image where the field `rom` lists none (R56, D20). -/
opaque Config.romByte (off : Nat) : Byte

/-- The byte of a `ReadX` call to a test device for which the spec gives no such handler. The arbiter never makes that call,
because none of those devices claims a window exclusively (log 19). -/
opaque Config.unlistedReadX (w : Window) (a : Addr) : Byte

end Sys2Proof
end

