-- ==== Sys2Proof/Machine/Constants.lean ====
section
/-! DEFINITION. The literals of R6: those the document gives (open bus, legal latch codes, shadow copy) and the values the
spec's decisions give the open parameters (`Params.standard`). -/

namespace Sys2Proof

/-- `OPEN_BUS`: the value returned when nothing responds (R6, R91). -/
def openBus : Byte := 0xFF

/-- `LEGAL`: the nine legal latch codes (R6, R88). -/
def legalCodes : List Byte := [0x00, 0x01, 0x02, 0x04, 0x08, 0x10, 0x20, 0x40, 0x80]

/-- `SHADOW_DST`: first address of the shadow RAM region (R6, R53). -/
def shadowDst : Nat := 0xD800

/-- `SHADOW_SRC`: offset of the copy source in the firmware ROM image (R6, R53). -/
def shadowSrc : Nat := 0x1800

/-- `SHADOW_LEN`: length of the copy in bytes (R6, R53). -/
def shadowLen : Nat := 0x800

/-- `MEM_SIZE`: size of the backing memory array in bytes (R6, D14). -/
def memSize : Nat := 0x10000

/-- The least size of the firmware ROM image (R6, R53, D20). -/
def romSizeMin : Nat := 0x2000

/-- The largest number of device slots (R6, R110, D5). -/
def maxDevices : Nat := 8

/-- The default `IRQ_MASK[i]` (R6, D15). -/
def defaultIrqMask (i : Nat) : Byte := BitVec.ofNat 8 (2 ^ i)

/-- The values R6 gives the open parameters. The window bounds and the latch address are marked there as general knowledge
(G1, G2; log 12). -/
def Params.standard : Params where
  d1Lo := 0xD100
  d1Hi := 0xD1FF
  d6Lo := 0xD600
  d6Hi := 0xD6FF
  d7Lo := 0xD700
  d7Hi := 0xD7FF
  latchAddr := 0xD1FF
  romSize := 0x2000
  ramBackedPon := none
  resetViaTransition := false
  traceEn := false

end Sys2Proof
end

