-- ==== Sys2Proof/Machine/Devices.lean ====
section
/-! DEFINITION. The handlers behind the slots of `DEVS`: what a device answers and changes, as a function of its behaviour,
its state and the request. An arbitrary device (`ext`) answers with the free values of Config.lean (U19). The other devices
are the spec's test devices, transcribed from 95_test_vectors.md Part 2: a handler not listed there does nothing, returns
`NotHandled` and produces no effect. -/

namespace Sys2Proof

/-- `cap[i]` (R92; 95 Part 2). -/
def DevModel.cap : DevModel → Caps
  | .ext _ c => c
  | .bank _ _ => { cd1 := true, hasBs := true }
  | .stat _ => { cd1 := true, hasIs := true }
  | .statc _ => { cd1 := true, hasIs := true }
  | .reg _ => { cd1 := true }
  | .x1 => { xd1 := true }
  | .x67 => { xd67 := true }
  | .ramw => { ramw := true }
  | .bad => {}

/-- A test device's read counter: a handler invoked with `nse = 1` changes none (95 Part 2, R121). -/
def countRead (d : DState) (nse : Bool) : DState := if nse then d else { d with nRd := d.nRd + 1 }

/-- The write counter of a test device. -/
def countWrite (d : DState) : DState := { d with nW := d.nW + 1 }

/-- The index of a D6 or D7 address in X67's own bytes. -/
def x67Index (a : Addr) : Nat := a.toNat - 0xD600

/-- `Read(w, a, nse)` (R113). -/
def DevModel.read (m : DevModel) (d : DState) (w : Window) (a : Addr) (nse : Bool) : Reply Tagged :=
  match m with
  | .ext k _ => Config.extRead k d w a nse
  | .bank _ _ => ⟨.notHandled, countRead d nse, []⟩
  | .stat _ => ⟨.notHandled, countRead d nse, []⟩
  | .statc _ => ⟨.notHandled, d, []⟩
  | .reg a0 =>
    if a = a0 then ⟨.handled d.reg, if nse then d else { d with nRd := d.nRd + 1, reg := d.reg + 1 }, []⟩
    else ⟨.notHandled, countRead d nse, []⟩
  | .x1 => ⟨.notHandled, d, []⟩
  | .x67 => ⟨.notHandled, d, []⟩
  | .ramw => ⟨.notHandled, d, []⟩
  | .bad => ⟨.notHandled, d, []⟩

/-- `ReadX(w, a, nse)` (R114). The arbiter asks only devices that claim a window exclusively, so the free value for the test
devices without this handler is never used (log 19). -/
def DevModel.readX (m : DevModel) (d : DState) (w : Window) (a : Addr) (nse : Bool) : Reply Byte :=
  match m with
  | .ext k _ => Config.extReadX k d w a nse
  | .x1 => ⟨a.setWidth 8 ^^^ 0x0F, d, []⟩
  | .x67 => ⟨d.ram.getD (x67Index a) 0, d, []⟩
  | .bank _ _ => ⟨Config.unlistedReadX w a, d, []⟩
  | .stat _ => ⟨Config.unlistedReadX w a, d, []⟩
  | .statc _ => ⟨Config.unlistedReadX w a, d, []⟩
  | .reg _ => ⟨Config.unlistedReadX w a, d, []⟩
  | .ramw => ⟨Config.unlistedReadX w a, d, []⟩
  | .bad => ⟨Config.unlistedReadX w a, d, []⟩

/-- `Write(w, a, v)` (R115). -/
def DevModel.write (m : DevModel) (d : DState) (w : Window) (a : Addr) (v : Byte) : Reply Unit :=
  match m with
  | .ext k _ => Config.extWrite k d w a v
  | .bank _ _ => ⟨(), countWrite d, []⟩
  | .stat _ => ⟨(), countWrite d, []⟩
  | .statc _ =>
    if a = 0xD1F0 then ⟨(), { countWrite d with flag := true }, [.irqSet 0xFF]⟩ else ⟨(), countWrite d, []⟩
  | .reg a0 => ⟨(), if a = a0 then { countWrite d with reg := v } else countWrite d, []⟩
  | .x1 => ⟨(), { countWrite d with reg := v }, []⟩
  | .x67 => ⟨(), { d with ram := d.ram.set (x67Index a) v }, []⟩
  | .ramw => ⟨(), d, []⟩
  | .bad => ⟨(), d, []⟩

/-- The mapping effect of BANK: its bank reads as the byte `p` everywhere in the shadow region. -/
def bankEffects (p : Byte) : List Eff :=
  (List.range shadowLen).map fun k => .memWrite (BitVec.ofNat 16 (shadowDst + k)) p

/-- `BankSelect(v)` (R116). -/
def DevModel.bankSelect (m : DevModel) (d : DState) (v : Byte) : Reply Claim :=
  match m with
  | .ext k _ => Config.extBankSelect k d v
  | .bank c p =>
    if v = c then ⟨.handled, { d with nBS := d.nBS + 1, flag := true }, bankEffects p⟩
    else ⟨.notHandled, { d with nBS := d.nBS + 1, flag := false }, []⟩
  | .stat _ => ⟨.notHandled, d, []⟩
  | .statc _ => ⟨.notHandled, d, []⟩
  | .reg _ => ⟨.notHandled, d, []⟩
  | .x1 => ⟨.notHandled, d, []⟩
  | .x67 => ⟨.notHandled, d, []⟩
  | .ramw => ⟨.notHandled, d, []⟩
  | .bad => ⟨.notHandled, d, []⟩

/-- `IrqStatus()` (R117). A device without the handler contributes 0 (R195). -/
def DevModel.irqStatus (m : DevModel) (d : DState) : Reply Byte :=
  match m with
  | .ext k _ => Config.extIrqStatus k d
  | .stat st => ⟨st, { d with nIS := d.nIS + 1 }, []⟩
  | .statc st =>
    if d.flag then ⟨st, { d with nIS := d.nIS + 1, flag := false }, [.irqClr 0xFF]⟩
    else ⟨0x00, { d with nIS := d.nIS + 1 }, []⟩
  | .bank _ _ => ⟨0x00, d, []⟩
  | .reg _ => ⟨0x00, d, []⟩
  | .x1 => ⟨0x00, d, []⟩
  | .x67 => ⟨0x00, d, []⟩
  | .ramw => ⟨0x00, d, []⟩
  | .bad => ⟨0x00, d, []⟩

/-- `Reset()` (R119). -/
def DevModel.resetHandler (m : DevModel) (d : DState) : Reply Unit :=
  match m with
  | .ext k _ => Config.extReset k d
  | .bank _ _ => ⟨(), { d with nRst := d.nRst + 1, flag := false }, []⟩
  | .stat _ => ⟨(), { d with nRst := d.nRst + 1 }, []⟩
  | .statc _ => ⟨(), { d with nRst := d.nRst + 1, flag := false }, [.irqClr 0xFF]⟩
  | .reg _ => ⟨(), { d with nRst := d.nRst + 1, reg := 0x00 }, []⟩
  | .x1 => ⟨(), d, []⟩
  | .x67 => ⟨(), d, []⟩
  | .ramw => ⟨(), d, []⟩
  | .bad => ⟨(), d, []⟩

/-- The initial state of a test device other than X67 (95 Part 2). -/
def freshDState : DState := ⟨false, 0, 0, 0, 0, 0, 0, []⟩

/-- The initial state of X67: 512 bytes of zeros. -/
def freshX67 : DState := { freshDState with ram := List.replicate 512 0x00 }

/-- `Initialize(args)` (R122). -/
def DevModel.initHandler (m : DevModel) (d : DState) (args : List Byte) : Reply Bool :=
  match m with
  | .ext k _ => Config.extInit k d args
  | .bank _ _ => ⟨true, freshDState, []⟩
  | .stat _ => ⟨true, freshDState, []⟩
  | .statc _ => ⟨true, freshDState, []⟩
  | .reg _ => ⟨true, freshDState, []⟩
  | .x1 => ⟨true, freshDState, []⟩
  | .x67 => ⟨true, freshX67, []⟩
  | .ramw => ⟨true, freshDState, []⟩
  | .bad => ⟨false, d, []⟩

/-- `Shutdown()` (R122). -/
def DevModel.shutdownHandler (m : DevModel) (d : DState) : Reply Unit :=
  match m with
  | .ext k _ => Config.extShutdown k d
  | .bank _ _ => ⟨(), d, []⟩
  | .stat _ => ⟨(), d, []⟩
  | .statc _ => ⟨(), d, []⟩
  | .reg _ => ⟨(), d, []⟩
  | .x1 => ⟨(), d, []⟩
  | .x67 => ⟨(), d, []⟩
  | .ramw => ⟨(), d, []⟩
  | .bad => ⟨(), d, []⟩

end Sys2Proof
end

