-- ==== Sys2Proof/Syntax.lean ====
section
/-! DEFINITION. The eighteen operations (R80), one constructor per row of the opcode table, with the operands the encoding
gives them; the snapshot record (R90); the agents (R270); the reasons for which a word spells no operation (R93). -/

namespace Sys2Proof

/-- A snapshot record, format S: a tuple of numbers, without a byte layout (R57, R90). -/
structure SnapRec where
  latch : Byte
  ramb : SnapWord
  irq : SnapWord
deriving DecidableEq, Repr, Inhabited

/-- The three kinds of agent that cause operations (R270). -/
inductive Agent
  | cpu
  | device (i : BitVec 3)
  | host
deriving DecidableEq, Repr, Inhabited

/-- The operations of R80. `nse` true is the suppressed read `RDN`. `LOAD` carries the record that stands beside its word. -/
inductive Instr
  | rdLatch (nse : Bool)
  | rdD1 (addr : Addr) (nse : Bool)
  | rdD6 (addr : Addr) (nse : Bool)
  | rdD7 (addr : Addr) (nse : Bool)
  | rdNosel (addr : Addr) (nse : Bool)
  | wrLatch (data : Byte)
  | wrD1 (addr : Addr) (data : Byte)
  | wrD6 (addr : Addr) (data : Byte)
  | wrD7 (addr : Addr) (data : Byte)
  | wrNosel (addr : Addr) (data : Byte)
  | irqSet (dev : BitVec 3) (mask : Byte)
  | irqClr (dev : BitVec 3) (mask : Byte)
  | rambSet (b : Bool)
  | save
  | load (r : SnapRec)
  | reset
  | pon
  | teardown
deriving DecidableEq, Repr, Inhabited

/-- Why a word spells no operation (R93a). -/
inductive DecodeError
  /-- `kind` is 0xA to 0xF (R82). -/
  | reservedKind
  /-- `nse` is 1 and `kind` is not 0 (R83, R84, R85). -/
  | nseNotZero
  /-- `dev` is not 0 and `kind` is neither 2 nor 3 (R83, R85). -/
  | devNotZero
  /-- `payload[31:24]` of a bus access is not zero (R83). -/
  | padNotZero
  /-- `payload[7:0]` of a read is not zero (R83). -/
  | readDataNotZero
  /-- `payload[31:8]` of `IRQ.SET` or `IRQ.CLR` is not zero (R84). -/
  | maskHighNotZero
  /-- The payload of a host operation has a bit that must be zero (R85). -/
  | payloadNotZero
  /-- `dev` of `IRQ.SET` or `IRQ.CLR` is not below `N_DEV` (R84, R93, U16). -/
  | noSuchDevice
deriving DecidableEq, Repr, Inhabited

end Sys2Proof
end

