-- ==== Sys2Proof/Machine/Operands.lean ====
section
/-! DEFINITION. Operand decode (R87): the address-window router as a function, the constraints on the parameters it works
with (R51, R52), the agent of an operation (R80, R270) and the precondition on a snapshot record (R233). -/

namespace Sys2Proof

/-- What an address selects (R87). -/
inductive Target
  | latchLoc | d1 | d6 | d7 | nosel
deriving DecidableEq, Repr

/-- `lo <= a <= hi`, unsigned (R102). -/
def inRange (lo hi a : Addr) : Bool := decide (lo.toNat ≤ a.toNat) && decide (a.toNat ≤ hi.toNat)

/-- The address-window router (R87, R140): it uses nothing but the address. -/
def window (p : Params) (a : Addr) : Target :=
  if a = p.latchAddr then .latchLoc
  else if inRange p.d1Lo p.d1Hi a then .d1
  else if inRange p.d6Lo p.d6Hi a then .d6
  else if inRange p.d7Lo p.d7Hi a then .d7
  else .nosel

/-- Two address ranges have no address in common, or one of them is empty. -/
def rangesApart (lo hi lo' hi' : Nat) : Bool := decide (hi < lo') || decide (hi' < lo)

/-- The constraints R51, R52 and R53 put on the parameters: three non-empty, pairwise disjoint windows that do not meet the
shadow region, a latch address inside D1, and a ROM image that holds the copy source. -/
def Params.ok (p : Params) : Bool :=
  decide (p.d1Lo.toNat ≤ p.d1Hi.toNat) && decide (p.d6Lo.toNat ≤ p.d6Hi.toNat) && decide (p.d7Lo.toNat ≤ p.d7Hi.toNat)
  && rangesApart p.d1Lo.toNat p.d1Hi.toNat p.d6Lo.toNat p.d6Hi.toNat
  && rangesApart p.d1Lo.toNat p.d1Hi.toNat p.d7Lo.toNat p.d7Hi.toNat
  && rangesApart p.d6Lo.toNat p.d6Hi.toNat p.d7Lo.toNat p.d7Hi.toNat
  && rangesApart p.d1Lo.toNat p.d1Hi.toNat shadowDst (shadowDst + shadowLen - 1)
  && rangesApart p.d6Lo.toNat p.d6Hi.toNat shadowDst (shadowDst + shadowLen - 1)
  && rangesApart p.d7Lo.toNat p.d7Hi.toNat shadowDst (shadowDst + shadowLen - 1)
  && inRange p.d1Lo p.d1Hi p.latchAddr
  && decide (romSizeMin ≤ p.romSize)

/-- The agent that may cause an operation (R80, R270): a device's interrupt request comes from that device alone. -/
def Instr.agent : Instr → Agent
  | .rdLatch _ => .cpu
  | .rdD1 _ _ => .cpu
  | .rdD6 _ _ => .cpu
  | .rdD7 _ _ => .cpu
  | .rdNosel _ _ => .cpu
  | .wrLatch _ => .cpu
  | .wrD1 _ _ => .cpu
  | .wrD6 _ _ => .cpu
  | .wrD7 _ _ => .cpu
  | .wrNosel _ _ => .cpu
  | .irqSet d _ => .device d
  | .irqClr d _ => .device d
  | .rambSet _ => .host
  | .save => .host
  | .load _ => .host
  | .reset => .host
  | .pon => .host
  | .teardown => .host

end Sys2Proof
end

