-- ==== Sys2Proof/Machine/Flags.lean ====
section
/-! DEFINITION. The flag and bit-field computations: the valid-code checker (R186), set and clear of owned bits of the
interrupt aggregate (R211, R212), the OR reduction to the line (R216), and the conversions of the snapshot fields (R230,
R231, R233). The hardware has no condition codes. -/

namespace Sys2Proof

/-- The valid-code checker: exactly the nine codes of `LEGAL` (R186). -/
def legal (v : Byte) : Bool := legalCodes.contains v

/-- `IRQ_AGG | (mask & IRQ_MASK[dev])` (R211). -/
def setOwned (own agg m : Byte) : Byte := agg ||| (m &&& own)

/-- `IRQ_AGG & ~(mask & IRQ_MASK[dev])` (R212). -/
def clearOwned (own agg m : Byte) : Byte := agg &&& ~~~(m &&& own)

/-- `IRQ_LINE` of an aggregate: the OR over its bits (R216). -/
def orReduce (agg : Byte) : Bool :=
  agg.getLsbD 7 || agg.getLsbD 6 || agg.getLsbD 5 || agg.getLsbD 4
  || agg.getLsbD 3 || agg.getLsbD 2 || agg.getLsbD 1 || agg.getLsbD 0

/-- The RAM-backed flag as a snapshot word (R90, R230). -/
def rambWord (b : Bool) : SnapWord := if b then 1 else 0

/-- The flag a snapshot word restores (R231). -/
def rambFlag (w : SnapWord) : Bool := decide (w = 1)

/-- The aggregate as a snapshot word, zero-extended (R90, R230). -/
def irqWord (agg : Byte) : SnapWord := agg.setWidth 32

/-- The aggregate a snapshot word restores, `irq[IRQ_W-1:0]` (R231). -/
def irqField (w : SnapWord) : Byte := w.setWidth 8

/-- `irq < 2^IRQ_W` (R233). -/
def irqFits (w : SnapWord) : Bool := decide (w.toNat < 2 ^ 8)

/-- `ramb` is 0 or 1 (R233). -/
def rambIsBit (w : SnapWord) : Bool := decide (w = 0) || decide (w = 1)

/-- The precondition of `LOAD` (R233). -/
def SnapRec.loadable (r : SnapRec) : Bool := legal r.latch && rambIsBit r.ramb && irqFits r.irq

/-- The power-on value of the RAM-backed flag (R6, R290, D13): the parameter, or else the OR over the enabled devices of
`ramw`. -/
def ramBackedAtPon (p : Params) (ramwEnabled : Bool) : Bool := p.ramBackedPon.getD ramwEnabled

end Sys2Proof
end

