-- ==== Sys2Proof/WellFormed.lean ====
section
/-! DEFINITION. Which operations have an encoding: the address of a bus access selects the operation's window (R83, R87), and
the device of an interrupt request is one of `DEVS` (R84). A record beside `LOAD` may hold any numbers; R233 is the
operation's own precondition. -/

namespace Sys2Proof

/-- Every field of the operation has a value that its encoding admits, with the parameters `p` and `nDev` devices. -/
def WellFormed (p : Params) (nDev : Nat) : Instr → Bool
  | .rdLatch _ => true
  | .rdD1 a _ => decide (window p a = .d1)
  | .rdD6 a _ => decide (window p a = .d6)
  | .rdD7 a _ => decide (window p a = .d7)
  | .rdNosel a _ => decide (window p a = .nosel)
  | .wrLatch _ => true
  | .wrD1 a _ => decide (window p a = .d1)
  | .wrD6 a _ => decide (window p a = .d6)
  | .wrD7 a _ => decide (window p a = .d7)
  | .wrNosel a _ => decide (window p a = .nosel)
  | .irqSet d _ => decide (d.toNat < nDev)
  | .irqClr d _ => decide (d.toNat < nDev)
  | .rambSet _ => true
  | .save => true
  | .load _ => true
  | .reset => true
  | .pon => true
  | .teardown => true

end Sys2Proof
end

