-- ==== Sys2Proof/Decode.lean ====
section
/-! DEFINITION. The decoder of event words (R81 to R87, R93), total and rejecting by name; the encoder, written from the same
tables; the opcode table with its first-match rule (R86). -/

namespace Sys2Proof

/-- What a word spells: an operation, or nothing, for a named reason (R93a). -/
inductive Decoded
  | instr (i : Instr)
  | invalid (e : DecodeError)
deriving DecidableEq, Repr

/-! The fields of an event word (R81). -/

/-- `EW[39:36]`. -/
def ewKind (w : EventWord) : BitVec 4 := w.extractLsb' 36 4

/-- `EW[35]`. -/
def ewNse (w : EventWord) : Bool := w.getLsbD 35

/-- `EW[34:32]`. -/
def ewDev (w : EventWord) : BitVec 3 := w.extractLsb' 32 3

/-- `EW[31:0]`. -/
def ewPayload (w : EventWord) : BitVec 32 := w.extractLsb' 0 32

/-- `payload[31:24]` of a bus access (R83). -/
def ewPad (w : EventWord) : BitVec 8 := w.extractLsb' 24 8

/-- `payload[23:8]` of a bus access, the bus address (R83). -/
def ewAddr (w : EventWord) : Addr := w.extractLsb' 8 16

/-- `payload[7:0]`: the data of a bus access (R83) or the mask of an interrupt request (R84). -/
def ewData (w : EventWord) : Byte := w.extractLsb' 0 8

/-- `payload[31:8]`, which must be zero in an interrupt request (R84). -/
def ewMaskHigh (w : EventWord) : BitVec 24 := w.extractLsb' 8 24

/-- `payload[31:1]`, which must be zero in `RAMB.SET` (R85). -/
def ewFlagHigh (w : EventWord) : BitVec 31 := w.extractLsb' 1 31

/-- The read that the window of an address selects (R83, R87). -/
def readAt (p : Params) (a : Addr) (nse : Bool) : Instr :=
  match window p a with
  | .latchLoc => .rdLatch nse
  | .d1 => .rdD1 a nse
  | .d6 => .rdD6 a nse
  | .d7 => .rdD7 a nse
  | .nosel => .rdNosel a nse

/-- The write that the window of an address selects (R83, R87). -/
def writeAt (p : Params) (a : Addr) (v : Byte) : Instr :=
  match window p a with
  | .latchLoc => .wrLatch v
  | .d1 => .wrD1 a v
  | .d6 => .wrD6 a v
  | .d7 => .wrD7 a v
  | .nosel => .wrNosel a v

/-- Format B, `kind` 0 (R83). -/
def decodeRead (p : Params) (w : EventWord) : Decoded :=
  if ewDev w ≠ 0 then .invalid .devNotZero
  else if ewPad w ≠ 0 then .invalid .padNotZero
  else if ewData w ≠ 0 then .invalid .readDataNotZero
  else .instr (readAt p (ewAddr w) (ewNse w))

/-- Format B, `kind` 1 (R83). -/
def decodeWrite (p : Params) (w : EventWord) : Decoded :=
  if ewNse w then .invalid .nseNotZero
  else if ewDev w ≠ 0 then .invalid .devNotZero
  else if ewPad w ≠ 0 then .invalid .padNotZero
  else .instr (writeAt p (ewAddr w) (ewData w))

/-- Format I, `kind` 2 and 3 (R84); the device index is checked after the pattern (R93). -/
def decodeIrq (nDev : Nat) (op : BitVec 3 → Byte → Instr) (w : EventWord) : Decoded :=
  if ewNse w then .invalid .nseNotZero
  else if ewMaskHigh w ≠ 0 then .invalid .maskHighNotZero
  else if (ewDev w).toNat < nDev then .instr (op (ewDev w) (ewData w))
  else .invalid .noSuchDevice

/-- Format H with a payload of zeros, `kind` 5 to 9 (R85). -/
def decodeHost (i : Instr) (w : EventWord) : Decoded :=
  if ewNse w then .invalid .nseNotZero
  else if ewDev w ≠ 0 then .invalid .devNotZero
  else if ewPayload w ≠ 0 then .invalid .payloadNotZero
  else .instr i

/-- `RAMB.SET`, `kind` 4 (R85). -/
def decodeRamb (w : EventWord) : Decoded :=
  if ewNse w then .invalid .nseNotZero
  else if ewDev w ≠ 0 then .invalid .devNotZero
  else if ewFlagHigh w ≠ 0 then .invalid .payloadNotZero
  else .instr (.rambSet (w.getLsbD 0))

/-- The decoder (R82 to R87, R93): the operation that the word `w`, with the record `r` beside it, spells in a core with the
parameters `p` and `nDev` devices. The record belongs to `LOAD` alone (R82, R85; log 24). -/
def decode (p : Params) (nDev : Nat) (w : EventWord) (r : SnapRec) : Decoded :=
  if ewKind w = 0x0 then decodeRead p w
  else if ewKind w = 0x1 then decodeWrite p w
  else if ewKind w = 0x2 then decodeIrq nDev Instr.irqSet w
  else if ewKind w = 0x3 then decodeIrq nDev Instr.irqClr w
  else if ewKind w = 0x4 then decodeRamb w
  else if ewKind w = 0x5 then decodeHost .save w
  else if ewKind w = 0x6 then decodeHost (.load r) w
  else if ewKind w = 0x7 then decodeHost .reset w
  else if ewKind w = 0x8 then decodeHost .pon w
  else if ewKind w = 0x9 then decodeHost .teardown w
  else .invalid .reservedKind

/-- The agent to whose operations a word's `kind` belongs (R80, R82); a reserved kind belongs to none. -/
def agentOfWord (w : EventWord) : Option Agent :=
  if ewKind w = 0x0 ∨ ewKind w = 0x1 then some .cpu
  else if ewKind w = 0x2 ∨ ewKind w = 0x3 then some (.device (ewDev w))
  else if ewKind w = 0x4 ∨ ewKind w = 0x5 ∨ ewKind w = 0x6 ∨ ewKind w = 0x7 ∨ ewKind w = 0x8 ∨ ewKind w = 0x9 then
    some .host
  else none

/-! The encoder. -/

/-- An event word from its four fields (R81). -/
def mkWord (kind : BitVec 4) (nse : Bool) (dev : BitVec 3) (payload : BitVec 32) : EventWord :=
  kind ++ BitVec.ofBool nse ++ dev ++ payload

/-- The payload of a bus access (R83). -/
def busPayload (a : Addr) (data : Byte) : BitVec 32 := (0 : BitVec 8) ++ a ++ data

/-- The word of an operation (R82 to R85). -/
def encodeWord (p : Params) : Instr → EventWord
  | .rdLatch nse => mkWord 0x0 nse 0 (busPayload p.latchAddr 0)
  | .rdD1 a nse => mkWord 0x0 nse 0 (busPayload a 0)
  | .rdD6 a nse => mkWord 0x0 nse 0 (busPayload a 0)
  | .rdD7 a nse => mkWord 0x0 nse 0 (busPayload a 0)
  | .rdNosel a nse => mkWord 0x0 nse 0 (busPayload a 0)
  | .wrLatch v => mkWord 0x1 false 0 (busPayload p.latchAddr v)
  | .wrD1 a v => mkWord 0x1 false 0 (busPayload a v)
  | .wrD6 a v => mkWord 0x1 false 0 (busPayload a v)
  | .wrD7 a v => mkWord 0x1 false 0 (busPayload a v)
  | .wrNosel a v => mkWord 0x1 false 0 (busPayload a v)
  | .irqSet d m => mkWord 0x2 false d ((0 : BitVec 24) ++ m)
  | .irqClr d m => mkWord 0x3 false d ((0 : BitVec 24) ++ m)
  | .rambSet b => mkWord 0x4 false 0 ((0 : BitVec 31) ++ BitVec.ofBool b)
  | .save => mkWord 0x5 false 0 0
  | .load _ => mkWord 0x6 false 0 0
  | .reset => mkWord 0x7 false 0 0
  | .pon => mkWord 0x8 false 0 0
  | .teardown => mkWord 0x9 false 0 0

/-- The record of zeros, which stands beside a word that takes none. -/
def zeroRec : SnapRec := ⟨0, 0, 0⟩

/-- The record beside the word of an operation: `LOAD`'s operand (R82, R90). -/
def recordOf : Instr → SnapRec
  | .load r => r
  | .rdLatch _ => zeroRec
  | .rdD1 _ _ => zeroRec
  | .rdD6 _ _ => zeroRec
  | .rdD7 _ _ => zeroRec
  | .rdNosel _ _ => zeroRec
  | .wrLatch _ => zeroRec
  | .wrD1 _ _ => zeroRec
  | .wrD6 _ _ => zeroRec
  | .wrD7 _ _ => zeroRec
  | .wrNosel _ _ => zeroRec
  | .irqSet _ _ => zeroRec
  | .irqClr _ _ => zeroRec
  | .rambSet _ => zeroRec
  | .save => zeroRec
  | .reset => zeroRec
  | .pon => zeroRec
  | .teardown => zeroRec

/-- The encoding of an operation: its word and the record beside it. -/
def encode (p : Params) (i : Instr) : EventWord × SnapRec := (encodeWord p i, recordOf i)

/-! The opcode table (R86). -/

/-- The spec's mnemonic of an operation (R80). -/
def Instr.mnemonic : Instr → String
  | .rdLatch _ => "RD.LATCH"
  | .rdD1 _ _ => "RD.D1"
  | .rdD6 _ _ => "RD.D6"
  | .rdD7 _ _ => "RD.D7"
  | .rdNosel _ _ => "RD.NOSEL"
  | .wrLatch _ => "WR.LATCH"
  | .wrD1 _ _ => "WR.D1"
  | .wrD6 _ _ => "WR.D6"
  | .wrD7 _ _ => "WR.D7"
  | .wrNosel _ _ => "WR.NOSEL"
  | .irqSet _ _ => "IRQ.SET"
  | .irqClr _ _ => "IRQ.CLR"
  | .rambSet _ => "RAMB.SET"
  | .save => "SAVE"
  | .load _ => "LOAD"
  | .reset => "RESET"
  | .pon => "PON"
  | .teardown => "TEARDOWN"

/-- A row of the opcode table. -/
structure OpcodeRow where
  mnemonic : String
  pattern : EventWord
  mask : EventWord
deriving DecidableEq, Repr

/-- The rows of the opcode table, in decode order (R86); they are for the standard parameters of R6. -/
def opcodeTable : List OpcodeRow :=
  [⟨"RD.LATCH", 0x0000D1FF00, 0xF7FFFFFFFF⟩,
   ⟨"RD.D1", 0x0000D10000, 0xF7FFFF00FF⟩,
   ⟨"RD.D6", 0x0000D60000, 0xF7FFFF00FF⟩,
   ⟨"RD.D7", 0x0000D70000, 0xF7FFFF00FF⟩,
   ⟨"RD.NOSEL", 0x0000000000, 0xF7FF0000FF⟩,
   ⟨"WR.LATCH", 0x1000D1FF00, 0xFFFFFFFF00⟩,
   ⟨"WR.D1", 0x1000D10000, 0xFFFFFF0000⟩,
   ⟨"WR.D6", 0x1000D60000, 0xFFFFFF0000⟩,
   ⟨"WR.D7", 0x1000D70000, 0xFFFFFF0000⟩,
   ⟨"WR.NOSEL", 0x1000000000, 0xFFFF000000⟩,
   ⟨"IRQ.SET", 0x2000000000, 0xF8FFFFFF00⟩,
   ⟨"IRQ.CLR", 0x3000000000, 0xF8FFFFFF00⟩,
   ⟨"RAMB.SET", 0x4000000000, 0xFFFFFFFFFE⟩,
   ⟨"SAVE", 0x5000000000, 0xFFFFFFFFFF⟩,
   ⟨"LOAD", 0x6000000000, 0xFFFFFFFFFF⟩,
   ⟨"RESET", 0x7000000000, 0xFFFFFFFFFF⟩,
   ⟨"PON", 0x8000000000, 0xFFFFFFFFFF⟩,
   ⟨"TEARDOWN", 0x9000000000, 0xFFFFFFFFFF⟩]

/-- The mnemonic of the first row with `(EW & mask) == match` (R86). -/
def tableMnemonic (w : EventWord) : Option String :=
  (opcodeTable.find? fun row => decide (w &&& row.mask = row.pattern)).map OpcodeRow.mnemonic

/-- The operation of a decoded word, if it spells one. -/
def Decoded.instr? : Decoded → Option Instr
  | .instr i => some i
  | .invalid _ => none

/-- The operation that a word numbered as the opcode table numbers its bits spells, with the standard parameters, all eight
device slots present and a record of zeros beside it. Every row of the table has 40 bits, so a number with a higher bit set
is no event word. -/
def decodeTableWord (_nbits w : Nat) : Option Instr :=
  if w < 2 ^ 40 then (decode Params.standard maxDevices (BitVec.ofNat 40 w) zeroRec).instr? else none

end Sys2Proof
end

