-- ==== Sys2Proof/Machine/State.lean ====
section
/-! DEFINITION. The machine's state as plain data (10_state.md), its output ports (R32), the input queue, the reasons for a
refusal, and the state right after reset (R31). -/

namespace Sys2Proof.Machine

/-- A sparse memory: (address, byte) pairs with strictly rising addresses. An unlisted address has no value in the list; what
the memory port reads there is said in Machine/Ops.lean. -/
abbrev Memory := List Host.Cell

/-- The machine has no fault: "No operation ... raises an exception", and no behaviour is treated as a fault (R250, 93 part 1;
log 28). -/
inductive Fault
deriving DecidableEq, Repr

/-- Why an operation has no meaning (R9 `refuse`; 93_implementation_defined.md). Every refusal is safe: the model says nothing
of what happens next. -/
inductive Refusal
  /-- Raised by an arm of `exec` for an operation without a meaning; no arm does. Safe. -/
  | notModelled (mnemonic : String)
  /-- Raised by every operation other than `PON` while `ALIVE` is false (R27, U9). Safe. -/
  | notAlive
  /-- Raised by `PON` while `ALIVE` is true (R290, U9). Safe. -/
  | alreadyAlive
  /-- Raised by `step` for a word that spells no operation (R93, U4, U16). Safe. -/
  | invalidWord (e : DecodeError)
  /-- Raised by `step` when an agent presents an operation that it may not cause (R270, D27). Safe. -/
  | agentMayNot
  /-- Raised by `IRQ.SET` and `IRQ.CLR` of a device that is not in `DEVS` (R84, R93, U16). Safe. -/
  | noSuchDevice
  /-- Raised by `LOAD` of a record whose `latch` is not legal (R233, U5). Safe. -/
  | recordLatchIllegal
  /-- Raised by `LOAD` of a record whose `ramb` is neither 0 nor 1 (R233, U6). Safe. -/
  | recordRambNotBit
  /-- Raised by `LOAD` of a record whose `irq` has a bit at or above `IRQ_W` (R233, U7). Safe. -/
  | recordIrqTooWide
  /-- Raised by a suppressed read when a device it consults changes its state or produces an effect, against R121: such a
  device is refused and not repaired (U10). Safe. -/
  | suppressionBroken
deriving DecidableEq, Repr

/-- What drives the read data: the device-select mux's `SRC` (R154). -/
inductive Source
  | excl (x : Nat)
  | coop (i : Nat)
  | status
  | ram
  | openBus
deriving DecidableEq, Repr

/-- A request on the handler port of a device (R32, R113 to R122). -/
inductive Request
  | read (w : Window) (a : Addr) (nse : Bool)
  | readX (w : Window) (a : Addr) (nse : Bool)
  | write (w : Window) (a : Addr) (v : Byte)
  | bankSelect (v : Byte)
  | irqStatus
  | reset
  | init (args : List Byte)
  | shutdown
deriving DecidableEq, Repr

/-- The answer on the handler port of a device (R32, R113 to R122). -/
inductive Answer
  | unit
  | tagged (t : Tagged)
  | byte (v : Byte)
  | claim (c : Claim)
  | flag (b : Bool)
deriving DecidableEq, Repr

/-- One invocation of a handler: the index of the device, the request and the answer. -/
structure Call where
  dev : Nat
  req : Request
  ans : Answer
deriving DecidableEq, Repr

/-- A report of the diagnostic hook (R157). DESIGN CHOICE (log 32): the spec gives a report no format (N21); here it carries the
occasion and the rejected byte, or the address of the unclaimed access without its data or `nse`. -/
inductive TraceItem
  | invalidLatch (v : Byte)
  | unclaimedRead (a : Addr)
  | unclaimedWrite (a : Addr)
deriving DecidableEq, Repr

/-- The result of the last operation (R32). `idle`: no operation yet. `data`: a read in a window, with the byte on `cpu_rdata`.
`written`: a write in a window. `noData`, `ignored`: a read and a write outside the windows (R148, R153). `snapshot`: the
record of `SAVE`. `ponOk`, `ponFailed`: the result of `PON`. `done`: an operation without a result. -/
inductive OpResult
  | idle
  | data (v : Byte) (src : Source)
  | written
  | noData
  | ignored
  | snapshot (r : SnapRec)
  | ponOk
  | ponFailed
  | done
deriving DecidableEq, Repr

/-- The output ports after the last operation (R32): its result, the handler calls it made in order, and its trace reports. -/
structure Outputs where
  result : OpResult
  calls : List Call
  trace : List TraceItem
deriving DecidableEq, Repr

/-- What comes next in the total order of operations and environment moves (R26, R61, U21; log 1, log 2). -/
inductive Input
  /-- An agent presents an event word, with the record that stands beside it (R80 to R86). -/
  | op (ag : Agent) (w : EventWord) (r : SnapRec)
  /-- The host sets `en[i]` between operations (R100 `.en`, R111, R310). -/
  | enable (i : Nat) (b : Bool)
  /-- Device `i` changes its own state between operations (R123). -/
  | deviceMove (i : Nat) (d : DState)
  /-- Another master writes a byte of `MEM` without passing through the core (R54, R306, U2). -/
  | outsideWrite (a : Addr) (v : Byte)
deriving DecidableEq, Repr

/-- The machine: the four state elements and `ALIVE` (R20 to R27), the environment state that operations change (R28c, R28d),
the configuration and enable inputs (R28a, R28b), the input queue and the output ports. -/
structure State where
  /-- `ALIVE` (R27). -/
  alive : Bool
  /-- `LATCH` (R21). -/
  latch : Byte
  /-- `ROM_SHADOW` (R22). -/
  romShadow : Bool
  /-- `RAM_BACKED` (R23). -/
  ramBacked : Bool
  /-- `IRQ_AGG` (R24). -/
  irqAgg : Byte
  /-- `MEM` (R54). -/
  mem : Memory
  /-- The firmware ROM image (R56). -/
  rom : Memory
  /-- `DEVS` with `cap`, `en`, `args`, `IRQ_MASK` and `dstate` of every device (R110, R28). -/
  devs : List Device
  /-- The parameters of R6. -/
  params : Params
  /-- What the agents present next, in order (the model's own field, log 1). -/
  inbox : List Input
  /-- The output ports after the last operation (the model's own field, log 4). -/
  out : Outputs
deriving DecidableEq, Repr

/-- Output ports before any operation. -/
def Outputs.empty : Outputs := ⟨.idle, [], []⟩

/-- The device in slot `i` after reset: any device, disabled, without capabilities, owning the bit `1 << i` (log 10). -/
def launchDevice (i : Nat) : Device where
  model := .ext i ⟨false, false, false, false, false, false⟩
  en := false
  args := []
  irqMask := defaultIrqMask i
  dst := ⟨false, 0, 0, 0, 0, 0, 0, []⟩

/-- The machine right after reset (R31: the values of `PON`, then `RESET`), with the standard parameters of R6, eight disabled
devices (log 10), nothing listed in the memories and no event presented yet. -/
def State.reset : State where
  alive := true
  latch := 0x00
  romShadow := true
  ramBacked := false
  irqAgg := 0
  mem := []
  rom := []
  devs := (List.range maxDevices).map launchDevice
  params := Params.standard
  inbox := []
  out := Outputs.empty

/-- The outcome of an operation. -/
abbrev StepOutcome := Host.Outcome State Fault Refusal

end Sys2Proof.Machine
end

