-- ==== Sys2Proof/Machine/Ops.lean ====
section
/-! DEFINITION. The named operations that the meanings share: the memory ports (R54, R56), the effects of a handler (R120), the
invocation of a handler, the search lists of the arbiter (R118), the suppression duty (R121), the trace (R157) and the frame
of an operation. There is no operation for taking an exception, because the hardware raises none and takes no trap (R250,
R264). -/

namespace Sys2Proof.Machine

/-! Memories. -/

/-- The byte a memory lists at `a`, if it lists one. -/
def Memory.get? : Memory → Nat → Option Byte
  | [], _ => none
  | (b, v) :: m, a => if a = b then some v else Memory.get? m a

/-- The memory with the byte `v` at `a`, addresses still strictly rising. -/
def Memory.put : Memory → Nat → Byte → Memory
  | [], a, v => [(a, v)]
  | (b, w) :: m, a, v =>
    if a < b then (a, v) :: (b, w) :: m else if a = b then (a, v) :: m else (b, w) :: Memory.put m a v

/-- Bytes laid out from address `a` upwards. -/
def cellsFrom : Nat → List Byte → Memory
  | _, [] => []
  | a, v :: vs => (a, v) :: cellsFrom (a + 1) vs

/-- The memory with a block of bytes written from address `a` upwards: what lies below, the block, what lies above. -/
def Memory.putBlock (m : Memory) (a : Nat) (vs : List Byte) : Memory :=
  m.filter (fun c => decide (c.1 < a)) ++ cellsFrom a vs ++ m.filter (fun c => decide (a + vs.length ≤ c.1))

/-- The addresses rise strictly. -/
def Memory.rising : Memory → Bool
  | [] => true
  | c :: m => m.all (fun c' => decide (c.1 < c'.1)) && Memory.rising m

/-- The canonical form of a memory of `size` bytes: addresses strictly rising and below `size`. An unlisted address has no value
in the list, so no entry repeats what an unlisted address holds. -/
def Memory.wf (size : Nat) (m : Memory) : Bool := Memory.rising m && m.all (fun c => decide (c.1 < size))

/-- `MemRead(addr, 1)` (R54). A byte that nothing has written holds the launch contents, a free value (U17, log 5). -/
def memRead (s : State) (a : Addr) : Byte := (Memory.get? s.mem a.toNat).getD (Config.launchMem a.toNat)

/-- `MemWrite(addr, 1, v)` (R54): the bus address is the index, unchanged. -/
def memWrite (s : State) (a : Addr) (v : Byte) : State := { s with mem := Memory.put s.mem a.toNat v }

/-- `RomRead(off)` (R56). The image is read-only; where the field lists no byte its contents are a free value (log 6). -/
def romRead (s : State) (off : Nat) : Byte := (Memory.get? s.rom off).getD (Config.romByte off)

/-! Effects (R120). -/

/-- What one effect does to `MEM`. The core does not check who owns the address (R55, U2, log 9). -/
def effOnMem (m : Memory) : Eff → Memory
  | .memWrite a v => Memory.put m a.toNat v
  | .irqSet _ => m
  | .irqClr _ => m

/-- What one effect of a device that owns the bits `own` does to `IRQ_AGG` (R211, R212, R213). -/
def effOnIrq (own agg : Byte) : Eff → Byte
  | .memWrite _ _ => agg
  | .irqSet m => setOwned own agg m
  | .irqClr m => clearOwned own agg m

/-- The effects, in list order, on `MEM`. -/
def effsOnMem (effs : List Eff) (m : Memory) : Memory := effs.foldl effOnMem m

/-- The effects, in list order, on `IRQ_AGG`. -/
def effsOnIrq (own : Byte) (effs : List Eff) (agg : Byte) : Byte := effs.foldl (effOnIrq own) agg

/-- The state after device `d` in slot `i` has answered a request: its new device state is stored, its effects are applied
before anything else happens, and the call is on the handler ports (R120, R158). -/
def settle (s : State) (i : Nat) (d : Device) (req : Request) (ans : Answer) (dst : DState) (effs : List Eff) : State :=
  { s with
    mem := effsOnMem effs s.mem
    irqAgg := effsOnIrq d.irqMask effs s.irqAgg
    devs := s.devs.modify i (fun d' => { d' with dst := dst })
    out := { s.out with calls := s.out.calls ++ [⟨i, req, ans⟩] } }

/-! The search lists (R118), in the order of `DEVS`. Each entry is a slot number with the device as it stands when the list is
formed. -/

/-- The slots of a device list, numbered from `n`. -/
def slotsFrom : Nat → List Device → List (Nat × Device)
  | _, [] => []
  | n, d :: ds => (n, d) :: slotsFrom (n + 1) ds

/-- The slots whose device satisfies `p`. -/
def select (p : Device → Bool) (s : State) : List (Nat × Device) := (slotsFrom 0 s.devs).filter (fun x => p x.2)

/-- A member of `XD1` (R118). -/
def inXd1 (d : Device) : Bool := d.en && d.model.cap.xd1

/-- A member of `CD1` (R118). -/
def inCd1 (d : Device) : Bool := d.en && d.model.cap.cd1

/-- A member of `XD67` (R118). -/
def inXd67 (d : Device) : Bool := d.en && d.model.cap.xd67

/-- A member of `BS` (R118). -/
def inBs (d : Device) : Bool := inCd1 d && d.model.cap.hasBs

/-- A member of `IS` (R118). -/
def inIs (d : Device) : Bool := inCd1 d && d.model.cap.hasIs

/-- `XD1`. -/
def xd1 (s : State) : List (Nat × Device) := select inXd1 s

/-- `CD1`. -/
def cd1 (s : State) : List (Nat × Device) := select inCd1 s

/-- `XD67`. -/
def xd67 (s : State) : List (Nat × Device) := select inXd67 s

/-- `BS`. -/
def bs (s : State) : List (Nat × Device) := select inBs s

/-- `IS`. -/
def irqStatusSlots (s : State) : List (Nat × Device) := select inIs s

/-- The devices with `en[i]` true. -/
def enabledSlots (s : State) : List (Nat × Device) := select Device.en s

/-- Every device of `DEVS`. -/
def allSlots (s : State) : List (Nat × Device) := slotsFrom 0 s.devs

/-! Invocation. -/

/-- Every listed device in order receives a request that has no result (R115, R119, R122). -/
def broadcast (h : Device → Reply Unit) (req : Request) : List (Nat × Device) → State → State
  | [], s => s
  | (i, d) :: xs, s => broadcast h req xs (settle s i d req .unit (h d).dst (h d).effs)

/-- A reply that a suppressed read must not get: the device changed its state or produced an effect (R121). -/
def breaksSuppression {α : Type} (d : Device) (r : Reply α) : Bool := decide (r.dst ≠ d.dst) || !r.effs.isEmpty

/-- A read under the qualifier `nse` meets a device that breaks its duty (R121, U10). -/
def mustRefuse {α : Type} (nse : Bool) (d : Device) (r : Reply α) : Bool := nse && breaksSuppression d r

/-! The frame of an operation. -/

/-- The output ports hold what the current operation drives, nothing of an earlier one. -/
def clearOut (s : State) : State := { s with out := Outputs.empty }

/-- The operation ends with the result `r`. -/
def finish (r : OpResult) (s : State) : State := { s with out := { s.out with result := r } }

/-- The diagnostic hook: when `TRACE_EN`, a report on the trace port and nothing else (R157, log 16). -/
def report (t : TraceItem) (s : State) : State :=
  if s.params.traceEn then { s with out := { s.out with trace := s.out.trace ++ [t] } } else s

/-- Every operation other than `PON` requires `ALIVE` (R27, U9). -/
def whenAlive (s : State) (k : State → StepOutcome) : StepOutcome :=
  if s.alive then k (clearOut s) else .refused .notAlive

/-- `cpu_sel` of the last bus access (R32, R140); `none` when the last operation was no bus access. -/
def cpuSel (s : State) : Option Bool :=
  match s.out.result with
  | .data _ _ => some true
  | .written => some true
  | .noData => some false
  | .ignored => some false
  | .idle => none
  | .snapshot _ => none
  | .ponOk => none
  | .ponFailed => none
  | .done => none

/-- `cpu_rdata` of the last bus access, when it is driven (R32, R154). -/
def cpuRdata (s : State) : Option Byte :=
  match s.out.result with
  | .data v _ => some v
  | .written => none
  | .noData => none
  | .ignored => none
  | .idle => none
  | .snapshot _ => none
  | .ponOk => none
  | .ponFailed => none
  | .done => none

/-- The output `IRQ_LINE` (R216). -/
def irqLine (s : State) : Bool := orReduce s.irqAgg

end Sys2Proof.Machine
end

