-- ==== Sys2Proof/Machine/Aggregator.lean ====
section
/-! DEFINITION. The IRQ aggregator's operations (43_irq_aggregator.md). They do not depend on `en[dev]` (R211, D15). -/

namespace Sys2Proof.Machine

/-- An interrupt request of device `dev`: `f` gives the new aggregate from the owned bits and the old one. A device that is not
in `DEVS` is refused (R84, R93, U16); a decoded word never names one. -/
def irqRequest (dev : BitVec 3) (f : Byte → Byte → Byte) (s : State) : StepOutcome :=
  match s.devs[dev.toNat]? with
  | some d => .next (finish .done { s with irqAgg := f d.irqMask s.irqAgg })
  | none => .refused .noSuchDevice

/-- `IRQ.SET` (R211). -/
def execIrqSet (dev : BitVec 3) (mask : Byte) (s : State) : StepOutcome :=
  whenAlive s fun s => irqRequest dev (fun own agg => setOwned own agg mask) s

/-- `IRQ.CLR` (R212). -/
def execIrqClr (dev : BitVec 3) (mask : Byte) (s : State) : StepOutcome :=
  whenAlive s fun s => irqRequest dev (fun own agg => clearOwned own agg mask) s

end Sys2Proof.Machine
end

