-- ==== Sys2Proof/Machine/Latch.lean ====
section
/-! DEFINITION. The bank-select latch (42_bank_select_latch.md): the offer (R188), the ROM-shadow controller (R187), the write
transition (R185) and the status read (R195, R196). -/

namespace Sys2Proof.Machine

/-- `offer(v)` over the devices of `BS` (R188): the first that answers `Handled` ends the search. -/
def offer (v : Byte) : List (Nat × Device) → State → Claim × State
  | [], s => (.notHandled, s)
  | (i, d) :: xs, s =>
    let r := d.model.bankSelect d.dst v
    let s' := settle s i d (.bankSelect v) (.claim r.ans) r.dst r.effs
    match r.ans with
    | .handled => (.handled, s')
    | .notHandled => offer v xs s'

/-- The bytes `ROM[0x1800..0x1FFF]` (R53). -/
def shadowSource (s : State) : List Byte := (List.range shadowLen).map fun k => romRead s (shadowSrc + k)

/-- `shadow_restore()` (R187): byte `k` of the source goes to byte `k` of the destination (R57), and the flag is set. -/
def shadowRestore (s : State) : State :=
  { s with mem := Memory.putBlock s.mem shadowDst (shadowSource s), romShadow := true }

/-- Step 4 of the transition: nobody took the code (R185). -/
def latchFallback (s : State) : State := if s.romShadow then s else shadowRestore s

/-- Steps 3 and 4 of the transition: store, then offer (R185). -/
def latchAccept (v : Byte) (s : State) : State :=
  let s1 := { s with latch := v }
  match offer v (bs s1) s1 with
  | (.handled, s2) => { s2 with romShadow := false }
  | (.notHandled, s2) => latchFallback s2

/-- `latch_write(v)` (R185): valid-code check, redundant write, store and offer, fallback. -/
def latchWrite (v : Byte) (s : State) : State :=
  if !legal v then report (.invalidLatch v) s
  else if v = s.latch then s
  else latchAccept v s

/-- The OR of the status bytes of the devices of `IS`, every one asked, no early exit (R195). -/
def statusCollect : List (Nat × Device) → Byte → State → Byte × State
  | [], acc, s => (acc, s)
  | (i, d) :: xs, acc, s =>
    let r := d.model.irqStatus d.dst
    statusCollect xs (acc ||| r.ans) (settle s i d .irqStatus (.byte r.ans) r.dst r.effs)

/-- `status_read(nse)` (R195, R196): a suppressed read answers 0x00 and asks no device. -/
def statusRead (nse : Bool) (s : State) : Byte × State :=
  if nse then (0x00, s) else statusCollect (irqStatusSlots s) 0x00 s

end Sys2Proof.Machine
end

