-- ==== Sys2Proof/Machine/BusReads.lean ====
section
/-! DEFINITION. The five reads (R144 to R148) over the arbiter's two searches (R142, R143) and the device-select mux (R154). -/

namespace Sys2Proof.Machine

/-- The exclusive grant of a read (R142): the device's byte is returned verbatim and nothing else happens in the core. -/
def exclusiveRead (w : Window) (a : Addr) (nse : Bool) (x : Nat × Device) (s : State) : StepOutcome :=
  let r := x.2.model.readX x.2.dst w a nse
  if mustRefuse nse x.2 r then .refused .suppressionBroken
  else .next (finish (.data r.ans (.excl x.1)) (settle s x.1 x.2 (.readX w a nse) (.byte r.ans) r.dst r.effs))

/-- The outcome of the cooperative search. -/
inductive CoopResult
  | broken
  | handled (i : Nat) (v : Byte) (s : State)
  | notHandled (s : State)
deriving DecidableEq, Repr

/-- `coop_read(a, nse)` over the devices of `CD1` (R143): the first `Handled` ends the search. -/
def coopRead (a : Addr) (nse : Bool) : List (Nat × Device) → State → CoopResult
  | [], s => .notHandled s
  | (i, d) :: xs, s =>
    let r := d.model.read d.dst .d1 a nse
    if mustRefuse nse d r then .broken
    else
      let s' := settle s i d (.read .d1 a nse) (.tagged r.ans) r.dst r.effs
      match r.ans with
      | .handled v => .handled i v s'
      | .notHandled => coopRead a nse xs s'

/-- The read ends on the open-bus default (R144, R146, R147, R157). -/
def openBusRead (a : Addr) (s : State) : State := finish (.data openBus .openBus) (report (.unclaimedRead a) s)

/-- A D1 read: the first enabled exclusive device, else the cooperative search, else `unclaimed` (R142, R143). -/
def readD1 (a : Addr) (nse : Bool) (unclaimed : State → State) (s : State) : StepOutcome :=
  match xd1 s with
  | x :: _ => exclusiveRead .d1 a nse x s
  | [] =>
    match coopRead a nse (cd1 s) s with
    | .broken => .refused .suppressionBroken
    | .handled i v s' => .next (finish (.data v (.coop i)) s')
    | .notHandled s' => .next (unclaimed s')

/-- A D6 or D7 read: the first enabled exclusive device, else the RAM-backed window, else the open bus (R146, R147). -/
def readD67 (w : Window) (a : Addr) (nse : Bool) (s : State) : StepOutcome :=
  match xd67 s with
  | x :: _ => exclusiveRead w a nse x s
  | [] => if s.ramBacked then .next (finish (.data (memRead s a) .ram) s) else .next (openBusRead a s)

/-- The status combiner as the last source of a read at the latch address (R145, R154). -/
def statusAnswer (nse : Bool) (s : State) : State :=
  let r := statusRead nse s
  finish (.data r.1 .status) r.2

/-- `RD.LATCH` (R145). -/
def execRdLatch (nse : Bool) (s : State) : StepOutcome :=
  whenAlive s fun s => readD1 s.params.latchAddr nse (statusAnswer nse) s

/-- `RD.D1` (R144). -/
def execRdD1 (addr : Addr) (nse : Bool) (s : State) : StepOutcome :=
  whenAlive s fun s => readD1 addr nse (openBusRead addr) s

/-- `RD.D6` (R146). -/
def execRdD6 (addr : Addr) (nse : Bool) (s : State) : StepOutcome :=
  whenAlive s fun s => readD67 .d6 addr nse s

/-- `RD.D7` (R147). -/
def execRdD7 (addr : Addr) (nse : Bool) (s : State) : StepOutcome :=
  whenAlive s fun s => readD67 .d7 addr nse s

/-- `RD.NOSEL` (R148): not selected, no data, nothing invoked. -/
def execRdNosel (_addr : Addr) (_nse : Bool) (s : State) : StepOutcome :=
  whenAlive s fun s => .next (finish .noData s)

end Sys2Proof.Machine
end

