-- ==== Sys2Proof/Machine/BusWrites.lean ====
section
/-! DEFINITION. The five writes (R149 to R153). A write handler has no result, so no device can stop another from receiving
the write (R115, D8). -/

namespace Sys2Proof.Machine

/-- The listed devices receive the write, in order (R115). -/
def deliverWrite (w : Window) (a : Addr) (v : Byte) (xs : List (Nat × Device)) (s : State) : State :=
  broadcast (fun d => d.model.write d.dst w a v) (.write w a v) xs s

/-- A write that no device and no RAM took: a no-op, optionally reported (R149, R151, R157). -/
def unclaimedWrite (a : Addr) (s : State) : State := report (.unclaimedWrite a) s

/-- A write in D1 without an exclusive device: every cooperative device receives it (R149). -/
def cooperativeWrite (a : Addr) (v : Byte) (s : State) : State := deliverWrite .d1 a v (cd1 s) s

/-- A D6 or D7 write: the first enabled exclusive device, else the RAM-backed window, else a no-op (R151, R152). -/
def writeD67 (w : Window) (a : Addr) (v : Byte) (s : State) : State :=
  match xd67 s with
  | x :: _ => deliverWrite w a v [x] s
  | [] => if s.ramBacked then memWrite s a v else unclaimedWrite a s

/-- A D1 write other than at the latch address (R149). -/
def writeD1 (a : Addr) (v : Byte) (s : State) : State :=
  match xd1 s with
  | x :: _ => deliverWrite .d1 a v [x] s
  | [] =>
    match cd1 s with
    | [] => unclaimedWrite a s
    | _ :: _ => cooperativeWrite a v s

/-- A write at the latch address (R150): an enabled exclusive device swallows it; otherwise the cooperative devices receive it
and then the transition runs. -/
def writeLatchAddr (v : Byte) (s : State) : State :=
  match xd1 s with
  | x :: _ => deliverWrite .d1 s.params.latchAddr v [x] s
  | [] => latchWrite v (cooperativeWrite s.params.latchAddr v s)

/-- `WR.LATCH` (R150). -/
def execWrLatch (data : Byte) (s : State) : StepOutcome :=
  whenAlive s fun s => .next (finish .written (writeLatchAddr data s))

/-- `WR.D1` (R149). -/
def execWrD1 (addr : Addr) (data : Byte) (s : State) : StepOutcome :=
  whenAlive s fun s => .next (finish .written (writeD1 addr data s))

/-- `WR.D6` (R151). -/
def execWrD6 (addr : Addr) (data : Byte) (s : State) : StepOutcome :=
  whenAlive s fun s => .next (finish .written (writeD67 .d6 addr data s))

/-- `WR.D7` (R152). -/
def execWrD7 (addr : Addr) (data : Byte) (s : State) : StepOutcome :=
  whenAlive s fun s => .next (finish .written (writeD67 .d7 addr data s))

/-- `WR.NOSEL` (R153): ignored. -/
def execWrNosel (_addr : Addr) (_data : Byte) (s : State) : StepOutcome :=
  whenAlive s fun s => .next (finish .ignored s)

end Sys2Proof.Machine
end

