-- ==== Sys2Proof/Machine/HostPort.lean ====
section
/-! DEFINITION. The host operations of 44_host_operations.md: the snapshot port and the RAM-backed flag. -/

namespace Sys2Proof.Machine

/-- The record `SAVE` emits (R90, R230). -/
def snapshotOf (s : State) : SnapRec := ⟨s.latch, rambWord s.ramBacked, irqWord s.irqAgg⟩

/-- The three registers from a record, directly and not through the latch transition (R231). -/
def restoreFrom (r : SnapRec) (s : State) : State :=
  { s with latch := r.latch, ramBacked := rambFlag r.ramb, irqAgg := irqField r.irq }

/-- `RAMB.SET` (R236). -/
def execRambSet (b : Bool) (s : State) : StepOutcome :=
  whenAlive s fun s => .next (finish .done { s with ramBacked := b })

/-- `SAVE` (R230). -/
def execSave (s : State) : StepOutcome :=
  whenAlive s fun s => .next (finish (.snapshot (snapshotOf s)) s)

/-- `LOAD` (R231), refused outside its precondition (R233, U5, U6, U7). -/
def execLoad (r : SnapRec) (s : State) : StepOutcome :=
  whenAlive s fun s =>
    if !legal r.latch then .refused .recordLatchIllegal
    else if !rambIsBit r.ramb then .refused .recordRambNotBit
    else if !irqFits r.irq then .refused .recordIrqTooWide
    else .next (finish .done (restoreFrom r s))

end Sys2Proof.Machine
end

