-- ==== Sys2Proof/Machine/Lifecycle.lean ====
section
/-! DEFINITION. Machine reset, power-on and teardown (70_reset_and_hazards.md). -/

namespace Sys2Proof.Machine

/-- The `Reset` handlers of the enabled devices, in order (R119, R293). -/
def resetDevices (s : State) : State := broadcast (fun d => d.model.resetHandler d.dst) .reset (enabledSlots s) s

/-- What machine reset does to the latch: a direct store, or the transition when `RESET_VIA_TRANSITION` (R293, R294). The
transition is called regardless of any exclusive D1 device (R294). -/
def resetLatch (s : State) : State :=
  if s.params.resetViaTransition then latchWrite 0x00 s else { s with latch := 0x00 }

/-- `RESET` (R293, R294): the handlers first, then the latch, then the aggregate (R215). -/
def execReset (s : State) : StepOutcome :=
  whenAlive s fun s => .next (finish .done { resetLatch (resetDevices s) with irqAgg := 0 })

/-- `Initialize` of the listed devices in order, up to the first that fails (R290, R291). -/
def initDevices : List (Nat × Device) → State → Bool × State
  | [], s => (true, s)
  | (i, d) :: xs, s =>
    let r := d.model.initHandler d.dst d.args
    let s' := settle s i d (.init d.args) (.flag r.ans) r.dst r.effs
    if r.ans then initDevices xs s' else (false, s')

/-- The OR of `ramw` over the enabled devices (R6, D13). -/
def anyRamw (s : State) : Bool := s.devs.any fun d => d.en && d.model.cap.ramw

/-- The elements that a successful `PON` writes (R290). -/
def powerOnValues (s : State) : State :=
  { s with
    latch := 0x00
    romShadow := true
    ramBacked := ramBackedAtPon s.params (anyRamw s)
    irqAgg := 0
    alive := true }

/-- `PON` (R290). Its failure is a result, and `ALIVE` stays false (R291, R253). -/
def execPon (s : State) : StepOutcome :=
  if s.alive then .refused .alreadyAlive
  else
    match initDevices (allSlots s) (clearOut s) with
    | (true, s') => .next (finish .ponOk (powerOnValues s'))
    | (false, s') => .next (finish .ponFailed s')

/-- `TEARDOWN` (R296): every listed device is shut down. The values the dead core keeps are meaningless (log 17). -/
def execTeardown (s : State) : StepOutcome :=
  whenAlive s fun s =>
    .next (finish .done { broadcast (fun d => d.model.shutdownHandler d.dst) .shutdown (allSlots s) s with alive := false })

end Sys2Proof.Machine
end

