-- ==== Sys2Proof/Machine/Dispatch.lean ====
section
/-! DEFINITION. One arm per operation, each one call of its meaning. -/

namespace Sys2Proof.Machine

def exec (i : Instr) (s : State) : Host.Outcome State Fault Refusal :=
  match i with
  | .rdLatch nse => Sys2Proof.Machine.execRdLatch nse s
  | .rdD1 addr nse => Sys2Proof.Machine.execRdD1 addr nse s
  | .rdD6 addr nse => Sys2Proof.Machine.execRdD6 addr nse s
  | .rdD7 addr nse => Sys2Proof.Machine.execRdD7 addr nse s
  | .rdNosel addr nse => Sys2Proof.Machine.execRdNosel addr nse s
  | .wrLatch data => Sys2Proof.Machine.execWrLatch data s
  | .wrD1 addr data => Sys2Proof.Machine.execWrD1 addr data s
  | .wrD6 addr data => Sys2Proof.Machine.execWrD6 addr data s
  | .wrD7 addr data => Sys2Proof.Machine.execWrD7 addr data s
  | .wrNosel addr data => Sys2Proof.Machine.execWrNosel addr data s
  | .irqSet dev mask => Sys2Proof.Machine.execIrqSet dev mask s
  | .irqClr dev mask => Sys2Proof.Machine.execIrqClr dev mask s
  | .rambSet b => Sys2Proof.Machine.execRambSet b s
  | .save => Sys2Proof.Machine.execSave s
  | .load r => Sys2Proof.Machine.execLoad r s
  | .reset => Sys2Proof.Machine.execReset s
  | .pon => Sys2Proof.Machine.execPon s
  | .teardown => Sys2Proof.Machine.execTeardown s

end Sys2Proof.Machine
end

