-- ==== Sys2Proof/Machine/Run.lean ====
section
/-! DEFINITION. What one step does with the head of the input queue: an event is decoded, held against the rights of the agent
that presents it, and executed; an environment move changes what it names and nothing else; with nothing presented, nothing
happens (R26). -/

namespace Sys2Proof.Machine

/-- An agent presents the word `w` with the record `r` beside it (R86, R93, R270). -/
def presentOp (ag : Agent) (w : EventWord) (r : SnapRec) (s : State) : StepOutcome :=
  match decode s.params s.devs.length w r with
  | .invalid e => .refused (.invalidWord e)
  | .instr i => if ag = i.agent then exec i s else .refused .agentMayNot

/-- The host sets `en[i]` (R111); a slot that does not exist has no enable input. -/
def setEnable (i : Nat) (b : Bool) (s : State) : State :=
  { s with devs := s.devs.modify i (fun d => { d with en := b }) }

/-- Device `i` changes its own state (R123). -/
def moveDevice (i : Nat) (dst : DState) (s : State) : State :=
  { s with devs := s.devs.modify i (fun d => { d with dst := dst }) }

/-- One item of the total order of operations and environment moves. -/
def consume (x : Input) (s : State) : StepOutcome :=
  match x with
  | .op ag w r => presentOp ag w r s
  | .enable i b => .next (setEnable i b s)
  | .deviceMove i dst => .next (moveDevice i dst s)
  | .outsideWrite a v => .next (memWrite s a v)

/-- One step: the head of the queue is taken off and dealt with; an empty queue leaves the machine as it is (log 1). -/
def nextStep (s : State) : StepOutcome :=
  match s.inbox with
  | [] => .next s
  | x :: rest => consume x { s with inbox := rest }

/-- The queue with the word numbered `w` in front, presented by the agent its `kind` belongs to, with a record of zeros beside
it. A reserved kind belongs to no agent; the host then presents it, and it is refused as invalid whoever does. -/
def withWordFirst (w : Nat) (q : List Input) : List Input :=
  .op ((agentOfWord (BitVec.ofNat 40 w)).getD .host) (BitVec.ofNat 40 w) zeroRec :: q

end Sys2Proof.Machine
end

