-- ==== Sys2Proof/Machine/Step.lean ====
section
/-! DEFINITION. The step, and the placing of a word where the next step takes its event from. -/

namespace Sys2Proof.Machine

/-- One step of the machine. -/
def step (s : State) : Host.Outcome State Fault Refusal := nextStep s

/-- The machine with the event word numbered `w` (40 bits, as the opcode table numbers them) presented next (log 1). -/
def State.withFetchWord (s : State) (_nbits w : Nat) : State := { s with inbox := withWordFirst w s.inbox }

end Sys2Proof.Machine
end

