-- ==== Sys2Proof/Safety.lean ====
section
/-! DEFINITION. The terms that claims use: the invariant of every reachable state (R25), the premises the spec puts on the
environment (R25c, R55, R121, R300), what an operation keeps (its frame), and runs of operations. -/

namespace Sys2Proof.Machine

/-! The invariant. -/

/-- The ownership masks of the listed devices are pairwise disjoint (R24, D15). -/
def masksDisjoint : List Device → Bool
  | [] => true
  | d :: ds => ds.all (fun e => decide (d.irqMask &&& e.irqMask = 0)) && masksDisjoint ds

/-- The form of a state: parameters within R51 to R53, at most eight devices with disjoint interrupt masks (R24, R110), both
memories in canonical form. -/
def wellFormedState (s : State) : Bool :=
  s.params.ok && decide (s.devs.length ≤ maxDevices) && masksDisjoint s.devs
  && Memory.wf memSize s.mem && Memory.wf s.params.romSize s.rom

/-- The invariant of every reachable state: its form, and while the core is alive a legal latch code (R25a). The registers of a
dead core are meaningless (R296). -/
def StateInv (s : State) : Prop := wellFormedState s = true ∧ (s.alive = true → legal s.latch = true)

/-! Premises on the environment. -/

/-- The duty of a device under suppression (R121, R300f): a handler invoked with `nse` = 1 leaves the device's state unchanged
and produces no effect. -/
def HonoursSuppression (m : DevModel) : Prop :=
  ∀ (d : DState) (w : Window) (a : Addr),
    ((m.read d w a true).dst = d ∧ (m.read d w a true).effs = [])
    ∧ ((m.readX d w a true).dst = d ∧ (m.readX d w a true).effs = [])

/-- Every device of `DEVS` honours suppression. -/
def AllHonour (s : State) : Prop := ∀ d ∈ s.devs, HonoursSuppression d.model

/-- No two enabled devices hold the same exclusive capability (R25c, R300b). -/
def NoDuplicateClaims (s : State) : Prop := (xd1 s).length ≤ 1 ∧ (xd67 s).length ≤ 1

/-- The built-in ROM stands in the shadow region (R300c). -/
def ShadowShowsRom (s : State) : Prop :=
  ∀ k, k < shadowLen → memRead s (BitVec.ofNat 16 (shadowDst + k)) = romRead s (shadowSrc + k)

/-! Frames. -/

/-- The four register fields, the image, the parameters and what is yet to come are as before. -/
def CoreKept (s t : State) : Prop :=
  t.alive = s.alive ∧ t.latch = s.latch ∧ t.romShadow = s.romShadow ∧ t.ramBacked = s.ramBacked
  ∧ t.rom = s.rom ∧ t.params = s.params ∧ t.inbox = s.inbox

/-- Every byte of `MEM` reads as before, but for addresses that an effect of the list writes. -/
def MemKeptBut (effs : List Eff) (s t : State) : Prop :=
  ∀ a : Addr, (∀ v, Eff.memWrite a v ∉ effs) → memRead t a = memRead s a

/-- Every byte of `MEM` reads as before. -/
def MemKept (s t : State) : Prop := ∀ a : Addr, memRead t a = memRead s a

/-- Every bit of `IRQ_AGG` is as before, but for those that a listed device owns. -/
def IrqKeptBut (ds : List (Nat × Device)) (s t : State) : Prop :=
  ∀ k, (∀ x ∈ ds, x.2.irqMask.getLsbD k = false) → t.irqAgg.getLsbD k = s.irqAgg.getLsbD k

/-- The listed devices have the state `f` gives them and are otherwise as listed; every other slot is as before. -/
def DevsBecome (f : Device → DState) (ds : List (Nat × Device)) (s t : State) : Prop :=
  t.devs.length = s.devs.length
  ∧ (∀ x ∈ ds, t.devs[x.1]? = some { x.2 with dst := f x.2 })
  ∧ (∀ j, (∀ x ∈ ds, x.1 ≠ j) → t.devs[j]? = s.devs[j]?)

/-- What a reply changes: the device's state and the list of effects (R120). -/
def changeOf {α : Type} (r : Reply α) : DState × List Eff := (r.dst, r.effs)

/-- `MEM` after each listed device has replied once, in order, with the effects `f` gives (R120). -/
def memAfter (f : Device → List Eff) (ds : List (Nat × Device)) (m : Memory) : Memory :=
  ds.foldl (fun m x => effsOnMem (f x.2) m) m

/-- `IRQ_AGG` after each listed device has replied once, in order, with the effects `f` gives (R120, R213). -/
def irqAfter (f : Device → List Eff) (ds : List (Nat × Device)) (agg : Byte) : Byte :=
  ds.foldl (fun g x => effsOnIrq x.2.irqMask (f x.2) g) agg

/-- The listed devices have each been called once, in order, and `h` is what each reply changes: their states are the new ones,
the effects have been applied in order (R120), every byte that no effect writes and every interrupt bit that none of them owns
is as before, and so is every other device. -/
def HandlersRan (h : Device → DState × List Eff) (ds : List (Nat × Device)) (s t : State) : Prop :=
  DevsBecome (fun d => (h d).1) ds s t
  ∧ t.mem = memAfter (fun d => (h d).2) ds s.mem
  ∧ t.irqAgg = irqAfter (fun d => (h d).2) ds s.irqAgg
  ∧ MemKeptBut (ds.flatMap fun x => (h x.2).2) s t
  ∧ IrqKeptBut ds s t

/-- The elements up to and including the first that satisfies `p`, or all of them when none does (R188, R291). -/
def upToFirst {α : Type} (p : α → Bool) : List α → List α
  | [] => []
  | x :: xs => if p x then [x] else x :: upToFirst p xs

/-- The devices of `BS` that a transition to the code `v` asks (R185, R188): none for an illegal or the current code, otherwise
those in order up to and including the first that takes the code. `now` is the state each is in when it is asked. -/
def offeredTo (v : Byte) (now : Device → DState) (s : State) : List (Nat × Device) :=
  if legal v = true ∧ v ≠ s.latch then
    upToFirst (fun x => decide ((x.2.model.bankSelect (now x.2) v).ans = .handled)) (bs s)
  else []

/-- What configuration fixes in a device slot (R28a, R300a): everything but the enable input and the device's own state. -/
def fixedPart (d : Device) : DevModel × List Byte × Byte := (d.model, d.args, d.irqMask)

/-! Runs of operations. -/

/-- The operations one after another, up to the first that has no meaning. -/
def runOps : List Instr → State → StepOutcome
  | [], s => .next s
  | i :: is, s =>
    match exec i s with
    | .next t => runOps is t
    | .fault r => .fault r
    | .refused r => .refused r

/-- A suppressed read `RDN` (R80). -/
def isSuppressedRead : Instr → Bool
  | .rdLatch nse => nse
  | .rdD1 _ nse => nse
  | .rdD6 _ nse => nse
  | .rdD7 _ nse => nse
  | .rdNosel _ nse => nse
  | .wrLatch _ => false
  | .wrD1 _ _ => false
  | .wrD6 _ _ => false
  | .wrD7 _ _ => false
  | .wrNosel _ _ => false
  | .irqSet _ _ => false
  | .irqClr _ _ => false
  | .rambSet _ => false
  | .save => false
  | .load _ => false
  | .reset => false
  | .pon => false
  | .teardown => false

/-- A read, suppressed or not (R80). -/
def isRead : Instr → Bool
  | .rdLatch _ => true
  | .rdD1 _ _ => true
  | .rdD6 _ _ => true
  | .rdD7 _ _ => true
  | .rdNosel _ _ => true
  | .wrLatch _ => false
  | .wrD1 _ _ => false
  | .wrD6 _ _ => false
  | .wrD7 _ _ => false
  | .wrNosel _ _ => false
  | .irqSet _ _ => false
  | .irqClr _ _ => false
  | .rambSet _ => false
  | .save => false
  | .load _ => false
  | .reset => false
  | .pon => false
  | .teardown => false

end Sys2Proof.Machine
end

