-- ==== Sys2Proof/Certificates/Slice0/Obligations.lean ====
section
/-! DEFINITION. The statements for the provers. Where a statement is about every state, the premises are the operation's own
conditions; the frame says what stays as it was. -/

open Sys2Proof Sys2Proof.Machine

/-! Encoding. -/

/-- Words written out from R81 to R86 decode to the operations they stand for (vectors V-E-01 to V-E-22 of file 95). -/
def Obligations.StandardWordsDecode : Prop :=
  decode Params.standard 8 0x0800D1FF00 zeroRec = .instr (.rdLatch true)
  ∧ decode Params.standard 8 0x0000D1FE00 zeroRec = .instr (.rdD1 0xD1FE false)
  ∧ decode Params.standard 8 0x0800D6FF00 zeroRec = .instr (.rdD6 0xD6FF true)
  ∧ decode Params.standard 8 0x0000D80000 zeroRec = .instr (.rdNosel 0xD800 false)
  ∧ decode Params.standard 8 0x1000D1FF80 zeroRec = .instr (.wrLatch 0x80)
  ∧ decode Params.standard 8 0x1000D7FF5A zeroRec = .instr (.wrD7 0xD7FF 0x5A)
  ∧ decode Params.standard 8 0x2100000002 zeroRec = .instr (.irqSet 1 0x02)
  ∧ decode Params.standard 8 0x37000000FF zeroRec = .instr (.irqClr 7 0xFF)
  ∧ decode Params.standard 8 0x4000000001 zeroRec = .instr (.rambSet true)
  ∧ decode Params.standard 8 0x6000000000 ⟨0x10, 0, 1⟩ = .instr (.load ⟨0x10, 0, 1⟩)
  ∧ decode Params.standard 8 0x9000000000 zeroRec = .instr .teardown
  ∧ decode Params.standard 2 0x2200000004 zeroRec = .invalid .noSuchDevice

/-- Decoding the encoding of a well-formed operation gives it back, with every operand at every value its encoding admits. -/
def Obligations.DecodeOfEncodeIsTheOperation : Prop :=
  ∀ (p : Params) (nDev : Nat) (i : Instr), p.ok = true → WellFormed p nDev i = true →
    decode p nDev (encode p i).1 (encode p i).2 = .instr i

/-- Each word that decodes is the encoding of what it decodes to, which is well formed; the record enters only as `LOAD`'s. -/
def Obligations.AcceptedWordIsItsEncoding : Prop :=
  ∀ (p : Params) (nDev : Nat) (w : EventWord) (r : SnapRec) (i : Instr), decode p nDev w r = .instr i →
    WellFormed p nDev i = true ∧ encodeWord p i = w ∧ (∀ r', i = .load r' → r' = r)

/-- With the standard parameters and eight devices, the decoder of the fields (R83 to R85) and of the window function (R87)
gives the operation of the first row of the opcode table that matches (R86), for every word. -/
def Obligations.DecoderAgreesWithOpcodeTable : Prop :=
  ∀ (w : EventWord) (r : SnapRec),
    (decode Params.standard 8 w r).instr?.map Instr.mnemonic = tableMnemonic w

/-- With the standard bounds the window of an address is decided by its high byte (R51, R52, R87). -/
def Obligations.StandardWindowsArePages : Prop :=
  ∀ a : Addr, window Params.standard a =
    if a = 0xD1FF then .latchLoc
    else if a.extractLsb' 8 8 = 0xD1 then .d1
    else if a.extractLsb' 8 8 = 0xD6 then .d6
    else if a.extractLsb' 8 8 = 0xD7 then .d7
    else .nosel

/-! The step. -/

/-- When the event presented next decodes to an operation that its agent may cause, the step is `exec` of that operation on the
state with the event taken off the queue. -/
def Obligations.StepRunsDecodedOperation : Prop :=
  ∀ (s : State) (ag : Agent) (w : EventWord) (r : SnapRec) (rest : List Input) (i : Instr),
    s.inbox = .op ag w r :: rest → decode s.params s.devs.length w r = .instr i → i.agent = ag →
    step s = exec i { s with inbox := rest }

/-- The step refuses a word that spells no operation (R93a, U4) and an operation of another agent (R270, D27). -/
def Obligations.StepRefusesInvalidAndForeignEvents : Prop :=
  ∀ (s : State) (ag : Agent) (w : EventWord) (r : SnapRec) (rest : List Input), s.inbox = .op ag w r :: rest →
    (∀ e, decode s.params s.devs.length w r = .invalid e → step s = .refused (.invalidWord e))
    ∧ (∀ i, decode s.params s.devs.length w r = .instr i → i.agent ≠ ag → step s = .refused .agentMayNot)

/-- The model's choice (log 1, log 2): an environment move changes what it names and nothing else, and an empty queue leaves the
machine as it is. -/
def Obligations.StepTakesEnvironmentMoves : Prop :=
  ∀ (s : State) (rest : List Input),
    (s.inbox = [] → step s = .next s)
    ∧ (∀ a v, s.inbox = .outsideWrite a v :: rest → ∃ t, step s = .next t
        ∧ memRead t a = v ∧ (∀ b, b ≠ a → memRead t b = memRead s b)
        ∧ t = { s with inbox := rest, mem := t.mem })
    ∧ (∀ i b, s.inbox = .enable i b :: rest → ∃ t, step s = .next t
        ∧ (∀ j, t.devs[j]? = (s.devs[j]?).map fun d => if i = j then { d with en := b } else d)
        ∧ t = { s with inbox := rest, devs := t.devs })
    ∧ (∀ i q, s.inbox = .deviceMove i q :: rest → ∃ t, step s = .next t
        ∧ (∀ j, t.devs[j]? = (s.devs[j]?).map fun d => if i = j then { d with dst := q } else d)
        ∧ t = { s with inbox := rest, devs := t.devs })

/-! Invariants of every step. -/

/-- The reset state has the values of R31 after `PON` and `RESET`; that it holds eight disabled devices, no listed memory and the
standard parameters is the model's choice (log 10, log 11, log 12). -/
def Obligations.ResetStateHasSpecValues : Prop :=
  State.reset.alive = true ∧ State.reset.latch = 0x00 ∧ State.reset.romShadow = true ∧ State.reset.ramBacked = false
  ∧ State.reset.irqAgg = 0 ∧ irqLine State.reset = false ∧ State.reset.mem = [] ∧ State.reset.rom = []
  ∧ State.reset.params = Params.standard ∧ State.reset.devs.length = 8 ∧ (∀ d ∈ State.reset.devs, d.en = false)

/-- The reset state, with the devices and parameters the model chose for it (log 10, log 11, log 12), meets the invariant. -/
def Obligations.ResetMeetsInvariant : Prop := StateInv State.reset

/-- Every step keeps the invariant: the latch holds a legal code while the core is alive (R25a), both memories keep their
canonical form, the parameters stay within R51 to R53 and the ownership masks stay disjoint. -/
def Obligations.StepKeepsInvariant : Prop :=
  ∀ s t : State, StateInv s → step s = .next t → StateInv t

/-- No step changes the configuration: the parameters, the ROM image, and in every slot the behaviour with its capabilities, the
arguments and the ownership mask; the enable inputs change only by the host's own move (R28, R56, R111). -/
def Obligations.StepKeepsConfiguration : Prop :=
  ∀ s t : State, step s = .next t →
    t.params = s.params ∧ t.rom = s.rom ∧ t.devs.map fixedPart = s.devs.map fixedPart
    ∧ ((∀ i b rest, s.inbox ≠ .enable i b :: rest) → t.devs.map Device.en = s.devs.map Device.en)

/-- While the core is alive, `ROM_SHADOW` changes only in a step that also changes `LATCH`, and that step is a `WR.LATCH`, or a
`RESET` when `RESET_VIA_TRANSITION` is true (R25b). -/
def Obligations.ShadowFlagMovesOnlyWithLatch : Prop :=
  ∀ s t : State, step s = .next t → s.alive = true → t.romShadow ≠ s.romShadow →
    t.latch ≠ s.latch
    ∧ ∃ ag w r rest i, s.inbox = .op ag w r :: rest ∧ decode s.params s.devs.length w r = .instr i
      ∧ ((∃ v, i = .wrLatch v) ∨ (i = .reset ∧ s.params.resetViaTransition = true))

/-- Who writes each register (the table of R20, and R27 for `ALIVE`): every other operation leaves it as it was. `IRQ_AGG` has, beside
its operations, the effects of the handlers that an operation calls. -/
def Obligations.RegistersHaveOnlyTheirWriters : Prop :=
  ∀ (i : Instr) (s t : State), exec i s = .next t →
    (t.latch ≠ s.latch → (∃ v, i = .wrLatch v) ∨ i = .reset ∨ i = .pon ∨ (∃ r, i = .load r))
    ∧ (t.romShadow ≠ s.romShadow →
        (∃ v, i = .wrLatch v) ∨ i = .pon ∨ (i = .reset ∧ s.params.resetViaTransition = true))
    ∧ (t.ramBacked ≠ s.ramBacked → (∃ b, i = .rambSet b) ∨ i = .pon ∨ (∃ r, i = .load r))
    ∧ (t.irqAgg ≠ s.irqAgg → (∃ d m, i = .irqSet d m) ∨ (∃ d m, i = .irqClr d m) ∨ i = .reset ∨ i = .pon
        ∨ (∃ r, i = .load r) ∨ t.out.calls ≠ [])
    ∧ (t.alive ≠ s.alive → i = .pon ∨ i = .teardown)
    ∧ t.rom = s.rom ∧ t.params = s.params ∧ t.inbox = s.inbox

/-- With an enabled exclusive D1 device, no bus access changes `LATCH` or `ROM_SHADOW` (R307, LAW-13). -/
def Obligations.ExclusiveD1DeviceFreezesTheLatch : Prop :=
  ∀ (i : Instr) (s t : State), i.agent = .cpu → xd1 s ≠ [] → exec i s = .next t →
    t.latch = s.latch ∧ t.romShadow = s.romShadow

/-- A bus access, `RAMB.SET`, `SAVE` and `TEARDOWN` change a bit of `IRQ_AGG` only if a device that owns it was called: the core
infers nothing (R214), and a handler moves only its own device's bits (R120, R213). -/
def Obligations.IrqBitsMoveOnlyByTheirOwner : Prop :=
  ∀ (i : Instr) (s t : State) (k : Nat), exec i s = .next t →
    (i.agent = .cpu ∨ (∃ b, i = .rambSet b) ∨ i = .save ∨ i = .teardown) →
    (∀ c ∈ t.out.calls, ∀ d, s.devs[c.dev]? = some d → d.irqMask.getLsbD k = false) →
    t.irqAgg.getLsbD k = s.irqAgg.getLsbD k

/-- Every operation other than `PON` is refused on a core that is not alive, and `PON` on one that is (R27, R290). -/
def Obligations.LifecycleRefusals : Prop :=
  (∀ (i : Instr) (s : State), s.alive = false → i ≠ .pon → exec i s = .refused .notAlive)
  ∧ (∀ s : State, s.alive = true → exec .pon s = .refused .alreadyAlive)

/-! Reads. -/

/-- Each of the five reads completes on a live core whose devices honour suppression, and leaves the registers as they were. The
one stop a read has on a live core is the refusal of a suppressed read whose device breaks its duty (R121, U10). -/
def Obligations.ReadsComplete : Prop :=
  ∀ (i : Instr) (s : State), isRead i = true → s.alive = true →
    ((isSuppressedRead i = true → AllHonour s) → ∃ t, exec i s = .next t ∧ CoreKept s t)
    ∧ ((∃ t, exec i s = .next t) ∨ (isSuppressedRead i = true ∧ exec i s = .refused .suppressionBroken))

/-- `RD.D1` and `RD.LATCH` with an enabled exclusive D1 device (R142, R144, R145): the first one's byte is returned verbatim, it
is the only device called, and only its own effects happen. -/
def Obligations.ExclusiveD1DeviceAnswersTheRead : Prop :=
  ∀ (s : State) (x : Nat × Device) (more : List (Nat × Device)) (i : Instr) (a : Addr) (nse : Bool),
    s.alive = true → xd1 s = x :: more → (nse = true → HonoursSuppression x.2.model) →
    (i = .rdD1 a nse ∨ (i = .rdLatch nse ∧ a = s.params.latchAddr)) →
    ∃ t, exec i s = .next t
      ∧ t.out.result = .data (x.2.model.readX x.2.dst .d1 a nse).ans (.excl x.1)
      ∧ t.out.calls = [⟨x.1, .readX .d1 a nse, .byte (x.2.model.readX x.2.dst .d1 a nse).ans⟩]
      ∧ CoreKept s t ∧ HandlersRan (fun d => changeOf (d.model.readX d.dst .d1 a nse)) [x] s t

/-- `RD.D6` and `RD.D7` with an enabled exclusive D6/D7 device (R142, R146, R147), whatever `RAM_BACKED` is. -/
def Obligations.ExclusiveD67DeviceAnswersTheRead : Prop :=
  ∀ (s : State) (x : Nat × Device) (more : List (Nat × Device)) (i : Instr) (w : Window) (a : Addr) (nse : Bool),
    s.alive = true → xd67 s = x :: more → (nse = true → HonoursSuppression x.2.model) →
    ((i = .rdD6 a nse ∧ w = .d6) ∨ (i = .rdD7 a nse ∧ w = .d7)) →
    ∃ t, exec i s = .next t
      ∧ t.out.result = .data (x.2.model.readX x.2.dst w a nse).ans (.excl x.1)
      ∧ t.out.calls = [⟨x.1, .readX w a nse, .byte (x.2.model.readX x.2.dst w a nse).ans⟩]
      ∧ CoreKept s t ∧ HandlersRan (fun d => changeOf (d.model.readX d.dst w a nse)) [x] s t

/-- The cooperative search (R143): without an exclusive device, the first device of `CD1` that answers `Handled` gives the byte of
`RD.D1` and of `RD.LATCH`; the devices before it have been called, those after it have not. -/
def Obligations.FirstCooperativeAnswerWins : Prop :=
  ∀ (s : State) (pre post : List (Nat × Device)) (x : Nat × Device) (v : Byte) (i : Instr) (a : Addr) (nse : Bool),
    s.alive = true → xd1 s = [] → cd1 s = pre ++ x :: post →
    (∀ y ∈ pre, (y.2.model.read y.2.dst .d1 a nse).ans = .notHandled) →
    (x.2.model.read x.2.dst .d1 a nse).ans = .handled v →
    (nse = true → ∀ y ∈ pre ++ [x], HonoursSuppression y.2.model) →
    (i = .rdD1 a nse ∨ (i = .rdLatch nse ∧ a = s.params.latchAddr)) →
    ∃ t, exec i s = .next t
      ∧ t.out.result = .data v (.coop x.1)
      ∧ t.out.calls = (pre ++ [x]).map
          (fun y => ⟨y.1, .read .d1 a nse, .tagged (y.2.model.read y.2.dst .d1 a nse).ans⟩)
      ∧ CoreKept s t ∧ HandlersRan (fun d => changeOf (d.model.read d.dst .d1 a nse)) (pre ++ [x]) s t

/-- `RD.D1` that nobody handles returns the open-bus value after every cooperative device has been asked (R144, R252). -/
def Obligations.UnhandledD1ReadIsOpenBus : Prop :=
  ∀ (s : State) (a : Addr) (nse : Bool), s.alive = true → xd1 s = [] →
    (∀ y ∈ cd1 s, (y.2.model.read y.2.dst .d1 a nse).ans = .notHandled) →
    (nse = true → ∀ y ∈ cd1 s, HonoursSuppression y.2.model) →
    ∃ t, exec (.rdD1 a nse) s = .next t
      ∧ t.out.result = .data 0xFF .openBus
      ∧ t.out.calls = (cd1 s).map (fun y => ⟨y.1, .read .d1 a nse, .tagged .notHandled⟩)
      ∧ CoreKept s t ∧ HandlersRan (fun d => changeOf (d.model.read d.dst .d1 a nse)) (cd1 s) s t

/-- The open-bus property (R156): with `XD1` and `CD1` empty every `RD.D1` returns 0xFF and `RD.LATCH` returns 0x00; with `XD67`
empty and `RAM_BACKED` false every `RD.D6` and `RD.D7` returns 0xFF; in both modes, and nothing else changes. -/
def Obligations.OpenBusWhereNothingResponds : Prop :=
  ∀ (s : State) (a : Addr) (nse : Bool), s.alive = true →
    (xd1 s = [] → cd1 s = [] →
      (∃ tr, exec (.rdD1 a nse) s = .next { s with out := ⟨.data 0xFF .openBus, [], tr⟩ })
      ∧ exec (.rdLatch nse) s = .next { s with out := ⟨.data 0x00 .status, [], []⟩ })
    ∧ (xd67 s = [] → s.ramBacked = false →
      (∃ tr, exec (.rdD6 a nse) s = .next { s with out := ⟨.data 0xFF .openBus, [], tr⟩ })
      ∧ (∃ tr, exec (.rdD7 a nse) s = .next { s with out := ⟨.data 0xFF .openBus, [], tr⟩ }))

/-- A normal `RD.LATCH` that nobody handles returns the OR of the status bytes of every device of `IS`, each asked once after the
cooperative search (R145, R195). The core itself changes nothing: `MEM` and `IRQ_AGG` are what the effects of the replies, in
order, make of them (R120, R214), and each device ends in the state its own handlers gave it. -/
def Obligations.StatusReadCombinesEveryContribution : Prop :=
  ∀ s : State, s.alive = true → xd1 s = [] →
    (∀ y ∈ cd1 s, (y.2.model.read y.2.dst .d1 s.params.latchAddr false).ans = .notHandled) →
    let searched : Device → Reply Tagged := fun d => d.model.read d.dst .d1 s.params.latchAddr false
    let asked : Device → Reply Byte := fun d => d.model.irqStatus (searched d).dst
    ∃ t, exec (.rdLatch false) s = .next t
      ∧ t.out.result = .data ((irqStatusSlots s).foldl (fun b y => b ||| (asked y.2).ans) 0x00) .status
      ∧ t.out.calls =
          (cd1 s).map (fun y => ⟨y.1, .read .d1 s.params.latchAddr false, .tagged .notHandled⟩)
          ++ (irqStatusSlots s).map (fun y => ⟨y.1, .irqStatus, .byte (asked y.2).ans⟩)
      ∧ CoreKept s t ∧ IrqKeptBut (cd1 s) s t
      ∧ t.mem = memAfter (fun d => (asked d).effs) (irqStatusSlots s) (memAfter (fun d => (searched d).effs) (cd1 s) s.mem)
      ∧ t.irqAgg
          = irqAfter (fun d => (asked d).effs) (irqStatusSlots s) (irqAfter (fun d => (searched d).effs) (cd1 s) s.irqAgg)
      ∧ MemKeptBut ((cd1 s).flatMap (fun y => (searched y.2).effs)
          ++ (irqStatusSlots s).flatMap (fun y => (asked y.2).effs)) s t
      ∧ t.devs.length = s.devs.length
      ∧ (∀ y ∈ irqStatusSlots s, t.devs[y.1]? = some { y.2 with dst := (asked y.2).dst })
      ∧ (∀ y ∈ cd1 s, y ∉ irqStatusSlots s →
          t.devs[y.1]? = some { y.2 with dst := (searched y.2).dst })
      ∧ (∀ j, (∀ y ∈ cd1 s, y.1 ≠ j) → t.devs[j]? = s.devs[j]?)

/-- A suppressed `RD.LATCH` that nobody handles returns 0x00, asks no device for its status and changes nothing (R196). -/
def Obligations.SuppressedStatusReadIsZero : Prop :=
  ∀ s : State, s.alive = true → xd1 s = [] →
    (∀ y ∈ cd1 s, (y.2.model.read y.2.dst .d1 s.params.latchAddr true).ans = .notHandled) →
    (∀ y ∈ cd1 s, HonoursSuppression y.2.model) →
    ∃ o, exec (.rdLatch true) s = .next { s with out := o }
      ∧ o.result = .data 0x00 .status ∧ (∀ c ∈ o.calls, c.req ≠ .irqStatus)

/-- `RD.D6` and `RD.D7` through the RAM-backed window return the byte of `MEM` at the bus address and change nothing
(R146, R147). -/
def Obligations.RamWindowReadReturnsMemory : Prop :=
  ∀ (s : State) (i : Instr) (a : Addr) (nse : Bool), s.alive = true → xd67 s = [] → s.ramBacked = true →
    (i = .rdD6 a nse ∨ i = .rdD7 a nse) →
    exec i s = .next { s with out := ⟨.data (memRead s a) .ram, [], []⟩ }

/-- `RD.NOSEL` gives no data, and nothing changes (R148). -/
def Obligations.ReadOutsideWindowsGivesNoData : Prop :=
  ∀ (s : State) (a : Addr) (nse : Bool), s.alive = true →
    ∃ t, exec (.rdNosel a nse) s = .next t
      ∧ t = { s with out := ⟨.noData, [], []⟩ } ∧ cpuSel t = some false ∧ cpuRdata t = none

/-- A suppressed read completes and changes nothing but the output ports, when the devices honour their duty (R60, R155,
LAW-7). -/
def Obligations.SuppressedReadChangesNothing : Prop :=
  ∀ (i : Instr) (s : State), isSuppressedRead i = true → s.alive = true → AllHonour s →
    ∃ o, exec i s = .next { s with out := o }

/-- Inspection (R60, R271): any number of suppressed reads before a read leave its result and its final state as they would have
been without them. -/
def Obligations.SuppressedReadsBeforeAReadAreInvisible : Prop :=
  ∀ (peeks : List Instr) (rd : Instr) (s : State), s.alive = true → AllHonour s →
    (∀ i ∈ peeks, isSuppressedRead i = true) → isRead rd = true →
    runOps (peeks ++ [rd]) s = exec rd s

/-! Writes. -/

/-- `WR.D1` and `WR.LATCH` with an enabled exclusive D1 device (R142, R149, R150): it receives the write alone, and at the latch
address the latch does not move. -/
def Obligations.ExclusiveD1DeviceTakesTheWrite : Prop :=
  ∀ (s : State) (x : Nat × Device) (more : List (Nat × Device)) (i : Instr) (a : Addr) (v : Byte),
    s.alive = true → xd1 s = x :: more →
    (i = .wrD1 a v ∨ (i = .wrLatch v ∧ a = s.params.latchAddr)) →
    ∃ t, exec i s = .next t ∧ t.out = ⟨.written, [⟨x.1, .write .d1 a v, .unit⟩], []⟩
      ∧ CoreKept s t ∧ HandlersRan (fun d => changeOf (d.model.write d.dst .d1 a v)) [x] s t

/-- `WR.D6` and `WR.D7` with an enabled exclusive D6/D7 device (R142, R151, R152): it receives the write alone and the RAM-backed
window is not touched by the core. -/
def Obligations.ExclusiveD67DeviceTakesTheWrite : Prop :=
  ∀ (s : State) (x : Nat × Device) (more : List (Nat × Device)) (i : Instr) (w : Window) (a : Addr) (v : Byte),
    s.alive = true → xd67 s = x :: more → ((i = .wrD6 a v ∧ w = .d6) ∨ (i = .wrD7 a v ∧ w = .d7)) →
    ∃ t, exec i s = .next t ∧ t.out = ⟨.written, [⟨x.1, .write w a v, .unit⟩], []⟩
      ∧ CoreKept s t ∧ HandlersRan (fun d => changeOf (d.model.write d.dst w a v)) [x] s t

/-- `WR.D1` without an exclusive device reaches every cooperative device, in order, and no other (R149, R115). -/
def Obligations.CooperativeWriteReachesEveryDevice : Prop :=
  ∀ (s : State) (a : Addr) (v : Byte), s.alive = true → xd1 s = [] →
    ∃ t, exec (.wrD1 a v) s = .next t
      ∧ t.out.result = .written ∧ t.out.calls = (cd1 s).map (fun y => ⟨y.1, .write .d1 a v, .unit⟩)
      ∧ CoreKept s t ∧ HandlersRan (fun d => changeOf (d.model.write d.dst .d1 a v)) (cd1 s) s t

/-- A write in a window that nobody takes changes nothing (R149, R151, R152, R252). -/
def Obligations.UnclaimedWriteIsNoOp : Prop :=
  ∀ (s : State) (a : Addr) (v : Byte), s.alive = true →
    (xd1 s = [] → cd1 s = [] → ∃ tr, exec (.wrD1 a v) s = .next { s with out := ⟨.written, [], tr⟩ })
    ∧ (xd67 s = [] → s.ramBacked = false →
      (∃ tr, exec (.wrD6 a v) s = .next { s with out := ⟨.written, [], tr⟩ })
      ∧ (∃ tr, exec (.wrD7 a v) s = .next { s with out := ⟨.written, [], tr⟩ }))

/-- `WR.D6` and `WR.D7` through the RAM-backed window write exactly the byte of `MEM` at the bus address (R151, R152). -/
def Obligations.RamWindowWriteStoresOneByte : Prop :=
  ∀ (s : State) (i : Instr) (a : Addr) (v : Byte), s.alive = true → xd67 s = [] → s.ramBacked = true →
    (i = .wrD6 a v ∨ i = .wrD7 a v) →
    ∃ t, exec i s = .next t ∧ t.out = ⟨.written, [], []⟩
      ∧ memRead t a = v ∧ (∀ b, b ≠ a → memRead t b = memRead s b)
      ∧ CoreKept s t ∧ t.irqAgg = s.irqAgg ∧ t.devs = s.devs

/-- A write through the RAM-backed window followed at once by a read of the same address, in either mode, returns the byte
written (R61, LAW-11). -/
def Obligations.RamWindowWriteThenReadReturnsTheByte : Prop :=
  ∀ (s : State) (wr rd : Instr) (a : Addr) (v : Byte) (nse : Bool),
    s.alive = true → xd67 s = [] → s.ramBacked = true →
    ((wr = .wrD6 a v ∧ rd = .rdD6 a nse) ∨ (wr = .wrD7 a v ∧ rd = .rdD7 a nse)) →
    ∃ u, runOps [wr, rd] s = .next u ∧ cpuRdata u = some v ∧ cpuSel u = some true

/-- `WR.NOSEL` is ignored (R153). -/
def Obligations.WriteOutsideWindowsIsIgnored : Prop :=
  ∀ (s : State) (a : Addr) (v : Byte), s.alive = true →
    ∃ t, exec (.wrNosel a v) s = .next t ∧ t = { s with out := ⟨.ignored, [], []⟩ } ∧ cpuSel t = some false

/-! The bank-select latch. -/

/-- The valid-code checker accepts exactly the bytes with at most one bit set (R88, R102, R186). -/
def Obligations.LegalCodesHaveAtMostOneBit : Prop :=
  ∀ v : Byte, legal v = decide (v &&& (v - 1) = 0)

/-- `WR.LATCH` without an exclusive device, by the table of R189. A device of `BS` takes the code when its `BankSelect` answers
`Handled` in the state its `Write` handler left it in (R150). -/
def Obligations.LatchWriteFollowsTheTable : Prop :=
  ∀ (s : State) (v : Byte), s.alive = true → xd1 s = [] →
    let taken := (bs s).any fun y =>
      decide ((y.2.model.bankSelect (y.2.model.write y.2.dst .d1 s.params.latchAddr v).dst v).ans = .handled)
    ∃ t, exec (.wrLatch v) s = .next t ∧ t.out.result = .written
      ∧ t.alive = s.alive ∧ t.ramBacked = s.ramBacked ∧ t.rom = s.rom ∧ t.params = s.params ∧ t.inbox = s.inbox
      ∧ (legal v = false → t.latch = s.latch ∧ t.romShadow = s.romShadow)
      ∧ (legal v = true → v = s.latch → t.latch = s.latch ∧ t.romShadow = s.romShadow)
      ∧ (legal v = true → v ≠ s.latch → taken = true → t.latch = v ∧ t.romShadow = false)
      ∧ (legal v = true → v ≠ s.latch → taken = false → t.latch = v ∧ t.romShadow = true)

/-- Which handlers `WR.LATCH` invokes without an exclusive device (R150, R188): every cooperative `Write` in order; then, only for
a legal code other than the current one, `BankSelect` on the devices of `BS` in order up to and including the first that takes
the code. Each device ends in the state its own handlers gave it, no other device changes, and `IRQ_AGG` is what the effects of
the replies, in order, make of it (R120, R214). -/
def Obligations.LatchWriteOffersInPriorityOrder : Prop :=
  ∀ (s : State) (v : Byte), s.alive = true → xd1 s = [] →
    let wrote : Device → Reply Unit := fun d => d.model.write d.dst .d1 s.params.latchAddr v
    let banked : Device → Reply Claim := fun d => d.model.bankSelect (wrote d).dst v
    let offered := offeredTo v (fun d => (wrote d).dst) s
    ∃ t, exec (.wrLatch v) s = .next t
      ∧ t.out.calls = (cd1 s).map (fun y => ⟨y.1, .write .d1 s.params.latchAddr v, .unit⟩)
          ++ offered.map (fun y => ⟨y.1, .bankSelect v, .claim (banked y.2).ans⟩)
      ∧ t.devs.length = s.devs.length
      ∧ (∀ y ∈ cd1 s, y ∉ offered → t.devs[y.1]? = some { y.2 with dst := (wrote y.2).dst })
      ∧ (∀ y ∈ offered, t.devs[y.1]? = some { y.2 with dst := (banked y.2).dst })
      ∧ (∀ j, (∀ y ∈ cd1 s, y.1 ≠ j) → t.devs[j]? = s.devs[j]?)
      ∧ t.irqAgg = irqAfter (fun d => (banked d).effs) offered (irqAfter (fun d => (wrote d).effs) (cd1 s) s.irqAgg)

/-- `MEM` across `WR.LATCH` without an exclusive device (R185, R187, LAW-5). The effects of the `Write` and `BankSelect` handlers
that were called reach it in order, the taker's mapping among them (R116, R120). The shadow copy runs after them exactly when
the code is legal and new, nobody takes it and `ROM_SHADOW` is false; it leaves `MEM[0xD800 + k] = ROM[0x1800 + k]` for all
`k < 0x800`. Every byte that neither a called handler's effect nor the copy writes reads as before. -/
def Obligations.ShadowCopyRunsExactlyOnFallback : Prop :=
  ∀ (s : State) (v : Byte), s.alive = true → xd1 s = [] →
    let wrote : Device → Reply Unit := fun d => d.model.write d.dst .d1 s.params.latchAddr v
    let banked : Device → Reply Claim := fun d => d.model.bankSelect (wrote d).dst v
    let offered := offeredTo v (fun d => (wrote d).dst) s
    let taken := (bs s).any fun y => decide ((banked y.2).ans = .handled)
    let copies := legal v = true ∧ v ≠ s.latch ∧ taken = false ∧ s.romShadow = false
    let handled := memAfter (fun d => (banked d).effs) offered (memAfter (fun d => (wrote d).effs) (cd1 s) s.mem)
    ∃ t, exec (.wrLatch v) s = .next t
      ∧ (¬ copies → t.mem = handled)
      ∧ (copies → ∀ k, k < 0x800 → memRead t (BitVec.ofNat 16 (0xD800 + k)) = romRead s (0x1800 + k))
      ∧ (∀ a : Addr, (copies → a.toNat < 0xD800 ∨ 0xE000 ≤ a.toNat) → memRead t a = memRead { s with mem := handled } a)
      ∧ (∀ a : Addr, (copies → a.toNat < 0xD800 ∨ 0xE000 ≤ a.toNat) →
          (∀ y ∈ cd1 s, ∀ b, Eff.memWrite a b ∉ (wrote y.2).effs) →
          (∀ y ∈ offered, ∀ b, Eff.memWrite a b ∉ (banked y.2).effs) →
          memRead t a = memRead s a)

/-- The shadow copy is the byte-by-byte loop of R187: single `MEM` writes, ascending. -/
def Obligations.ShadowCopyIsTheByteLoop : Prop :=
  ∀ s : State, Memory.wf memSize s.mem = true →
    (shadowRestore s).mem
      = (List.range 0x800).foldl (fun m k => Memory.put m (0xD800 + k) (romRead s (0x1800 + k))) s.mem

/-- The transition on an illegal code and on the current code (R190a, R190b): no handler is invoked and nothing changes, but for
an optional report of the illegal code on the trace. -/
def Obligations.RejectedAndRedundantCodesChangeNothing : Prop :=
  ∀ (s : State) (v : Byte),
    (legal v = false → ∃ tr, latchWrite v s = { s with out := { s.out with trace := tr } })
    ∧ (v = s.latch → legal v = true → latchWrite v s = s)

/-! The interrupt aggregator. -/

/-- `IRQ.SET` (R211): the device's own bits of the mask are set, whether or not the device is enabled, and nothing else
changes. -/
def Obligations.IrqSetRaisesOwnBits : Prop :=
  ∀ (s : State) (dev : BitVec 3) (mask : Byte) (d : Device), s.alive = true → s.devs[dev.toNat]? = some d →
    exec (.irqSet dev mask) s
      = .next { s with irqAgg := s.irqAgg ||| (mask &&& d.irqMask), out := ⟨.done, [], []⟩ }

/-- `IRQ.CLR` (R212): the device's own bits of the mask are cleared, and nothing else changes. -/
def Obligations.IrqClrWithdrawsOwnBits : Prop :=
  ∀ (s : State) (dev : BitVec 3) (mask : Byte) (d : Device), s.alive = true → s.devs[dev.toNat]? = some d →
    exec (.irqClr dev mask) s
      = .next { s with irqAgg := s.irqAgg &&& ~~~(mask &&& d.irqMask), out := ⟨.done, [], []⟩ }

/-- An interrupt request of a device that is not in `DEVS` is refused (R93a, U16). -/
def Obligations.IrqRequestOfAbsentDeviceIsRefused : Prop :=
  ∀ (s : State) (dev : BitVec 3) (mask : Byte), s.alive = true → s.devs.length ≤ dev.toNat →
    exec (.irqSet dev mask) s = .refused .noSuchDevice ∧ exec (.irqClr dev mask) s = .refused .noSuchDevice

/-- `IRQ_LINE` is 1 exactly while at least one bit of `IRQ_AGG` is set (R216). -/
def Obligations.IrqLineIsAnyBitSet : Prop :=
  ∀ s : State, irqLine s = true ↔ s.irqAgg ≠ 0

/-- Requests of different devices with disjoint ownership masks commute (R219b). -/
def Obligations.IrqRequestsOfDifferentDevicesCommute : Prop :=
  ∀ (s : State) (d e : BitVec 3) (m n : Byte) (x y : Device), s.alive = true →
    s.devs[d.toNat]? = some x → s.devs[e.toNat]? = some y → x.irqMask &&& y.irqMask = 0 →
    runOps [.irqSet d m, .irqClr e n] s = runOps [.irqClr e n, .irqSet d m] s
    ∧ runOps [.irqSet d m, .irqSet e n] s = runOps [.irqSet e n, .irqSet d m] s
    ∧ runOps [.irqClr d m, .irqClr e n] s = runOps [.irqClr e n, .irqClr d m] s
    ∧ ∃ t, runOps [.irqSet d m, .irqClr e n] s = .next t

/-- Two sets of one device are one set of both masks (R219a), and a set followed by a clear of the same mask leaves the owned bits
of the mask clear and every other bit as before (R219c). -/
def Obligations.IrqRequestsOfOneDeviceCombine : Prop :=
  ∀ (s : State) (d : BitVec 3) (m n : Byte) (x : Device), s.alive = true → s.devs[d.toNat]? = some x →
    runOps [.irqSet d m, .irqSet d n] s = runOps [.irqSet d (m ||| n)] s
    ∧ ∃ t, runOps [.irqSet d m, .irqClr d m] s = .next t
      ∧ ∀ k, t.irqAgg.getLsbD k = (s.irqAgg.getLsbD k && !(m &&& x.irqMask).getLsbD k)

/-! Host operations. -/

/-- `RAMB.SET` (R236): the flag is written and nothing else changes. -/
def Obligations.RambSetWritesTheFlag : Prop :=
  ∀ (s : State) (b : Bool), s.alive = true →
    exec (.rambSet b) s = .next { s with ramBacked := b, out := ⟨.done, [], []⟩ }

/-- `SAVE` (R230): the record holds the latch, the RAM-backed flag as 0 or 1 and the zero-extended aggregate; nothing changes. -/
def Obligations.SaveEmitsTheThreeFields : Prop :=
  ∀ s : State, s.alive = true →
    exec .save s = .next { s with
      out := ⟨.snapshot ⟨s.latch, if s.ramBacked then 1 else 0, s.irqAgg.setWidth 32⟩, [], []⟩ }

/-- `LOAD` (R231) of a record within the precondition (R233): the three registers are written directly and nothing else
changes. -/
def Obligations.LoadRestoresTheThreeFields : Prop :=
  ∀ (s : State) (r : SnapRec), s.alive = true →
    legal r.latch = true → (r.ramb = 0 ∨ r.ramb = 1) → r.irq.toNat < 256 →
    exec (.load r) s = .next { s with
      latch := r.latch, ramBacked := decide (r.ramb = 1), irqAgg := r.irq.setWidth 8, out := ⟨.done, [], []⟩ }

/-- `LOAD` of a record that breaks the precondition is refused (R233, U5, U6, U7). -/
def Obligations.LoadRefusesForeignRecords : Prop :=
  ∀ (s : State) (r : SnapRec), s.alive = true →
    (legal r.latch = false ∨ (r.ramb ≠ 0 ∧ r.ramb ≠ 1) ∨ 256 ≤ r.irq.toNat) →
    ∃ e, exec (.load r) s = .refused e

/-- Snapshot round trip (R232): the record that `SAVE` gives is within the precondition of `LOAD`, and `LOAD` of it in any live
state gives that state with the three saved registers; in the saved state itself it changes nothing but the output ports. -/
def Obligations.SnapshotRoundTrip : Prop :=
  ∀ s : State, s.alive = true → legal s.latch = true →
    ∃ t r, exec .save s = .next t ∧ t.out.result = .snapshot r
      ∧ r.loadable = true
      ∧ (∀ u : State, u.alive = true → ∃ u', exec (.load r) u = .next u'
          ∧ u' = { u with latch := s.latch, ramBacked := s.ramBacked, irqAgg := s.irqAgg, out := u'.out })
      ∧ ∃ o, exec (.load r) s = .next { s with out := o }

/-- `LOAD` of a record within the precondition, then `SAVE`, gives the record back (R232, LAW-8). -/
def Obligations.LoadThenSaveGivesTheRecord : Prop :=
  ∀ (s : State) (r : SnapRec), s.alive = true → r.loadable = true →
    ∃ t, runOps [.load r, .save] s = .next t ∧ t.out.result = .snapshot r

/-! Lifecycle. -/

/-- `PON` when every device initialises (R290, R31): the five elements have their power-on values, every device of `DEVS` was
initialised in order, and the core itself leaves `MEM` alone. The model's choice (log 22): the effects of the `Initialize` handlers
on `MEM` are applied, in order. -/
def Obligations.PonGivesPowerOnValues : Prop :=
  ∀ s : State, s.alive = false →
    (∀ y ∈ allSlots s, (y.2.model.initHandler y.2.dst y.2.args).ans = true) →
    ∃ t, exec .pon s = .next t
      ∧ t.out = ⟨.ponOk, (allSlots s).map (fun y => ⟨y.1, .init y.2.args, .flag true⟩), []⟩
      ∧ t.alive = true ∧ t.latch = 0x00 ∧ t.romShadow = true ∧ t.irqAgg = 0 ∧ irqLine t = false
      ∧ t.ramBacked = s.params.ramBackedPon.getD (s.devs.any fun d => d.en && d.model.cap.ramw)
      ∧ t.rom = s.rom ∧ t.params = s.params ∧ t.inbox = s.inbox
      ∧ DevsBecome (fun d => (d.model.initHandler d.dst d.args).dst) (allSlots s) s t
      ∧ t.mem = memAfter (fun d => (d.model.initHandler d.dst d.args).effs) (allSlots s) s.mem
      ∧ MemKeptBut ((allSlots s).flatMap fun y => (y.2.model.initHandler y.2.dst y.2.args).effs) s t

/-- `PON` fails at the first device whose `Initialize` returns false (R291, R253): `ALIVE` stays false and the later devices are
not initialised. The model's choice (log 22), where R291 says that the document does not tell: the devices called, the failing
one among them, keep the states `Initialize` gave them, none is shut down, and their effects on `MEM`, applied in order, stay. -/
def Obligations.PonFailsAtTheFirstBadDevice : Prop :=
  ∀ (s : State) (pre post : List (Nat × Device)) (x : Nat × Device), s.alive = false →
    allSlots s = pre ++ x :: post →
    (∀ y ∈ pre, (y.2.model.initHandler y.2.dst y.2.args).ans = true) →
    (x.2.model.initHandler x.2.dst x.2.args).ans = false →
    ∃ t, exec .pon s = .next t ∧ t.alive = false ∧ t.out.result = .ponFailed
      ∧ t.rom = s.rom ∧ t.params = s.params ∧ t.inbox = s.inbox
      ∧ t.out.calls = (pre ++ [x]).map
          (fun y => ⟨y.1, .init y.2.args, .flag (y.2.model.initHandler y.2.dst y.2.args).ans⟩)
      ∧ DevsBecome (fun d => (d.model.initHandler d.dst d.args).dst) (pre ++ [x]) s t
      ∧ t.mem = memAfter (fun d => (d.model.initHandler d.dst d.args).effs) (pre ++ [x]) s.mem
      ∧ MemKeptBut ((pre ++ [x]).flatMap fun y => (y.2.model.initHandler y.2.dst y.2.args).effs) s t

/-- `RESET` with the default parameter (R293, R215): every enabled device's `Reset` runs in order, then `LATCH` and `IRQ_AGG` are
cleared; the flags and `ALIVE` are as before, `MEM` is what the effects of the `Reset` handlers, in order, make of it (R119, R120),
and no `BankSelect` runs. -/
def Obligations.ResetClearsLatchAndAggregate : Prop :=
  ∀ s : State, s.alive = true → s.params.resetViaTransition = false →
    ∃ t, exec .reset s = .next t
      ∧ t.out = ⟨.done, (enabledSlots s).map (fun y => ⟨y.1, .reset, .unit⟩), []⟩
      ∧ t.latch = 0x00 ∧ t.irqAgg = 0 ∧ irqLine t = false
      ∧ t.alive = s.alive ∧ t.romShadow = s.romShadow ∧ t.ramBacked = s.ramBacked
      ∧ t.rom = s.rom ∧ t.params = s.params ∧ t.inbox = s.inbox
      ∧ DevsBecome (fun d => (d.model.resetHandler d.dst).dst) (enabledSlots s) s t
      ∧ t.mem = memAfter (fun d => (d.model.resetHandler d.dst).effs) (enabledSlots s) s.mem
      ∧ MemKeptBut ((enabledSlots s).flatMap fun y => (y.2.model.resetHandler y.2.dst).effs) s t

/-- `RESET` with `RESET_VIA_TRANSITION` (R294): every enabled device's `Reset` runs in order, whatever `LATCH` is; then the latch
goes to 0x00 through the transition, whatever exclusive device is enabled, so that 0x00 is offered, only when it is new, to the
devices of `BS` up to and including the first that takes it. The flag and the copy follow the transition, and `MEM` and the
devices change only by the called handlers and the copy. -/
def Obligations.ResetThroughTheTransition : Prop :=
  ∀ s : State, s.alive = true → s.params.resetViaTransition = true →
    let wasReset : Device → Reply Unit := fun d => d.model.resetHandler d.dst
    let banked : Device → Reply Claim := fun d => d.model.bankSelect (wasReset d).dst 0x00
    let offered := offeredTo 0x00 (fun d => (wasReset d).dst) s
    let taken := (bs s).any fun y => decide ((banked y.2).ans = .handled)
    let copies := s.latch ≠ 0x00 ∧ taken = false ∧ s.romShadow = false
    let handled := memAfter (fun d => (banked d).effs) offered (memAfter (fun d => (wasReset d).effs) (enabledSlots s) s.mem)
    ∃ t, exec .reset s = .next t
      ∧ t.out = ⟨.done, (enabledSlots s).map (fun y => ⟨y.1, .reset, .unit⟩)
          ++ offered.map (fun y => ⟨y.1, .bankSelect 0x00, .claim (banked y.2).ans⟩), []⟩
      ∧ t.latch = 0x00 ∧ t.irqAgg = 0 ∧ t.alive = s.alive ∧ t.ramBacked = s.ramBacked
      ∧ t.rom = s.rom ∧ t.params = s.params ∧ t.inbox = s.inbox
      ∧ t.devs.length = s.devs.length
      ∧ (∀ y ∈ enabledSlots s, y ∉ offered → t.devs[y.1]? = some { y.2 with dst := (wasReset y.2).dst })
      ∧ (∀ y ∈ offered, t.devs[y.1]? = some { y.2 with dst := (banked y.2).dst })
      ∧ (∀ j, (∀ y ∈ enabledSlots s, y.1 ≠ j) → t.devs[j]? = s.devs[j]?)
      ∧ (s.latch = 0x00 → t.romShadow = s.romShadow)
      ∧ (s.latch ≠ 0x00 → taken = true → t.romShadow = false)
      ∧ (s.latch ≠ 0x00 → taken = false → t.romShadow = true)
      ∧ (¬ copies → t.mem = handled)
      ∧ (copies → ∀ k, k < 0x800 → memRead t (BitVec.ofNat 16 (0xD800 + k)) = romRead s (0x1800 + k))
      ∧ (∀ a : Addr, (copies → a.toNat < 0xD800 ∨ 0xE000 ≤ a.toNat) → memRead t a = memRead { s with mem := handled } a)
      ∧ (∀ a : Addr, (copies → a.toNat < 0xD800 ∨ 0xE000 ≤ a.toNat) →
          (∀ y ∈ enabledSlots s, ∀ b, Eff.memWrite a b ∉ (wasReset y.2).effs) →
          (∀ y ∈ offered, ∀ b, Eff.memWrite a b ∉ (banked y.2).effs) →
          memRead t a = memRead s a)

/-- The reset hazard (R301): after a default `RESET` with a device bank mapped, writing 0x00 to the latch is redundant; no device
is offered the code, `ROM_SHADOW` stays false, and nothing is restored: every byte that no effect of a `Reset` handler or of a
`Write` handler writes, of the shadow region too, reads as before. -/
def Obligations.ResetHazardLeavesTheBankMapped : Prop :=
  ∀ s : State, s.alive = true → s.params.resetViaTransition = false → xd1 s = [] → s.romShadow = false →
    let wasReset : Device → Reply Unit := fun d => d.model.resetHandler d.dst
    ∃ t, runOps [.reset, .wrLatch 0x00] s = .next t ∧ t.latch = 0x00 ∧ t.romShadow = false
      ∧ (∀ c ∈ t.out.calls, ∀ v, c.req ≠ .bankSelect v)
      ∧ (∀ a : Addr,
          (∀ y ∈ enabledSlots s, ∀ b, Eff.memWrite a b ∉ (wasReset y.2).effs) →
          (∀ y ∈ cd1 s, ∀ b,
            Eff.memWrite a b ∉ (y.2.model.write (wasReset y.2).dst .d1 s.params.latchAddr 0x00).effs) →
          memRead t a = memRead s a)

/-- `TEARDOWN` (R296): every device of `DEVS` is shut down in order and the core is no longer alive. The model's choice: the effects
of `Shutdown` handlers are applied as R120 has it for every handler (log 22), and `IRQ_AGG`, which R296 calls meaningless after
this, keeps the value they give it (log 17). -/
def Obligations.TeardownEndsTheCore : Prop :=
  ∀ s : State, s.alive = true →
    ∃ t, exec .teardown s = .next t
      ∧ t.out = ⟨.done, (allSlots s).map (fun y => ⟨y.1, .shutdown, .unit⟩), []⟩
      ∧ t.alive = false ∧ t.rom = s.rom ∧ t.params = s.params ∧ t.inbox = s.inbox
      ∧ HandlersRan (fun d => changeOf (d.model.shutdownHandler d.dst)) (allSlots s) s t
end

