-- ==== Sys2Proof/Laws/PerInstr.lean ====
section
/-! SUPPORT. A fact about each operation as syntax: the word that encodes it is of a kind that belongs to the agent that may
cause it (R80, R82, R270), so an agent's port and an event's `kind` never contradict each other. -/

namespace Sys2Proof.Laws.EncodedAgent

/-- The word of the operation belongs to the operation's agent. -/
def Statement (i : Instr) : Prop := ∀ p : Params, agentOfWord (encodeWord p i) = some i.agent

/-- The `kind` of an assembled word. -/
theorem ewKind_mkWord (k : BitVec 4) (nse : Bool) (dev : BitVec 3) (pl : BitVec 32) :
    ewKind (mkWord k nse dev pl) = k := by
  apply BitVec.eq_of_getLsbD_eq
  intro j hj
  simp only [ewKind, mkWord, BitVec.getLsbD_extractLsb', BitVec.getLsbD_append]
  have h1 : ¬ 36 + j < 32 := by omega
  have h2 : ¬ 36 + j - 32 < 3 := by omega
  have h3 : ¬ 36 + j - 32 - 3 < 1 := by omega
  have h4 : 36 + j - 32 - 3 - 1 = j := by omega
  simp [hj, h1, h2, h3, h4]

/-- The `dev` field of an assembled word. -/
theorem ewDev_mkWord (k : BitVec 4) (nse : Bool) (dev : BitVec 3) (pl : BitVec 32) :
    ewDev (mkWord k nse dev pl) = dev := by
  apply BitVec.eq_of_getLsbD_eq
  intro j hj
  simp only [ewDev, mkWord, BitVec.getLsbD_extractLsb', BitVec.getLsbD_append]
  have h1 : ¬ 32 + j < 32 := by omega
  simp [hj, h1]

theorem rdLatch (nse : Bool) : Statement (.rdLatch nse) := fun p => by
  simp [agentOfWord, encodeWord, ewKind_mkWord, Instr.agent]
theorem rdD1 (a : Addr) (nse : Bool) : Statement (.rdD1 a nse) := fun p => by
  simp [agentOfWord, encodeWord, ewKind_mkWord, Instr.agent]
theorem rdD6 (a : Addr) (nse : Bool) : Statement (.rdD6 a nse) := fun p => by
  simp [agentOfWord, encodeWord, ewKind_mkWord, Instr.agent]
theorem rdD7 (a : Addr) (nse : Bool) : Statement (.rdD7 a nse) := fun p => by
  simp [agentOfWord, encodeWord, ewKind_mkWord, Instr.agent]
theorem rdNosel (a : Addr) (nse : Bool) : Statement (.rdNosel a nse) := fun p => by
  simp [agentOfWord, encodeWord, ewKind_mkWord, Instr.agent]
theorem wrLatch (v : Byte) : Statement (.wrLatch v) := fun p => by
  simp [agentOfWord, encodeWord, ewKind_mkWord, Instr.agent]
theorem wrD1 (a : Addr) (v : Byte) : Statement (.wrD1 a v) := fun p => by
  simp [agentOfWord, encodeWord, ewKind_mkWord, Instr.agent]
theorem wrD6 (a : Addr) (v : Byte) : Statement (.wrD6 a v) := fun p => by
  simp [agentOfWord, encodeWord, ewKind_mkWord, Instr.agent]
theorem wrD7 (a : Addr) (v : Byte) : Statement (.wrD7 a v) := fun p => by
  simp [agentOfWord, encodeWord, ewKind_mkWord, Instr.agent]
theorem wrNosel (a : Addr) (v : Byte) : Statement (.wrNosel a v) := fun p => by
  simp [agentOfWord, encodeWord, ewKind_mkWord, Instr.agent]
theorem irqSet (d : BitVec 3) (m : Byte) : Statement (.irqSet d m) := fun p => by
  simp [agentOfWord, encodeWord, ewKind_mkWord, ewDev_mkWord, Instr.agent]
theorem irqClr (d : BitVec 3) (m : Byte) : Statement (.irqClr d m) := fun p => by
  simp [agentOfWord, encodeWord, ewKind_mkWord, ewDev_mkWord, Instr.agent]
theorem rambSet (b : Bool) : Statement (.rambSet b) := fun p => by
  simp [agentOfWord, encodeWord, ewKind_mkWord, Instr.agent]
theorem save : Statement .save := fun p => by simp [agentOfWord, encodeWord, ewKind_mkWord, Instr.agent]
theorem load (r : SnapRec) : Statement (.load r) := fun p => by
  simp [agentOfWord, encodeWord, ewKind_mkWord, Instr.agent]
theorem reset : Statement .reset := fun p => by simp [agentOfWord, encodeWord, ewKind_mkWord, Instr.agent]
theorem pon : Statement .pon := fun p => by simp [agentOfWord, encodeWord, ewKind_mkWord, Instr.agent]
theorem teardown : Statement .teardown := fun p => by simp [agentOfWord, encodeWord, ewKind_mkWord, Instr.agent]

end Sys2Proof.Laws.EncodedAgent
end

