-- ==== Sys2Proof/Laws/Encoding.lean ====
section
/-! SUPPORT. The fields of an assembled event word, and the word assembled from its fields (R81 to R85). -/

namespace Sys2Proof

open Sys2Proof.Laws.EncodedAgent (ewKind_mkWord ewDev_mkWord)

@[simp] theorem kind_mkWord (k : BitVec 4) (nse : Bool) (dev : BitVec 3) (pl : BitVec 32) :
    ewKind (mkWord k nse dev pl) = k := ewKind_mkWord k nse dev pl

@[simp] theorem dev_mkWord (k : BitVec 4) (nse : Bool) (dev : BitVec 3) (pl : BitVec 32) :
    ewDev (mkWord k nse dev pl) = dev := ewDev_mkWord k nse dev pl

@[simp] theorem nse_mkWord (k : BitVec 4) (nse : Bool) (dev : BitVec 3) (pl : BitVec 32) :
    ewNse (mkWord k nse dev pl) = nse := by
  simp only [ewNse, mkWord, BitVec.getLsbD_append]
  simp

/-- A field inside the payload is the payload's field. -/
theorem extract_mkWord (k : BitVec 4) (nse : Bool) (dev : BitVec 3) (pl : BitVec 32) (lo len : Nat)
    (h : lo + len ≤ 32) : (mkWord k nse dev pl).extractLsb' lo len = pl.extractLsb' lo len := by
  apply BitVec.eq_of_getLsbD_eq
  intro j hj
  have h1 : lo + j < 32 := by omega
  simp only [mkWord, BitVec.getLsbD_extractLsb', BitVec.getLsbD_append]
  simp [hj, h1]

@[simp] theorem payload_mkWord (k : BitVec 4) (nse : Bool) (dev : BitVec 3) (pl : BitVec 32) :
    ewPayload (mkWord k nse dev pl) = pl := by
  rw [ewPayload, extract_mkWord _ _ _ _ _ _ (by omega)]
  simp

@[simp] theorem pad_busWord (k : BitVec 4) (nse : Bool) (dev : BitVec 3) (a : Addr) (v : Byte) :
    ewPad (mkWord k nse dev (busPayload a v)) = 0 := by
  rw [ewPad, extract_mkWord _ _ _ _ _ _ (by omega)]
  apply BitVec.eq_of_getLsbD_eq
  intro j hj
  have h1 : ¬ 24 + j < 8 := by omega
  have h2 : ¬ 24 + j - 8 < 16 := by omega
  simp only [busPayload, BitVec.getLsbD_extractLsb', BitVec.getLsbD_append]
  simp [hj, h1, h2]

@[simp] theorem addr_busWord (k : BitVec 4) (nse : Bool) (dev : BitVec 3) (a : Addr) (v : Byte) :
    ewAddr (mkWord k nse dev (busPayload a v)) = a := by
  rw [ewAddr, extract_mkWord _ _ _ _ _ _ (by omega)]
  apply BitVec.eq_of_getLsbD_eq
  intro j hj
  have h1 : ¬ 8 + j < 8 := by omega
  have h3 : 8 + j - 8 = j := by omega
  simp only [busPayload, BitVec.getLsbD_extractLsb', BitVec.getLsbD_append]
  simp [hj, h1, h3]

@[simp] theorem data_busWord (k : BitVec 4) (nse : Bool) (dev : BitVec 3) (a : Addr) (v : Byte) :
    ewData (mkWord k nse dev (busPayload a v)) = v := by
  rw [ewData, extract_mkWord _ _ _ _ _ _ (by omega)]
  apply BitVec.eq_of_getLsbD_eq
  intro j hj
  simp only [busPayload, BitVec.getLsbD_extractLsb', BitVec.getLsbD_append]
  simp [hj]

@[simp] theorem maskHigh_irqWord (k : BitVec 4) (nse : Bool) (dev : BitVec 3) (m : Byte) :
    ewMaskHigh (mkWord k nse dev (0#24 ++ m)) = 0 := by
  rw [ewMaskHigh, extract_mkWord _ _ _ _ _ _ (by omega)]
  apply BitVec.eq_of_getLsbD_eq
  intro j hj
  have h1 : ¬ 8 + j < 8 := by omega
  simp only [BitVec.getLsbD_extractLsb', BitVec.getLsbD_append]
  simp [hj, h1]

@[simp] theorem data_irqWord (k : BitVec 4) (nse : Bool) (dev : BitVec 3) (m : Byte) :
    ewData (mkWord k nse dev (0#24 ++ m)) = m := by
  rw [ewData, extract_mkWord _ _ _ _ _ _ (by omega)]
  apply BitVec.eq_of_getLsbD_eq
  intro j hj
  simp only [BitVec.getLsbD_extractLsb', BitVec.getLsbD_append]
  simp [hj]

@[simp] theorem flagHigh_rambWord (k : BitVec 4) (nse : Bool) (dev : BitVec 3) (b : Bool) :
    ewFlagHigh (mkWord k nse dev (0#31 ++ BitVec.ofBool b)) = 0 := by
  rw [ewFlagHigh, extract_mkWord _ _ _ _ _ _ (by omega)]
  apply BitVec.eq_of_getLsbD_eq
  intro j hj
  have h1 : ¬ 1 + j < 1 := by omega
  simp only [BitVec.getLsbD_extractLsb', BitVec.getLsbD_append]
  simp [hj]

theorem flag_rambWord (k : BitVec 4) (nse : Bool) (dev : BitVec 3) (b : Bool) :
    (mkWord k nse dev (0#31 ++ BitVec.ofBool b)).getLsbD 0 = b := by
  simp only [mkWord, BitVec.getLsbD_append]
  simp

/-- A word is what its four fields assemble to (R81). -/
theorem mkWord_fields (w : EventWord) : mkWord (ewKind w) (ewNse w) (ewDev w) (ewPayload w) = w := by
  apply BitVec.eq_of_getLsbD_eq
  intro j hj
  simp only [mkWord, ewKind, ewNse, ewDev, ewPayload, BitVec.getLsbD_append, BitVec.getLsbD_extractLsb']
  by_cases h1 : j < 32
  · simp [h1]
  · by_cases h2 : j - 32 < 3
    · have e : 32 + (j - 32) = j := by omega
      simp [h1, h2, e]
    · by_cases h3 : j - 32 - 3 < 1
      · have e : j = 35 := by omega
        subst e
        simp
      · have h4 : j - 32 - 3 - 1 < 4 := by omega
        have e : 36 + (j - 32 - 3 - 1) = j := by omega
        simp [h1, h2, h3, h4, e]

/-- The payload of a bus access is what its three fields assemble to (R83). -/
theorem busPayload_fields (w : EventWord) (h : ewPad w = 0) : ewPayload w = busPayload (ewAddr w) (ewData w) := by
  apply BitVec.eq_of_getLsbD_eq
  intro j hj
  have hp : ∀ k, (ewPad w).getLsbD k = false := by simp [h]
  simp only [busPayload, ewPayload, ewAddr, ewData, BitVec.getLsbD_append, BitVec.getLsbD_extractLsb']
  by_cases h1 : j < 8
  · simp [h1, hj]
  · by_cases h2 : j - 8 < 16
    · have e : 8 + (j - 8) = j := by omega
      simp [h1, h2, hj, e]
    · have h3 := hp (j - 24)
      have h4 : j - 24 < 8 := by omega
      have e : 24 + (j - 24) = j := by omega
      simp only [ewPad, BitVec.getLsbD_extractLsb', h4, e, decide_true, Bool.true_and] at h3
      simp [h1, h2, hj, h3]

/-- The payload of an interrupt request is its mask, zero-extended (R84). -/
theorem irqPayload_fields (w : EventWord) (h : ewMaskHigh w = 0) : ewPayload w = (0 : BitVec 24) ++ ewData w := by
  apply BitVec.eq_of_getLsbD_eq
  intro j hj
  have hp : ∀ k, (ewMaskHigh w).getLsbD k = false := by simp [h]
  simp only [ewPayload, ewData, BitVec.getLsbD_append, BitVec.getLsbD_extractLsb']
  by_cases h1 : j < 8
  · simp [h1, hj]
  · have h3 := hp (j - 8)
    have h4 : j - 8 < 24 := by omega
    have e : 8 + (j - 8) = j := by omega
    simp only [ewMaskHigh, BitVec.getLsbD_extractLsb', h4, e, decide_true, Bool.true_and] at h3
    simp [h1, hj, h3]

/-- The payload of `RAMB.SET` is its flag, zero-extended (R85). -/
theorem rambPayload_fields (w : EventWord) (h : ewFlagHigh w = 0) :
    ewPayload w = (0 : BitVec 31) ++ BitVec.ofBool (w.getLsbD 0) := by
  apply BitVec.eq_of_getLsbD_eq
  intro j hj
  have hp : ∀ k, (ewFlagHigh w).getLsbD k = false := by simp [h]
  simp only [ewPayload, BitVec.getLsbD_append, BitVec.getLsbD_extractLsb']
  by_cases h1 : j < 1
  · have e : j = 0 := by omega
    subst e
    simp
  · have h3 := hp (j - 1)
    have h4 : j - 1 < 31 := by omega
    have e : 1 + (j - 1) = j := by omega
    simp only [ewFlagHigh, BitVec.getLsbD_extractLsb', h4, e, decide_true, Bool.true_and] at h3
    simp [h1, hj, h3]

end Sys2Proof
end

