-- ==== Sys2Proof/Laws/Memory.lean ====
section
/-! SUPPORT. The memory laws: a read after a write gives the value written, a write leaves every other place alone, and every
memory operation keeps the canonical form. -/

namespace Sys2Proof.Machine

/-! Read after write. -/

@[simp] theorem Memory.get?_put_same (m : Memory) (a : Nat) (v : Byte) : Memory.get? (Memory.put m a v) a = some v := by
  induction m with
  | nil => simp [Memory.put, Memory.get?]
  | cons c m ih =>
    obtain ⟨b, w⟩ := c
    simp only [Memory.put]
    split
    · simp [Memory.get?]
    · split
      · simp [Memory.get?]
      · simp [Memory.get?, *]

theorem Memory.get?_put_other (m : Memory) {a b : Nat} (v : Byte) (h : b ≠ a) :
    Memory.get? (Memory.put m a v) b = Memory.get? m b := by
  induction m with
  | nil => simp [Memory.put, Memory.get?, h]
  | cons c m ih =>
    obtain ⟨c, w⟩ := c
    simp only [Memory.put]
    split
    · simp [Memory.get?, h]
    · split
      · subst_vars; simp [Memory.get?, h]
      · simp [Memory.get?, ih]

theorem memRead_memWrite_same (s : State) (a : Addr) (v : Byte) : memRead (memWrite s a v) a = v := by
  simp [memRead, memWrite]

theorem memRead_memWrite_other (s : State) {a b : Addr} (v : Byte) (h : b ≠ a) :
    memRead (memWrite s a v) b = memRead s b := by
  have hn : b.toNat ≠ a.toNat := fun e => h (BitVec.eq_of_toNat_eq e)
  simp [memRead, memWrite, Memory.get?_put_other _ _ hn]

/-! Blocks. -/

theorem Memory.get?_append (m n : Memory) (a : Nat) :
    Memory.get? (m ++ n) a = (Memory.get? m a).or (Memory.get? n a) := by
  induction m with
  | nil => simp [Memory.get?]
  | cons c m ih =>
    obtain ⟨b, w⟩ := c
    simp only [List.cons_append, Memory.get?]
    split <;> simp [ih]

theorem Memory.get?_filter_keep (m : Memory) (p : Host.Cell → Bool) (a : Nat) (h : ∀ v, p (a, v) = true) :
    Memory.get? (m.filter p) a = Memory.get? m a := by
  induction m with
  | nil => rfl
  | cons c m ih =>
    obtain ⟨b, w⟩ := c
    by_cases hp : p (b, w) = true
    · simp [hp, Memory.get?, ih]
    · have hb : a ≠ b := fun e => hp (e ▸ h w)
      simp [hp, Memory.get?, ih, hb]

theorem Memory.get?_filter_drop (m : Memory) (p : Host.Cell → Bool) (a : Nat) (h : ∀ v, p (a, v) = false) :
    Memory.get? (m.filter p) a = none := by
  induction m with
  | nil => rfl
  | cons c m ih =>
    obtain ⟨b, w⟩ := c
    by_cases hp : p (b, w) = true
    · have hb : a ≠ b := fun e => by simp [← e, h w] at hp
      simp [hp, Memory.get?, ih, hb]
    · simp [hp, ih]

theorem Memory.get?_cellsFrom (a : Nat) (vs : List Byte) (b : Nat) :
    Memory.get? (cellsFrom a vs) b = if a ≤ b then vs[b - a]? else none := by
  induction vs generalizing a with
  | nil => simp [cellsFrom, Memory.get?]
  | cons v vs ih =>
    simp only [cellsFrom, Memory.get?, ih]
    by_cases h : b = a
    · simp [h]
    · by_cases h2 : a ≤ b
      · have : b - a = (b - (a + 1)) + 1 := by omega
        have h3 : a + 1 ≤ b := by omega
        rw [if_neg h, if_pos h3, if_pos h2, this, List.getElem?_cons_succ]
      · have h3 : ¬ a + 1 ≤ b := by omega
        rw [if_neg h, if_neg h3, if_neg h2]

/-- What a memory reads after a block was written from address `a` upwards. -/
theorem Memory.get?_putBlock (m : Memory) (a : Nat) (vs : List Byte) (b : Nat) :
    Memory.get? (Memory.putBlock m a vs) b = if a ≤ b ∧ b < a + vs.length then vs[b - a]? else Memory.get? m b := by
  unfold Memory.putBlock
  rw [Memory.get?_append, Memory.get?_append, Memory.get?_cellsFrom]
  by_cases h1 : b < a
  · rw [Memory.get?_filter_keep _ _ _ (by simp [h1])]
    have h2 : ¬ a ≤ b := by omega
    rw [Memory.get?_filter_drop _ (fun c => decide (a + vs.length ≤ c.1)) _ (by intro; simp; omega)]
    simp [h2]
  · rw [Memory.get?_filter_drop _ (fun c => decide (c.1 < a)) _ (by simp [h1])]
    have h2 : a ≤ b := by omega
    by_cases h3 : b < a + vs.length
    · rw [Memory.get?_filter_drop _ (fun c => decide (a + vs.length ≤ c.1)) _ (by intro; simp; omega)]
      simp [h2, h3]
    · rw [Memory.get?_filter_keep _ (fun c => decide (a + vs.length ≤ c.1)) _ (by intro; simp; omega)]
      have : vs[b - a]? = none := List.getElem?_eq_none (by omega)
      simp [h2, h3, this]

/-! The canonical form. -/

theorem Memory.rising_cons (c : Host.Cell) (m : Memory) :
    Memory.rising (c :: m) = true ↔ (∀ c' ∈ m, c.1 < c'.1) ∧ Memory.rising m = true := by
  simp [Memory.rising]

theorem Memory.wf_iff (size : Nat) (m : Memory) :
    Memory.wf size m = true ↔ Memory.rising m = true ∧ ∀ c ∈ m, c.1 < size := by
  simp [Memory.wf]

theorem Memory.mem_put {m : Memory} {a : Nat} {v : Byte} {c : Host.Cell} (h : c ∈ Memory.put m a v) :
    c = (a, v) ∨ c ∈ m := by
  induction m with
  | nil => simpa [Memory.put] using h
  | cons e m ih =>
    obtain ⟨b, w⟩ := e
    simp only [Memory.put] at h
    split at h
    · simpa using h
    · split at h
      · rcases List.mem_cons.1 h with h | h
        · exact .inl h
        · exact .inr (List.mem_cons_of_mem _ h)
      · rcases List.mem_cons.1 h with h | h
        · exact .inr (by simp [h])
        · rcases ih h with h | h
          · exact .inl h
          · exact .inr (List.mem_cons_of_mem _ h)

theorem Memory.rising_put (m : Memory) (a : Nat) (v : Byte) (h : Memory.rising m = true) :
    Memory.rising (Memory.put m a v) = true := by
  induction m with
  | nil => rfl
  | cons e m ih =>
    obtain ⟨b, w⟩ := e
    obtain ⟨h1, h2⟩ := (Memory.rising_cons _ _).1 h
    simp only [Memory.put]
    split
    · next hab =>
      refine (Memory.rising_cons _ _).2 ⟨?_, h⟩
      intro c hc
      rcases List.mem_cons.1 hc with rfl | hc
      · exact hab
      · exact Nat.lt_trans hab (h1 c hc)
    · split
      · next hab => subst hab; exact (Memory.rising_cons _ _).2 ⟨h1, h2⟩
      · refine (Memory.rising_cons _ _).2 ⟨?_, ih h2⟩
        intro c hc
        rcases Memory.mem_put hc with rfl | hc
        · show b < a; omega
        · exact h1 c hc

/-- A write keeps the canonical form. -/
theorem Memory.wf_put {size : Nat} {m : Memory} {a : Nat} (v : Byte) (ha : a < size) (h : Memory.wf size m = true) :
    Memory.wf size (Memory.put m a v) = true := by
  obtain ⟨h1, h2⟩ := (Memory.wf_iff _ _).1 h
  refine (Memory.wf_iff _ _).2 ⟨Memory.rising_put m a v h1, fun c hc => ?_⟩
  rcases Memory.mem_put hc with rfl | hc
  · exact ha
  · exact h2 c hc

theorem mem_cellsFrom {a : Nat} {vs : List Byte} {c : Host.Cell} (h : c ∈ cellsFrom a vs) :
    a ≤ c.1 ∧ c.1 < a + vs.length := by
  induction vs generalizing a with
  | nil => cases h
  | cons v vs ih =>
    rcases List.mem_cons.1 h with rfl | h
    · simp
    · have := ih h
      simp only [List.length_cons]
      omega

theorem rising_cellsFrom (a : Nat) (vs : List Byte) : Memory.rising (cellsFrom a vs) = true := by
  induction vs generalizing a with
  | nil => rfl
  | cons v vs ih =>
    refine (Memory.rising_cons _ _).2 ⟨fun c hc => ?_, ih _⟩
    have := mem_cellsFrom hc
    simp only
    omega

theorem Memory.rising_append {m n : Memory} (hm : Memory.rising m = true) (hn : Memory.rising n = true)
    (h : ∀ c ∈ m, ∀ e ∈ n, c.1 < e.1) : Memory.rising (m ++ n) = true := by
  induction m with
  | nil => exact hn
  | cons c m ih =>
    obtain ⟨h1, h2⟩ := (Memory.rising_cons _ _).1 hm
    refine (Memory.rising_cons _ _).2 ⟨fun e he => ?_, ih h2 fun c' hc' => h c' (List.mem_cons_of_mem _ hc')⟩
    rcases List.mem_append.1 he with he | he
    · exact h1 e he
    · exact h c (by simp) e he

theorem Memory.rising_filter {m : Memory} (p : Host.Cell → Bool) (h : Memory.rising m = true) :
    Memory.rising (m.filter p) = true := by
  induction m with
  | nil => rfl
  | cons c m ih =>
    obtain ⟨h1, h2⟩ := (Memory.rising_cons _ _).1 h
    by_cases hp : p c = true
    · rw [List.filter_cons_of_pos hp]
      exact (Memory.rising_cons _ _).2 ⟨fun e he => h1 e (List.mem_of_mem_filter he), ih h2⟩
    · rw [List.filter_cons_of_neg hp]
      exact ih h2

/-- Writing a block keeps the canonical form. -/
theorem Memory.wf_putBlock {size : Nat} {m : Memory} {a : Nat} {vs : List Byte} (ha : a + vs.length ≤ size)
    (h : Memory.wf size m = true) : Memory.wf size (Memory.putBlock m a vs) = true := by
  obtain ⟨h1, h2⟩ := (Memory.wf_iff _ _).1 h
  refine (Memory.wf_iff _ _).2 ⟨?_, ?_⟩
  · refine Memory.rising_append (Memory.rising_append (Memory.rising_filter _ h1) (rising_cellsFrom _ _) ?_)
      (Memory.rising_filter _ h1) ?_
    · intro c hc e he
      have hc' := (List.mem_filter.1 hc).2
      have := mem_cellsFrom he
      simp at hc'
      omega
    · intro c hc e he
      have he' := (List.mem_filter.1 he).2
      simp at he'
      rcases List.mem_append.1 hc with hc | hc
      · have hc' := (List.mem_filter.1 hc).2
        simp at hc'
        omega
      · have := mem_cellsFrom hc
        omega
  · intro c hc
    rcases List.mem_append.1 hc with hc | hc
    · rcases List.mem_append.1 hc with hc | hc
      · exact h2 c (List.mem_of_mem_filter hc)
      · have := mem_cellsFrom hc
        omega
    · exact h2 c (List.mem_of_mem_filter hc)

/-- One effect keeps the canonical form. -/
theorem wf_effOnMem (e : Eff) {m : Memory} (h : Memory.wf memSize m = true) :
    Memory.wf memSize (effOnMem m e) = true := by
  cases e with
  | memWrite a v => exact Memory.wf_put v (by unfold memSize; omega) h
  | irqSet _ => exact h
  | irqClr _ => exact h

/-- Effects keep the canonical form. -/
theorem wf_effsOnMem (effs : List Eff) {m : Memory} (h : Memory.wf memSize m = true) :
    Memory.wf memSize (effsOnMem effs m) = true := by
  unfold effsOnMem
  induction effs generalizing m with
  | nil => exact h
  | cons e effs ih => exact ih (wf_effOnMem e h)

/-- A bus write to `MEM` keeps the canonical form. -/
theorem wf_memWrite (s : State) (a : Addr) (v : Byte) (h : Memory.wf memSize s.mem = true) :
    Memory.wf memSize (memWrite s a v).mem = true :=
  Memory.wf_put v (by unfold memSize; omega) h

theorem length_shadowSource (s : State) : (shadowSource s).length = shadowLen := by simp [shadowSource]

/-- The shadow copy keeps the canonical form. -/
theorem wf_shadowRestore (s : State) (h : Memory.wf memSize s.mem = true) :
    Memory.wf memSize (shadowRestore s).mem = true :=
  Memory.wf_putBlock (by rw [length_shadowSource]; decide) h

/-- The reset state's memory is in canonical form. -/
theorem wf_reset_mem : Memory.wf memSize State.reset.mem = true := rfl

/-- Effects that do not write an address leave its byte alone. -/
theorem get?_effsOnMem_other (effs : List Eff) (m : Memory) (a : Addr) (h : ∀ v, Eff.memWrite a v ∉ effs) :
    Memory.get? (effsOnMem effs m) a.toNat = Memory.get? m a.toNat := by
  unfold effsOnMem
  induction effs generalizing m with
  | nil => rfl
  | cons e effs ih =>
    rw [List.foldl_cons, ih _ fun v hv => h v (List.mem_cons_of_mem _ hv)]
    cases e with
    | memWrite b v =>
      have hb : a ≠ b := fun e => h v (by simp [e])
      exact Memory.get?_put_other _ _ fun e => hb (BitVec.eq_of_toNat_eq e)
    | irqSet _ => rfl
    | irqClr _ => rfl

end Sys2Proof.Machine
end

