-- ==== Sys2Proof/Laws/State.lean ====
section
/-! SUPPORT. One lemma per field per update of the state, so that no proof unfolds a record update. -/

namespace Sys2Proof.Machine

variable (s : State) (i : Nat) (d : Device) (req : Request) (ans : Answer) (dst : DState) (effs : List Eff)

/-! `settle`. -/

@[simp] theorem settle_alive : (settle s i d req ans dst effs).alive = s.alive := rfl
@[simp] theorem settle_latch : (settle s i d req ans dst effs).latch = s.latch := rfl
@[simp] theorem settle_romShadow : (settle s i d req ans dst effs).romShadow = s.romShadow := rfl
@[simp] theorem settle_ramBacked : (settle s i d req ans dst effs).ramBacked = s.ramBacked := rfl
@[simp] theorem settle_irqAgg : (settle s i d req ans dst effs).irqAgg = effsOnIrq d.irqMask effs s.irqAgg := rfl
@[simp] theorem settle_mem : (settle s i d req ans dst effs).mem = effsOnMem effs s.mem := rfl
@[simp] theorem settle_rom : (settle s i d req ans dst effs).rom = s.rom := rfl
@[simp] theorem settle_devs :
    (settle s i d req ans dst effs).devs = s.devs.modify i (fun d' => { d' with dst := dst }) := rfl
@[simp] theorem settle_params : (settle s i d req ans dst effs).params = s.params := rfl
@[simp] theorem settle_inbox : (settle s i d req ans dst effs).inbox = s.inbox := rfl
@[simp] theorem settle_result : (settle s i d req ans dst effs).out.result = s.out.result := rfl
@[simp] theorem settle_calls : (settle s i d req ans dst effs).out.calls = s.out.calls ++ [⟨i, req, ans⟩] := rfl
@[simp] theorem settle_trace : (settle s i d req ans dst effs).out.trace = s.out.trace := rfl

/-! `clearOut`. -/

@[simp] theorem clearOut_alive : (clearOut s).alive = s.alive := rfl
@[simp] theorem clearOut_latch : (clearOut s).latch = s.latch := rfl
@[simp] theorem clearOut_romShadow : (clearOut s).romShadow = s.romShadow := rfl
@[simp] theorem clearOut_ramBacked : (clearOut s).ramBacked = s.ramBacked := rfl
@[simp] theorem clearOut_irqAgg : (clearOut s).irqAgg = s.irqAgg := rfl
@[simp] theorem clearOut_mem : (clearOut s).mem = s.mem := rfl
@[simp] theorem clearOut_rom : (clearOut s).rom = s.rom := rfl
@[simp] theorem clearOut_devs : (clearOut s).devs = s.devs := rfl
@[simp] theorem clearOut_params : (clearOut s).params = s.params := rfl
@[simp] theorem clearOut_inbox : (clearOut s).inbox = s.inbox := rfl
@[simp] theorem clearOut_out : (clearOut s).out = Outputs.empty := rfl
@[simp] theorem clearOut_withOut (o : Outputs) : clearOut { s with out := o } = clearOut s := rfl

/-! `finish`. -/

@[simp] theorem finish_alive (r : OpResult) : (finish r s).alive = s.alive := rfl
@[simp] theorem finish_latch (r : OpResult) : (finish r s).latch = s.latch := rfl
@[simp] theorem finish_romShadow (r : OpResult) : (finish r s).romShadow = s.romShadow := rfl
@[simp] theorem finish_ramBacked (r : OpResult) : (finish r s).ramBacked = s.ramBacked := rfl
@[simp] theorem finish_irqAgg (r : OpResult) : (finish r s).irqAgg = s.irqAgg := rfl
@[simp] theorem finish_mem (r : OpResult) : (finish r s).mem = s.mem := rfl
@[simp] theorem finish_rom (r : OpResult) : (finish r s).rom = s.rom := rfl
@[simp] theorem finish_devs (r : OpResult) : (finish r s).devs = s.devs := rfl
@[simp] theorem finish_params (r : OpResult) : (finish r s).params = s.params := rfl
@[simp] theorem finish_inbox (r : OpResult) : (finish r s).inbox = s.inbox := rfl
@[simp] theorem finish_result (r : OpResult) : (finish r s).out.result = r := rfl
@[simp] theorem finish_calls (r : OpResult) : (finish r s).out.calls = s.out.calls := rfl
@[simp] theorem finish_trace (r : OpResult) : (finish r s).out.trace = s.out.trace := rfl

/-! `report`: everything but the trace port is as before (R157). -/

@[simp] theorem report_alive (t : TraceItem) : (report t s).alive = s.alive := by unfold report; split <;> rfl
@[simp] theorem report_latch (t : TraceItem) : (report t s).latch = s.latch := by unfold report; split <;> rfl
@[simp] theorem report_romShadow (t : TraceItem) : (report t s).romShadow = s.romShadow := by
  unfold report; split <;> rfl
@[simp] theorem report_ramBacked (t : TraceItem) : (report t s).ramBacked = s.ramBacked := by
  unfold report; split <;> rfl
@[simp] theorem report_irqAgg (t : TraceItem) : (report t s).irqAgg = s.irqAgg := by unfold report; split <;> rfl
@[simp] theorem report_mem (t : TraceItem) : (report t s).mem = s.mem := by unfold report; split <;> rfl
@[simp] theorem report_rom (t : TraceItem) : (report t s).rom = s.rom := by unfold report; split <;> rfl
@[simp] theorem report_devs (t : TraceItem) : (report t s).devs = s.devs := by unfold report; split <;> rfl
@[simp] theorem report_params (t : TraceItem) : (report t s).params = s.params := by unfold report; split <;> rfl
@[simp] theorem report_inbox (t : TraceItem) : (report t s).inbox = s.inbox := by unfold report; split <;> rfl
@[simp] theorem report_result (t : TraceItem) : (report t s).out.result = s.out.result := by
  unfold report; split <;> rfl
@[simp] theorem report_calls (t : TraceItem) : (report t s).out.calls = s.out.calls := by
  unfold report; split <;> rfl

/-! `memWrite`. -/

@[simp] theorem memWrite_alive (a : Addr) (v : Byte) : (memWrite s a v).alive = s.alive := rfl
@[simp] theorem memWrite_latch (a : Addr) (v : Byte) : (memWrite s a v).latch = s.latch := rfl
@[simp] theorem memWrite_romShadow (a : Addr) (v : Byte) : (memWrite s a v).romShadow = s.romShadow := rfl
@[simp] theorem memWrite_ramBacked (a : Addr) (v : Byte) : (memWrite s a v).ramBacked = s.ramBacked := rfl
@[simp] theorem memWrite_irqAgg (a : Addr) (v : Byte) : (memWrite s a v).irqAgg = s.irqAgg := rfl
@[simp] theorem memWrite_mem (a : Addr) (v : Byte) : (memWrite s a v).mem = Memory.put s.mem a.toNat v := rfl
@[simp] theorem memWrite_rom (a : Addr) (v : Byte) : (memWrite s a v).rom = s.rom := rfl
@[simp] theorem memWrite_devs (a : Addr) (v : Byte) : (memWrite s a v).devs = s.devs := rfl
@[simp] theorem memWrite_params (a : Addr) (v : Byte) : (memWrite s a v).params = s.params := rfl
@[simp] theorem memWrite_inbox (a : Addr) (v : Byte) : (memWrite s a v).inbox = s.inbox := rfl
@[simp] theorem memWrite_out (a : Addr) (v : Byte) : (memWrite s a v).out = s.out := rfl

/-! `shadowRestore`. -/

@[simp] theorem shadowRestore_alive : (shadowRestore s).alive = s.alive := rfl
@[simp] theorem shadowRestore_latch : (shadowRestore s).latch = s.latch := rfl
@[simp] theorem shadowRestore_romShadow : (shadowRestore s).romShadow = true := rfl
@[simp] theorem shadowRestore_ramBacked : (shadowRestore s).ramBacked = s.ramBacked := rfl
@[simp] theorem shadowRestore_irqAgg : (shadowRestore s).irqAgg = s.irqAgg := rfl
@[simp] theorem shadowRestore_mem :
    (shadowRestore s).mem = Memory.putBlock s.mem shadowDst (shadowSource s) := rfl
@[simp] theorem shadowRestore_rom : (shadowRestore s).rom = s.rom := rfl
@[simp] theorem shadowRestore_devs : (shadowRestore s).devs = s.devs := rfl
@[simp] theorem shadowRestore_params : (shadowRestore s).params = s.params := rfl
@[simp] theorem shadowRestore_inbox : (shadowRestore s).inbox = s.inbox := rfl
@[simp] theorem shadowRestore_out : (shadowRestore s).out = s.out := rfl

/-! The frame of an operation. -/

theorem whenAlive_of_alive {s : State} (k : State → StepOutcome) (h : s.alive = true) :
    whenAlive s k = k (clearOut s) := by simp [whenAlive, h]

theorem whenAlive_of_dead {s : State} (k : State → StepOutcome) (h : s.alive = false) :
    whenAlive s k = .refused .notAlive := by simp [whenAlive, h]

/-- If an operation that requires `ALIVE` answers a next state, the core was alive. -/
theorem whenAlive_next {s t : State} {k : State → StepOutcome} (h : whenAlive s k = .next t) :
    s.alive = true ∧ k (clearOut s) = .next t := by
  unfold whenAlive at h
  split at h
  · exact ⟨‹_›, h⟩
  · cases h

end Sys2Proof.Machine
end

