-- ==== Sys2Proof/Laws/Ops.lean ====
section
/-! SUPPORT. What the shared operations can do, said once each. Every search and every broadcast is a sequence of answered
handler calls (`settleAll`), whose frame is proved here once; the searches then differ only in where they stop. -/

namespace Sys2Proof.Machine

/-! The search lists. -/

theorem mem_slotsFrom {n : Nat} {ds : List Device} {x : Nat × Device} :
    x ∈ slotsFrom n ds ↔ n ≤ x.1 ∧ ds[x.1 - n]? = some x.2 := by
  obtain ⟨i, d⟩ := x
  induction ds generalizing n with
  | nil => simp [slotsFrom]
  | cons e ds ih =>
    simp only [slotsFrom, List.mem_cons, Prod.mk.injEq, ih]
    constructor
    · rintro (⟨rfl, rfl⟩ | ⟨h1, h2⟩)
      · simp
      · have : i - n = (i - (n + 1)) + 1 := by omega
        exact ⟨by omega, by rw [this, List.getElem?_cons_succ]; exact h2⟩
    · rintro ⟨h1, h2⟩
      by_cases h : i = n
      · subst h; simp at h2; exact .inl ⟨rfl, h2.symm⟩
      · have : i - n = (i - (n + 1)) + 1 := by omega
        rw [this, List.getElem?_cons_succ] at h2
        exact .inr ⟨by omega, h2⟩

theorem slotsFrom_rising (n : Nat) (ds : List Device) : (slotsFrom n ds).Pairwise (fun x y => x.1 < y.1) := by
  induction ds generalizing n with
  | nil => exact .nil
  | cons d ds ih =>
    refine .cons (fun y hy => ?_) (ih _)
    have := (mem_slotsFrom.1 hy).1
    simp only
    omega

/-- The members of a search list are the slots that satisfy its condition (R118). -/
theorem mem_select {p : Device → Bool} {s : State} {x : Nat × Device} :
    x ∈ select p s ↔ s.devs[x.1]? = some x.2 ∧ p x.2 = true := by
  simp [select, mem_slotsFrom]

/-- A search list is in the order of `DEVS` (R118, R141). -/
theorem select_rising (p : Device → Bool) (s : State) : (select p s).Pairwise (fun x y => x.1 < y.1) :=
  (slotsFrom_rising 0 s.devs).filter _

theorem mem_allSlots {s : State} {x : Nat × Device} : x ∈ allSlots s ↔ s.devs[x.1]? = some x.2 := by
  simp [allSlots, mem_slotsFrom]

theorem allSlots_rising (s : State) : (allSlots s).Pairwise (fun x y => x.1 < y.1) := slotsFrom_rising 0 s.devs

@[simp] theorem select_clearOut (p : Device → Bool) (s : State) : select p (clearOut s) = select p s := rfl
@[simp] theorem xd1_clearOut (s : State) : xd1 (clearOut s) = xd1 s := rfl
@[simp] theorem cd1_clearOut (s : State) : cd1 (clearOut s) = cd1 s := rfl
@[simp] theorem xd67_clearOut (s : State) : xd67 (clearOut s) = xd67 s := rfl
@[simp] theorem memRead_clearOut (s : State) (a : Addr) : memRead (clearOut s) a = memRead s a := rfl
@[simp] theorem allSlots_clearOut (s : State) : allSlots (clearOut s) = allSlots s := rfl

/-! Effects on the aggregate. -/

theorem setOwned_unowned {own agg m : Byte} {k : Nat} (h : own.getLsbD k = false) :
    (setOwned own agg m).getLsbD k = agg.getLsbD k := by simp [setOwned, h]

theorem clearOwned_unowned {own agg m : Byte} {k : Nat} (h : own.getLsbD k = false) :
    (clearOwned own agg m).getLsbD k = agg.getLsbD k := by
  by_cases hk : k < 8
  · rw [BitVec.getLsbD_eq_getElem hk] at h
    simp [clearOwned, h, hk]
  · simp [clearOwned, BitVec.getLsbD_of_ge agg k (by omega)]

/-- A device's effects move only bits that it owns (R120, R213). -/
theorem effsOnIrq_unowned {own : Byte} {k : Nat} (h : own.getLsbD k = false) (effs : List Eff) (agg : Byte) :
    (effsOnIrq own effs agg).getLsbD k = agg.getLsbD k := by
  unfold effsOnIrq
  induction effs generalizing agg with
  | nil => rfl
  | cons e effs ih =>
    rw [List.foldl_cons, ih]
    cases e with
    | memWrite a v => rfl
    | irqSet m => exact setOwned_unowned h
    | irqClr m => exact clearOwned_unowned h

/-! Sequences of answered calls. -/

/-- An answered call: the slot, the device, the request, the answer, the new device state and the effects. -/
structure Settled where
  i : Nat
  d : Device
  req : Request
  ans : Answer
  dst : DState
  effs : List Eff

/-- The answered calls, one after another. -/
def settleAll : List Settled → State → State
  | [], s => s
  | c :: cs, s => settleAll cs (settle s c.i c.d c.req c.ans c.dst c.effs)

theorem settleAll_append (cs ds : List Settled) (s : State) :
    settleAll (cs ++ ds) s = settleAll ds (settleAll cs s) := by
  induction cs generalizing s with
  | nil => rfl
  | cons c cs ih => exact ih _

section
variable (cs : List Settled) (s : State)

@[simp] theorem settleAll_alive : (settleAll cs s).alive = s.alive := by
  induction cs generalizing s with
  | nil => rfl
  | cons c cs ih => exact ih _

@[simp] theorem settleAll_latch : (settleAll cs s).latch = s.latch := by
  induction cs generalizing s with
  | nil => rfl
  | cons c cs ih => exact ih _

@[simp] theorem settleAll_romShadow : (settleAll cs s).romShadow = s.romShadow := by
  induction cs generalizing s with
  | nil => rfl
  | cons c cs ih => exact ih _

@[simp] theorem settleAll_ramBacked : (settleAll cs s).ramBacked = s.ramBacked := by
  induction cs generalizing s with
  | nil => rfl
  | cons c cs ih => exact ih _

@[simp] theorem settleAll_rom : (settleAll cs s).rom = s.rom := by
  induction cs generalizing s with
  | nil => rfl
  | cons c cs ih => exact ih _

@[simp] theorem settleAll_params : (settleAll cs s).params = s.params := by
  induction cs generalizing s with
  | nil => rfl
  | cons c cs ih => exact ih _

@[simp] theorem settleAll_inbox : (settleAll cs s).inbox = s.inbox := by
  induction cs generalizing s with
  | nil => rfl
  | cons c cs ih => exact ih _

@[simp] theorem settleAll_result : (settleAll cs s).out.result = s.out.result := by
  induction cs generalizing s with
  | nil => rfl
  | cons c cs ih => exact ih _

@[simp] theorem settleAll_trace : (settleAll cs s).out.trace = s.out.trace := by
  induction cs generalizing s with
  | nil => rfl
  | cons c cs ih => exact ih _

@[simp] theorem settleAll_calls :
    (settleAll cs s).out.calls = s.out.calls ++ cs.map (fun c => ⟨c.i, c.req, c.ans⟩) := by
  induction cs generalizing s with
  | nil => simp [settleAll]
  | cons c cs ih => simp [settleAll, ih]

/-- The calls keep the canonical form of `MEM`. -/
theorem settleAll_wf (h : Memory.wf memSize s.mem = true) : Memory.wf memSize (settleAll cs s).mem = true := by
  induction cs generalizing s with
  | nil => exact h
  | cons c cs ih => exact ih _ (wf_effsOnMem _ h)

@[simp] theorem settleAll_length : (settleAll cs s).devs.length = s.devs.length := by
  induction cs generalizing s with
  | nil => rfl
  | cons c cs ih => rw [settleAll, ih]; simp

/-- A view of a device that does not look at its own state is the same after the calls. -/
theorem settleAll_map {β : Type} (f : Device → β) (hf : ∀ d dst, f { d with dst := dst } = f d) :
    (settleAll cs s).devs.map f = s.devs.map f := by
  induction cs generalizing s with
  | nil => rfl
  | cons c cs ih =>
    rw [settleAll, ih]
    apply List.ext_getElem?
    intro j
    simp only [settle_devs, List.getElem?_map, List.getElem?_modify]
    cases s.devs[j]? with
    | none => rfl
    | some d => by_cases h : c.i = j <;> simp [h, hf]

variable {cs s}

/-- A byte that no effect writes reads as before. -/
theorem settleAll_mem_other {a : Addr} (h : ∀ c ∈ cs, ∀ v, Eff.memWrite a v ∉ c.effs) :
    Memory.get? (settleAll cs s).mem a.toNat = Memory.get? s.mem a.toNat := by
  induction cs generalizing s with
  | nil => rfl
  | cons c cs ih =>
    rw [settleAll, ih fun c hc => h c (List.mem_cons_of_mem _ hc)]
    exact get?_effsOnMem_other _ _ _ (h c (by simp))

/-- A bit of `IRQ_AGG` that no called device owns is as before. -/
theorem settleAll_irq_other {k : Nat} (h : ∀ c ∈ cs, c.d.irqMask.getLsbD k = false) :
    (settleAll cs s).irqAgg.getLsbD k = s.irqAgg.getLsbD k := by
  induction cs generalizing s with
  | nil => rfl
  | cons c cs ih =>
    rw [settleAll, ih fun c hc => h c (List.mem_cons_of_mem _ hc)]
    exact effsOnIrq_unowned (h c (by simp)) _ _

/-- A device that is not called is as before. -/
theorem settleAll_devs_other {j : Nat} (h : ∀ c ∈ cs, c.i ≠ j) : (settleAll cs s).devs[j]? = s.devs[j]? := by
  induction cs generalizing s with
  | nil => rfl
  | cons c cs ih =>
    rw [settleAll, ih fun c hc => h c (List.mem_cons_of_mem _ hc)]
    simp [h c (by simp)]

/-- A device that is called once has the state of its reply, and is otherwise as before. -/
theorem settleAll_devs_called (hd : cs.Pairwise (fun c e => c.i ≠ e.i)) {c : Settled} (hc : c ∈ cs) :
    (settleAll cs s).devs[c.i]? = (s.devs[c.i]?).map (fun d => { d with dst := c.dst }) := by
  induction cs generalizing s with
  | nil => cases hc
  | cons e cs ih =>
    obtain ⟨h1, h2⟩ := List.pairwise_cons.1 hd
    rcases List.mem_cons.1 hc with rfl | hc
    · rw [settleAll, settleAll_devs_other fun e he => (h1 e he).symm]
      simp
    · rw [settleAll, ih h2 hc]
      simp [h1 c hc]

end

/-! Where each search stops. -/

/-- The answered call of a request without a result. -/
def unitCall (h : Device → Reply Unit) (req : Request) (x : Nat × Device) : Settled :=
  ⟨x.1, x.2, req, .unit, (h x.2).dst, (h x.2).effs⟩

/-- A broadcast calls every listed device, in order (R115, R119, R122). -/
theorem broadcast_eq (h : Device → Reply Unit) (req : Request) (xs : List (Nat × Device)) (s : State) :
    broadcast h req xs s = settleAll (xs.map (unitCall h req)) s := by
  induction xs generalizing s with
  | nil => rfl
  | cons x xs ih => obtain ⟨i, d⟩ := x; exact ih _

/-- The answered call of a cooperative read. -/
def readCall (a : Addr) (nse : Bool) (x : Nat × Device) : Settled :=
  let r := x.2.model.read x.2.dst .d1 a nse
  ⟨x.1, x.2, .read .d1 a nse, .tagged r.ans, r.dst, r.effs⟩

/-- What the cooperative search can do (R143): a device breaks the suppression duty; or nobody answers and everybody was
called; or the first that answers `Handled` ends it and nobody after it is called. -/
theorem coopRead_spec (a : Addr) (nse : Bool) (xs : List (Nat × Device)) (s : State) :
    (coopRead a nse xs s = .broken ∧ ∃ x ∈ xs, mustRefuse nse x.2 (x.2.model.read x.2.dst .d1 a nse) = true)
    ∨ (coopRead a nse xs s = .notHandled (settleAll (xs.map (readCall a nse)) s)
        ∧ ∀ x ∈ xs, (x.2.model.read x.2.dst .d1 a nse).ans = .notHandled
          ∧ mustRefuse nse x.2 (x.2.model.read x.2.dst .d1 a nse) = false)
    ∨ (∃ pre x post v, xs = pre ++ x :: post
        ∧ coopRead a nse xs s = .handled x.1 v (settleAll ((pre ++ [x]).map (readCall a nse)) s)
        ∧ (x.2.model.read x.2.dst .d1 a nse).ans = .handled v
        ∧ (∀ y ∈ pre, (y.2.model.read y.2.dst .d1 a nse).ans = .notHandled)
        ∧ ∀ y ∈ pre ++ [x], mustRefuse nse y.2 (y.2.model.read y.2.dst .d1 a nse) = false) := by
  induction xs generalizing s with
  | nil => exact .inr (.inl ⟨rfl, by simp⟩)
  | cons x xs ih =>
    obtain ⟨i, d⟩ := x
    by_cases hm : mustRefuse nse d (d.model.read d.dst .d1 a nse) = true
    · exact .inl ⟨by simp [coopRead, hm], ⟨(i, d), by simp, hm⟩⟩
    · have hm' := Bool.eq_false_iff.2 hm
      cases hr : (d.model.read d.dst .d1 a nse).ans with
      | handled v =>
        refine .inr (.inr ⟨[], (i, d), xs, v, rfl, ?_, hr, by simp, by simpa using hm'⟩)
        simp [coopRead, hm', hr, settleAll, readCall]
      | notHandled =>
        have step : coopRead a nse ((i, d) :: xs) s
            = coopRead a nse xs (settleAll [readCall a nse (i, d)] s) := by
          simp [coopRead, hm', hr, settleAll, readCall]
        rcases ih (settleAll [readCall a nse (i, d)] s) with ⟨h1, y, hy, h2⟩ | ⟨h1, h2⟩ | ⟨pre, y, post, v, h0, h1, h2, h3, h4⟩
        · exact .inl ⟨step ▸ h1, y, List.mem_cons_of_mem _ hy, h2⟩
        · refine .inr (.inl ⟨by rw [step, h1]; rfl, ?_⟩)
          intro y hy
          rcases List.mem_cons.1 hy with rfl | hy
          · exact ⟨hr, hm'⟩
          · exact h2 y hy
        · refine .inr (.inr ⟨(i, d) :: pre, y, post, v, by simp [h0], by rw [step, h1]; rfl, h2, ?_, ?_⟩)
          · intro z hz
            rcases List.mem_cons.1 hz with rfl | hz
            · exact hr
            · exact h3 z hz
          · intro z hz
            rcases List.mem_cons.1 hz with rfl | hz
            · exact hm'
            · exact h4 z hz

/-- The cooperative search when `x` is the first device that answers `Handled` (R143). -/
theorem coopRead_of_handled {a : Addr} {nse : Bool} {pre post : List (Nat × Device)} {x : Nat × Device} {v : Byte} {s : State}
    (h1 : ∀ y ∈ pre, (y.2.model.read y.2.dst .d1 a nse).ans = .notHandled)
    (h2 : (x.2.model.read x.2.dst .d1 a nse).ans = .handled v)
    (h3 : ∀ y ∈ pre ++ [x], mustRefuse nse y.2 (y.2.model.read y.2.dst .d1 a nse) = false) :
    coopRead a nse (pre ++ x :: post) s = .handled x.1 v (settleAll ((pre ++ [x]).map (readCall a nse)) s) := by
  induction pre generalizing s with
  | nil =>
    obtain ⟨i, d⟩ := x
    have e3 := h3 (i, d) (by simp)
    simp only at h2 e3
    simp [coopRead, h2, e3, settleAll, readCall]
  | cons y pre ih =>
    obtain ⟨i, d⟩ := y
    have e1 := h1 (i, d) (by simp)
    have e3 := h3 (i, d) (by simp)
    simp only at e1 e3
    rw [List.cons_append, coopRead]
    simp only [e1, e3, Bool.false_eq_true, if_false]
    rw [ih (fun y hy => h1 y (List.mem_cons_of_mem _ hy)) (fun y hy => h3 y (List.mem_cons_of_mem _ hy))]
    simp [settleAll, readCall, e1]

/-- The cooperative search when nobody answers `Handled` (R143). -/
theorem coopRead_of_notHandled {a : Addr} {nse : Bool} {xs : List (Nat × Device)} {s : State}
    (h1 : ∀ y ∈ xs, (y.2.model.read y.2.dst .d1 a nse).ans = .notHandled)
    (h3 : ∀ y ∈ xs, mustRefuse nse y.2 (y.2.model.read y.2.dst .d1 a nse) = false) :
    coopRead a nse xs s = .notHandled (settleAll (xs.map (readCall a nse)) s) := by
  induction xs generalizing s with
  | nil => rfl
  | cons y xs ih =>
    obtain ⟨i, d⟩ := y
    have e1 := h1 (i, d) (by simp)
    have e3 := h3 (i, d) (by simp)
    simp only at e1 e3
    rw [coopRead]
    simp only [e1, e3, Bool.false_eq_true, if_false]
    rw [ih (fun y hy => h1 y (List.mem_cons_of_mem _ hy)) (fun y hy => h3 y (List.mem_cons_of_mem _ hy))]
    simp [settleAll, readCall, e1]

/-- The answered call of a bank-select offer. -/
def bankCall (v : Byte) (x : Nat × Device) : Settled :=
  let r := x.2.model.bankSelect x.2.dst v
  ⟨x.1, x.2, .bankSelect v, .claim r.ans, r.dst, r.effs⟩

/-- What the offer can do (R188): nobody takes the code and everybody was called, or the first that takes it ends the offer and
nobody after it is called. -/
theorem offer_spec (v : Byte) (xs : List (Nat × Device)) (s : State) :
    (offer v xs s = (.notHandled, settleAll (xs.map (bankCall v)) s)
        ∧ ∀ x ∈ xs, (x.2.model.bankSelect x.2.dst v).ans = .notHandled)
    ∨ (∃ pre x post, xs = pre ++ x :: post
        ∧ offer v xs s = (.handled, settleAll ((pre ++ [x]).map (bankCall v)) s)
        ∧ (x.2.model.bankSelect x.2.dst v).ans = .handled
        ∧ ∀ y ∈ pre, (y.2.model.bankSelect y.2.dst v).ans = .notHandled) := by
  induction xs generalizing s with
  | nil => exact .inl ⟨rfl, by simp⟩
  | cons x xs ih =>
    obtain ⟨i, d⟩ := x
    cases hr : (d.model.bankSelect d.dst v).ans with
    | handled =>
      exact .inr ⟨[], (i, d), xs, rfl, by simp [offer, hr, settleAll, bankCall], hr, by simp⟩
    | notHandled =>
      have step : offer v ((i, d) :: xs) s = offer v xs (settleAll [bankCall v (i, d)] s) := by
        simp [offer, hr, settleAll, bankCall]
      rcases ih (settleAll [bankCall v (i, d)] s) with ⟨h1, h2⟩ | ⟨pre, y, post, h0, h1, h2, h3⟩
      · refine .inl ⟨by rw [step, h1]; rfl, ?_⟩
        intro y hy
        rcases List.mem_cons.1 hy with rfl | hy
        · exact hr
        · exact h2 y hy
      · refine .inr ⟨(i, d) :: pre, y, post, by simp [h0], by rw [step, h1]; rfl, h2, ?_⟩
        intro z hz
        rcases List.mem_cons.1 hz with rfl | hz
        · exact hr
        · exact h3 z hz

/-- The answered call of a status query. -/
def statusCall (x : Nat × Device) : Settled :=
  let r := x.2.model.irqStatus x.2.dst
  ⟨x.1, x.2, .irqStatus, .byte r.ans, r.dst, r.effs⟩

/-- The status combiner asks every listed device and returns the OR of the answers (R195). -/
theorem statusCollect_eq (xs : List (Nat × Device)) (acc : Byte) (s : State) :
    statusCollect xs acc s
      = (xs.foldl (fun b x => b ||| (x.2.model.irqStatus x.2.dst).ans) acc, settleAll (xs.map statusCall) s) := by
  induction xs generalizing acc s with
  | nil => rfl
  | cons x xs ih => obtain ⟨i, d⟩ := x; exact ih _ _

/-- The answered call of an initialisation. -/
def initCall (x : Nat × Device) : Settled :=
  let r := x.2.model.initHandler x.2.dst x.2.args
  ⟨x.1, x.2, .init x.2.args, .flag r.ans, r.dst, r.effs⟩

/-- What initialisation can do (R290, R291): everybody succeeds, or the first that fails ends it and nobody after it is
called. -/
theorem initDevices_spec (xs : List (Nat × Device)) (s : State) :
    (initDevices xs s = (true, settleAll (xs.map initCall) s)
        ∧ ∀ x ∈ xs, (x.2.model.initHandler x.2.dst x.2.args).ans = true)
    ∨ (∃ pre x post, xs = pre ++ x :: post
        ∧ initDevices xs s = (false, settleAll ((pre ++ [x]).map initCall) s)
        ∧ (x.2.model.initHandler x.2.dst x.2.args).ans = false
        ∧ ∀ y ∈ pre, (y.2.model.initHandler y.2.dst y.2.args).ans = true) := by
  induction xs generalizing s with
  | nil => exact .inl ⟨rfl, by simp⟩
  | cons x xs ih =>
    obtain ⟨i, d⟩ := x
    cases hr : (d.model.initHandler d.dst d.args).ans with
    | false =>
      exact .inr ⟨[], (i, d), xs, rfl, by simp [initDevices, hr, settleAll, initCall], hr, by simp⟩
    | true =>
      have step : initDevices ((i, d) :: xs) s = initDevices xs (settleAll [initCall (i, d)] s) := by
        simp [initDevices, hr, settleAll, initCall]
      rcases ih (settleAll [initCall (i, d)] s) with ⟨h1, h2⟩ | ⟨pre, y, post, h0, h1, h2, h3⟩
      · refine .inl ⟨by rw [step, h1]; rfl, ?_⟩
        intro y hy
        rcases List.mem_cons.1 hy with rfl | hy
        · exact hr
        · exact h2 y hy
      · refine .inr ⟨(i, d) :: pre, y, post, by simp [h0], by rw [step, h1]; rfl, h2, ?_⟩
        intro z hz
        rcases List.mem_cons.1 hz with rfl | hz
        · exact hr
        · exact h3 z hz

/-! The suppression duty (R121). -/

/-- A device that honours suppression is never refused on a cooperative read. -/
theorem mustRefuse_read_false {d : Device} (h : HonoursSuppression d.model) (w : Window) (a : Addr) (nse : Bool) :
    mustRefuse nse d (d.model.read d.dst w a nse) = false := by
  cases nse with
  | false => rfl
  | true =>
    obtain ⟨⟨h1, h2⟩, _⟩ := h d.dst w a
    simp [mustRefuse, breaksSuppression, h1, h2]

/-- A device that honours suppression is never refused on an exclusive read. -/
theorem mustRefuse_readX_false {d : Device} (h : HonoursSuppression d.model) (w : Window) (a : Addr) (nse : Bool) :
    mustRefuse nse d (d.model.readX d.dst w a nse) = false := by
  cases nse with
  | false => rfl
  | true =>
    obtain ⟨_, h1, h2⟩ := h d.dst w a
    simp [mustRefuse, breaksSuppression, h1, h2]

/-- A reply that a suppressed read accepts changed nothing. -/
theorem quiet_of_mustRefuse_false {α : Type} {d : Device} {r : Reply α} (h : mustRefuse true d r = false) :
    r.dst = d.dst ∧ r.effs = [] := by
  simpa [mustRefuse, breaksSuppression] using h

/-- A quiet call changes only the handler ports. -/
theorem settle_quiet {s : State} {i : Nat} {d : Device} (hd : s.devs[i]? = some d) (req : Request) (ans : Answer) :
    settle s i d req ans d.dst [] = { s with out := { s.out with calls := s.out.calls ++ [⟨i, req, ans⟩] } } := by
  have : s.devs.modify i (fun d' => { d' with dst := d.dst }) = s.devs := by
    apply List.ext_getElem?
    intro j
    by_cases h : i = j
    · subst h; simp [hd]
    · simp [h]
  simp [settle, this, effsOnMem, effsOnIrq]

/-! The test devices honour suppression (95 Part 2). -/

theorem honours_bank (c p : Byte) : HonoursSuppression (.bank c p) := fun _ _ _ => ⟨⟨rfl, rfl⟩, rfl, rfl⟩
theorem honours_stat (st : Byte) : HonoursSuppression (.stat st) := fun _ _ _ => ⟨⟨rfl, rfl⟩, rfl, rfl⟩
theorem honours_statc (st : Byte) : HonoursSuppression (.statc st) := fun _ _ _ => ⟨⟨rfl, rfl⟩, rfl, rfl⟩
theorem honours_x1 : HonoursSuppression .x1 := fun _ _ _ => ⟨⟨rfl, rfl⟩, rfl, rfl⟩
theorem honours_x67 : HonoursSuppression .x67 := fun _ _ _ => ⟨⟨rfl, rfl⟩, rfl, rfl⟩
theorem honours_ramw : HonoursSuppression .ramw := fun _ _ _ => ⟨⟨rfl, rfl⟩, rfl, rfl⟩
theorem honours_bad : HonoursSuppression .bad := fun _ _ _ => ⟨⟨rfl, rfl⟩, rfl, rfl⟩
theorem honours_reg (a0 : Addr) : HonoursSuppression (.reg a0) := by
  intro d w a
  by_cases h : a = a0 <;> simp [DevModel.read, DevModel.readX, h, countRead]

end Sys2Proof.Machine
end

