-- ==== Sys2Proof/Laws/Frames.lean ====
section
/-! SUPPORT. Sequences of answered calls against the frame predicates of Safety.lean, and the search lists of a state in which
devices have been called. -/

namespace Sys2Proof.Machine

/-- `HandlersRan` looks at the devices, `MEM` and `IRQ_AGG` of the later state only. -/
theorem HandlersRan.congr {h : Device → DState × List Eff} {ds : List (Nat × Device)} {s t u : State}
    (H : HandlersRan h ds s t) (hd : u.devs = t.devs) (hm : u.mem = t.mem) (hi : u.irqAgg = t.irqAgg) :
    HandlersRan h ds s u := by
  obtain ⟨⟨a, b, c⟩, d, e, f, g⟩ := H
  refine ⟨⟨hd ▸ a, hd ▸ b, hd ▸ c⟩, hm ▸ d, hi ▸ e, ?_, ?_⟩
  · intro x hx
    have := f x hx
    unfold memRead at this ⊢
    rw [hm, this]
  · intro k hk
    rw [hi, g k hk]

/-- `HandlersRan` looks at the devices, `MEM` and `IRQ_AGG` of the earlier state only. -/
theorem HandlersRan.congr_left {h : Device → DState × List Eff} {ds : List (Nat × Device)} {s s' t : State}
    (H : HandlersRan h ds s t) (hd : s'.devs = s.devs) (hm : s'.mem = s.mem) (hi : s'.irqAgg = s.irqAgg) :
    HandlersRan h ds s' t := by
  obtain ⟨⟨a, b, c⟩, d, e, f, g⟩ := H
  refine ⟨⟨hd ▸ a, b, hd ▸ c⟩, hm ▸ d, hi ▸ e, ?_, ?_⟩
  · intro x hx
    have := f x hx
    unfold memRead at this ⊢
    rw [hm, this]
  · intro k hk
    rw [hi, g k hk]

theorem settleAll_mem (cs : List Settled) (s : State) :
    (settleAll cs s).mem = cs.foldl (fun m c => effsOnMem c.effs m) s.mem := by
  induction cs generalizing s with
  | nil => rfl
  | cons c cs ih => rw [settleAll, ih]; rfl

theorem settleAll_irqAgg (cs : List Settled) (s : State) :
    (settleAll cs s).irqAgg = cs.foldl (fun g c => effsOnIrq c.d.irqMask c.effs g) s.irqAgg := by
  induction cs generalizing s with
  | nil => rfl
  | cons c cs ih => rw [settleAll, ih]; rfl

/-- `MEM` after one answered call for each listed device. -/
theorem settleAll_mem_calls (mk : Nat × Device → Settled) (f : Device → List Eff) (hmk : ∀ x, (mk x).effs = f x.2)
    (ds : List (Nat × Device)) (s : State) : (settleAll (ds.map mk) s).mem = memAfter f ds s.mem := by
  simp [settleAll_mem, memAfter, List.foldl_map, hmk]

/-- `IRQ_AGG` after one answered call for each listed device. -/
theorem settleAll_irqAgg_calls (mk : Nat × Device → Settled) (f : Device → List Eff)
    (hmk : ∀ x, (mk x).d = x.2 ∧ (mk x).effs = f x.2) (ds : List (Nat × Device)) (s : State) :
    (settleAll (ds.map mk) s).irqAgg = irqAfter f ds s.irqAgg := by
  simp [settleAll_irqAgg, irqAfter, List.foldl_map, hmk]

/-- A fold over devices whose states have been replaced is a fold over the devices as they were. -/
theorem memAfter_map (f : Device → List Eff) (g : Device → DState) (ds : List (Nat × Device)) (m : Memory) :
    memAfter f (ds.map fun x => (x.1, { x.2 with dst := g x.2 })) m
      = memAfter (fun d => f { d with dst := g d }) ds m := by
  simp [memAfter, List.foldl_map]

/-- The same for `IRQ_AGG`: ownership does not depend on a device's state. -/
theorem irqAfter_map (f : Device → List Eff) (g : Device → DState) (ds : List (Nat × Device)) (agg : Byte) :
    irqAfter f (ds.map fun x => (x.1, { x.2 with dst := g x.2 })) agg
      = irqAfter (fun d => f { d with dst := g d }) ds agg := by
  simp [irqAfter, List.foldl_map]

/-- A sequence of answered calls, one for each listed device, is what `HandlersRan` says. -/
theorem handlersRan_settleAll {h : Device → DState × List Eff} {ds : List (Nat × Device)} {s : State}
    (mk : Nat × Device → Settled) (hmk : ∀ x, (mk x).i = x.1 ∧ (mk x).d = x.2 ∧ (mk x).dst = (h x.2).1 ∧ (mk x).effs = (h x.2).2)
    (hr : ds.Pairwise (fun x y => x.1 < y.1)) (hs : ∀ x ∈ ds, s.devs[x.1]? = some x.2) :
    HandlersRan h ds s (settleAll (ds.map mk) s) := by
  have hd : (ds.map mk).Pairwise (fun c e => c.i ≠ e.i) := by
    rw [List.pairwise_map]
    refine hr.imp fun {x y} hxy => ?_
    rw [(hmk x).1, (hmk y).1]
    omega
  refine ⟨⟨settleAll_length _ _, fun x hx => ?_, fun j hj => ?_⟩, ?_, ?_, fun a ha => ?_, fun k hk => ?_⟩
  · have := settleAll_devs_called (s := s) hd (List.mem_map_of_mem (f := mk) hx)
    rw [(hmk x).1, hs x hx] at this
    rw [this]
    simp [(hmk x).2.2.1]
  · refine settleAll_devs_other fun c hc => ?_
    obtain ⟨x, hx, rfl⟩ := List.mem_map.1 hc
    rw [(hmk x).1]
    exact hj x hx
  · exact settleAll_mem_calls mk _ (fun x => (hmk x).2.2.2) ds s
  · exact settleAll_irqAgg_calls mk _ (fun x => ⟨(hmk x).2.1, (hmk x).2.2.2⟩) ds s
  · unfold memRead
    rw [settleAll_mem_other fun c hc v hv => ?_]
    obtain ⟨x, hx, rfl⟩ := List.mem_map.1 hc
    refine ha v (List.mem_flatMap.2 ⟨x, hx, ?_⟩)
    rwa [← (hmk x).2.2.2]
  · refine settleAll_irq_other fun c hc => ?_
    obtain ⟨x, hx, rfl⟩ := List.mem_map.1 hc
    rw [(hmk x).2.1]
    exact hk x hx

/-! Search lists after calls. -/

theorem slotsFrom_map (g : Device → Device) (n : Nat) (ds : List Device) :
    slotsFrom n (ds.map g) = (slotsFrom n ds).map (fun x => (x.1, g x.2)) := by
  induction ds generalizing n with
  | nil => rfl
  | cons d ds ih => simp [slotsFrom, ih]

/-- Calling every device of a search list gives exactly those devices the state of their replies. -/
theorem settleAll_select_devs (mk : Nat × Device → Settled) (f : Device → DState) (q : Device → Bool) (s : State)
    (hmk : ∀ x, (mk x).i = x.1 ∧ (mk x).dst = f x.2) :
    (settleAll ((select q s).map mk) s).devs = s.devs.map (fun d => if q d then { d with dst := f d } else d) := by
  have hd : ((select q s).map mk).Pairwise (fun c e => c.i ≠ e.i) := by
    rw [List.pairwise_map]
    refine (select_rising q s).imp fun {x y} hxy => ?_
    rw [(hmk x).1, (hmk y).1]
    omega
  apply List.ext_getElem?
  intro j
  rw [List.getElem?_map]
  cases hj : s.devs[j]? with
  | none =>
    rw [settleAll_devs_other fun c hc => ?_, hj]; rfl
    obtain ⟨x, hx, rfl⟩ := List.mem_map.1 hc
    rw [(hmk x).1]
    intro e
    have := (mem_select.1 hx).1
    rw [e, hj] at this
    cases this
  | some d =>
    by_cases hq : q d = true
    · have hx : (j, d) ∈ select q s := mem_select.2 ⟨hj, hq⟩
      have := settleAll_devs_called (s := s) hd (List.mem_map_of_mem (f := mk) hx)
      rw [(hmk _).1, (hmk _).2, hj] at this
      simp [this, hq]
    · rw [settleAll_devs_other fun c hc => ?_, hj]
      · simp [hq]
      · obtain ⟨x, hx, rfl⟩ := List.mem_map.1 hc
        rw [(hmk x).1]
        intro e
        obtain ⟨h1, h2⟩ := mem_select.1 hx
        rw [e, hj] at h1
        cases h1
        exact hq h2

/-- A search list after every device of another list has been called: the same slots, with the new states. -/
theorem select_after_calls (p q : Device → Bool) (mk : Nat × Device → Settled) (f : Device → DState) (s : State)
    (hmk : ∀ x, (mk x).i = x.1 ∧ (mk x).dst = f x.2) (hp : ∀ d dst, p { d with dst := dst } = p d)
    (hpq : ∀ d, p d = true → q d = true) :
    select p (settleAll ((select q s).map mk) s)
      = (select p s).map (fun x => (x.1, { x.2 with dst := f x.2 })) := by
  unfold select
  have := settleAll_select_devs mk f q s hmk
  unfold select at this
  rw [this, slotsFrom_map, List.filter_map]
  have e : ((fun x : Nat × Device => p x.2) ∘
      fun x : Nat × Device => (x.1, if q x.2 then { x.2 with dst := f x.2 } else x.2)) = fun x => p x.2 := by
    funext x
    by_cases h : q x.2 = true <;> simp [h, hp]
  rw [e]
  refine List.map_congr_left fun x hx => ?_
  have hq := hpq x.2 (List.mem_filter.1 hx).2
  simp [hq]

/-- Calls do not change who is in a search list; in particular an empty list stays empty. -/
theorem select_eq_nil_settleAll (p : Device → Bool) (cs : List Settled) (s : State)
    (hp : ∀ d dst, p { d with dst := dst } = p d) (h : select p s = []) : select p (settleAll cs s) = [] := by
  have hm := settleAll_map cs s p hp
  refine List.eq_nil_iff_forall_not_mem.2 fun x hx => ?_
  obtain ⟨h1, h2⟩ := mem_select.1 hx
  have h3 : (s.devs.map p)[x.1]? = some true := by rw [← hm, List.getElem?_map, h1, Option.map_some, h2]
  rw [List.getElem?_map] at h3
  cases hd : s.devs[x.1]? with
  | none => simp [hd] at h3
  | some d =>
    rw [hd] at h3
    have : (x.1, d) ∈ select p s := mem_select.2 ⟨hd, by simpa using h3⟩
    rw [h] at this
    cases this

/-! Calls that change nothing. -/

/-- Calls whose replies keep the device's state and have no effect change only the handler ports (R121). -/
theorem settleAll_quiet {cs : List Settled} {s : State}
    (h : ∀ c ∈ cs, c.effs = [] ∧ ∃ d, s.devs[c.i]? = some d ∧ d.dst = c.dst) : ∃ o, settleAll cs s = { s with out := o } := by
  induction cs generalizing s with
  | nil => exact ⟨_, rfl⟩
  | cons c cs ih =>
    obtain ⟨h1, d, h2, h3⟩ := h c (by simp)
    obtain ⟨i, e, req, ans, dst, effs⟩ := c
    simp only at h1 h2 h3
    subst h1 h3
    have hm : s.devs.modify i (fun d' => { d' with dst := d.dst }) = s.devs := by
      apply List.ext_getElem?
      intro j
      by_cases hj : i = j
      · subst hj; simp [h2]
      · simp [hj]
    have hs : settle s i e req ans d.dst [] = { s with out := { s.out with calls := s.out.calls ++ [⟨i, req, ans⟩] } } := by
      simp [settle, hm, effsOnMem, effsOnIrq]
    rw [settleAll, hs]
    obtain ⟨o, ho⟩ := ih (s := { s with out := { s.out with calls := s.out.calls ++ [⟨i, req, ans⟩] } })
      fun c hc => h c (List.mem_cons_of_mem _ hc)
    exact ⟨o, ho⟩

/-! Up to the first. -/

section
variable {α : Type} {p : α → Bool}

theorem upToFirst_of_first {pre post : List α} {x : α} (h1 : ∀ y ∈ pre, p y = false) (h2 : p x = true) :
    upToFirst p (pre ++ x :: post) = pre ++ [x] := by
  induction pre with
  | nil => simp [upToFirst, h2]
  | cons y pre ih =>
    simp only [List.cons_append, upToFirst, h1 y (by simp), Bool.false_eq_true, if_false]
    rw [ih fun z hz => h1 z (List.mem_cons_of_mem _ hz)]

theorem upToFirst_of_none {xs : List α} (h : ∀ y ∈ xs, p y = false) : upToFirst p xs = xs := by
  induction xs with
  | nil => rfl
  | cons y xs ih =>
    simp only [upToFirst, h y (by simp), Bool.false_eq_true, if_false]
    rw [ih fun z hz => h z (List.mem_cons_of_mem _ hz)]

theorem mem_of_mem_upToFirst {xs : List α} {x : α} (h : x ∈ upToFirst p xs) : x ∈ xs := by
  induction xs with
  | nil => exact h
  | cons y xs ih =>
    simp only [upToFirst] at h
    split at h
    · exact List.mem_cons.2 (.inl (List.mem_singleton.1 h))
    · rcases List.mem_cons.1 h with rfl | h
      · simp
      · exact List.mem_cons_of_mem _ (ih h)

theorem upToFirst_map {β : Type} (f : β → α) (xs : List β) :
    upToFirst p (xs.map f) = (upToFirst (fun x => p (f x)) xs).map f := by
  induction xs with
  | nil => rfl
  | cons y ys ih =>
    simp only [List.map_cons, upToFirst]
    split
    · rfl
    · rw [List.map_cons, ih]

theorem upToFirst_pairwise {xs : List α} {R : α → α → Prop} (h : xs.Pairwise R) : (upToFirst p xs).Pairwise R := by
  induction xs with
  | nil => exact h
  | cons y xs ih =>
    obtain ⟨h1, h2⟩ := List.pairwise_cons.1 h
    simp only [upToFirst]
    split
    · simp
    · exact List.pairwise_cons.2 ⟨fun z hz => h1 z (mem_of_mem_upToFirst hz), ih h2⟩

end

end Sys2Proof.Machine
end

