-- ==== Sys2Proof/Laws/Latch.lean ====
section
/-! SUPPORT. What the latch transition can do (R185, R189): five cases, exhaustive and exclusive. -/

namespace Sys2Proof.Machine

/-- What the transition can do (R189): reject; redundant; handled by the first device that takes the code; or nobody takes it,
with the copy exactly when `ROM_SHADOW` was false. -/
theorem latchWrite_spec (v : Byte) (s : State) :
    (legal v = false ∧ latchWrite v s = report (.invalidLatch v) s)
    ∨ (legal v = true ∧ v = s.latch ∧ latchWrite v s = s)
    ∨ (legal v = true ∧ v ≠ s.latch ∧ ∃ pre x post, bs s = pre ++ x :: post
        ∧ (x.2.model.bankSelect x.2.dst v).ans = .handled
        ∧ (∀ y ∈ pre, (y.2.model.bankSelect y.2.dst v).ans = .notHandled)
        ∧ latchWrite v s
            = { settleAll ((pre ++ [x]).map (bankCall v)) { s with latch := v } with romShadow := false })
    ∨ (legal v = true ∧ v ≠ s.latch ∧ (∀ y ∈ bs s, (y.2.model.bankSelect y.2.dst v).ans = .notHandled)
        ∧ latchWrite v s = latchFallback (settleAll ((bs s).map (bankCall v)) { s with latch := v })) := by
  cases hl : legal v with
  | false => exact .inl ⟨rfl, by simp [latchWrite, hl]⟩
  | true =>
    refine .inr ?_
    by_cases hv : v = s.latch
    · exact .inl ⟨rfl, hv, by simp [latchWrite, ← hv, hl]⟩
    · refine .inr ?_
      have e : latchWrite v s = latchAccept v s := by simp [latchWrite, hl, hv]
      have hb : bs { s with latch := v } = bs s := rfl
      rcases offer_spec v (bs s) { s with latch := v } with ⟨h1, h2⟩ | ⟨pre, x, post, h0, h1, h2, h3⟩
      · exact .inr ⟨rfl, hv, h2, by rw [e]; simp only [latchAccept, hb, h1]⟩
      · exact .inl ⟨rfl, hv, pre, x, post, h0, h2, h3, by rw [e]; simp only [latchAccept, hb, h1]⟩

section
variable (s : State)

@[simp] theorem latchFallback_alive : (latchFallback s).alive = s.alive := by unfold latchFallback; split <;> rfl
@[simp] theorem latchFallback_latch : (latchFallback s).latch = s.latch := by unfold latchFallback; split <;> rfl
@[simp] theorem latchFallback_ramBacked : (latchFallback s).ramBacked = s.ramBacked := by
  unfold latchFallback; split <;> rfl
@[simp] theorem latchFallback_irqAgg : (latchFallback s).irqAgg = s.irqAgg := by unfold latchFallback; split <;> rfl
@[simp] theorem latchFallback_rom : (latchFallback s).rom = s.rom := by unfold latchFallback; split <;> rfl
@[simp] theorem latchFallback_devs : (latchFallback s).devs = s.devs := by unfold latchFallback; split <;> rfl
@[simp] theorem latchFallback_params : (latchFallback s).params = s.params := by unfold latchFallback; split <;> rfl
@[simp] theorem latchFallback_inbox : (latchFallback s).inbox = s.inbox := by unfold latchFallback; split <;> rfl
@[simp] theorem latchFallback_out : (latchFallback s).out = s.out := by unfold latchFallback; split <;> rfl

/-- After the fallback the built-in ROM counts as mapped (R190e). -/
@[simp] theorem latchFallback_romShadow : (latchFallback s).romShadow = true := by
  unfold latchFallback; split
  · assumption
  · rfl

theorem latchFallback_wf (h : Memory.wf memSize s.mem = true) : Memory.wf memSize (latchFallback s).mem = true := by
  unfold latchFallback; split
  · exact h
  · exact wf_shadowRestore s h

end

/-- The bytes of the shadow region after the copy (R187). -/
theorem memRead_shadowRestore_inside (s : State) {k : Nat} (hk : k < shadowLen) :
    memRead (shadowRestore s) (BitVec.ofNat 16 (shadowDst + k)) = romRead s (shadowSrc + k) := by
  have hk' : k < 0x800 := hk
  have hn : (BitVec.ofNat 16 (shadowDst + k)).toNat = shadowDst + k := by
    simp only [BitVec.toNat_ofNat, shadowDst]
    omega
  have hlen := length_shadowSource s
  unfold memRead
  rw [hn, shadowRestore_mem, Memory.get?_putBlock, if_pos (by omega)]
  simp [shadowSource, hk]

/-- Bytes outside the shadow region are as before the copy (R187). -/
theorem memRead_shadowRestore_outside (s : State) {a : Addr} (h : a.toNat < shadowDst ∨ shadowDst + shadowLen ≤ a.toNat) :
    memRead (shadowRestore s) a = memRead s a := by
  have hlen := length_shadowSource s
  unfold memRead
  rw [shadowRestore_mem, Memory.get?_putBlock, if_neg (by omega)]

end Sys2Proof.Machine
end

