-- ==== Sys2Proof/Laws/Exec.lean ====
section
/-! SUPPORT. What an operation as a whole can do. `HandlerWork` is the part of a state that handler calls and the shadow copy may
move, and how far; every bus access keeps within it, and the registers are then followed one by one. -/

namespace Sys2Proof.Machine

/-- Between `s` and `t` nothing but handler calls, trace reports, results and well-formed writes of `MEM` happened; the latch, its
flag, `ALIVE` and `RAM_BACKED` are not spoken of. -/
structure HandlerWork (s t : State) : Prop where
  rom : t.rom = s.rom
  params : t.params = s.params
  inbox : t.inbox = s.inbox
  devs : ∀ (β : Type) (f : Device → β), (∀ d dst, f { d with dst := dst } = f d) → t.devs.map f = s.devs.map f
  wf : Memory.wf memSize s.mem = true → Memory.wf memSize t.mem = true
  irq : ∃ new, t.out.calls = s.out.calls ++ new
    ∧ ∀ k, (∀ c ∈ new, ∀ d, s.devs[c.dev]? = some d → d.irqMask.getLsbD k = false) →
      t.irqAgg.getLsbD k = s.irqAgg.getLsbD k

theorem HandlerWork.refl (s : State) : HandlerWork s s :=
  ⟨rfl, rfl, rfl, fun _ _ _ => rfl, id, [], by simp, fun _ _ => rfl⟩

/-- The ownership mask of a slot is as before. -/
theorem HandlerWork.mask {s t : State} (h : HandlerWork s t) (j : Nat) :
    (t.devs[j]?).map Device.irqMask = (s.devs[j]?).map Device.irqMask := by
  have := congrArg (fun l => l[j]?) (h.devs _ Device.irqMask fun _ _ => rfl)
  simpa using this

theorem HandlerWork.trans {s t u : State} (h : HandlerWork s t) (g : HandlerWork t u) : HandlerWork s u := by
  obtain ⟨n1, e1, h1⟩ := h.irq
  obtain ⟨n2, e2, h2⟩ := g.irq
  refine ⟨g.rom.trans h.rom, g.params.trans h.params, g.inbox.trans h.inbox,
    fun β f hf => (g.devs β f hf).trans (h.devs β f hf), g.wf ∘ h.wf, n1 ++ n2, by rw [e2, e1, List.append_assoc], ?_⟩
  intro k hk
  rw [h2 k, h1 k fun c hc => hk c (List.mem_append_left _ hc)]
  intro c hc d hd
  have := h.mask c.dev
  rw [hd] at this
  cases hs : s.devs[c.dev]? with
  | none => rw [hs] at this; cases this
  | some e =>
    rw [hs] at this
    rw [show d.irqMask = e.irqMask by simpa using this]
    exact hk c (List.mem_append_right _ hc) e hs

/-- A change of the fields that `HandlerWork` does not speak of. -/
theorem HandlerWork.of_eq {s t : State} (h1 : t.rom = s.rom) (h2 : t.params = s.params) (h3 : t.inbox = s.inbox)
    (h4 : t.devs = s.devs) (h5 : t.mem = s.mem) (h6 : t.out.calls = s.out.calls) (h7 : t.irqAgg = s.irqAgg) :
    HandlerWork s t :=
  ⟨h1, h2, h3, fun _ _ _ => by rw [h4], fun h => by rwa [h5], [], by simp [h6], fun _ _ => by rw [h7]⟩

/-- Answered calls of devices that stand in their slots. -/
theorem HandlerWork.settleAll {cs : List Settled} {s : State}
    (h : ∀ c ∈ cs, ∃ d, s.devs[c.i]? = some d ∧ d.irqMask = c.d.irqMask) : HandlerWork s (settleAll cs s) := by
  refine ⟨settleAll_rom _ _, settleAll_params _ _, settleAll_inbox _ _, fun β f hf => settleAll_map cs s f hf,
    settleAll_wf cs s, _, settleAll_calls _ _, fun k hk => settleAll_irq_other fun c hc => ?_⟩
  obtain ⟨d, hd, hm⟩ := h c hc
  rw [← hm]
  exact hk ⟨c.i, c.req, c.ans⟩ (List.mem_map.2 ⟨c, hc, rfl⟩) d hd

/-- Answered calls of the members of a search list. -/
theorem HandlerWork.calls {p : Device → Bool} {s : State} {xs : List (Nat × Device)} (mk : Nat × Device → Settled)
    (hmk : ∀ x, (mk x).i = x.1 ∧ (mk x).d = x.2) (hx : ∀ x ∈ xs, x ∈ select p s) :
    HandlerWork s (Machine.settleAll (xs.map mk) s) := by
  refine HandlerWork.settleAll fun c hc => ?_
  obtain ⟨x, hx', rfl⟩ := List.mem_map.1 hc
  exact ⟨x.2, by rw [(hmk x).1]; exact (mem_select.1 (hx x hx')).1, by rw [(hmk x).2]⟩

theorem HandlerWork.report (s : State) (i : TraceItem) : HandlerWork s (Machine.report i s) :=
  .of_eq (report_rom s i) (report_params s i) (report_inbox s i) (report_devs s i) (report_mem s i) (report_calls s i)
    (report_irqAgg s i)

theorem HandlerWork.finish (s : State) (r : OpResult) : HandlerWork s (Machine.finish r s) :=
  .of_eq rfl rfl rfl rfl rfl rfl rfl

theorem HandlerWork.broadcast {p : Device → Bool} {s : State} {xs : List (Nat × Device)} (h : Device → Reply Unit)
    (req : Request) (hx : ∀ x ∈ xs, x ∈ select p s) : HandlerWork s (Machine.broadcast h req xs s) := by
  rw [broadcast_eq]
  exact HandlerWork.calls (p := p) _ (fun _ => ⟨rfl, rfl⟩) hx

theorem allSlots_eq_select (s : State) : allSlots s = select (fun _ => true) s := by
  simp [allSlots, select]

theorem HandlerWork.fallback (s : State) : HandlerWork s (latchFallback s) :=
  ⟨latchFallback_rom _, latchFallback_params _, latchFallback_inbox _, fun _ _ _ => by rw [latchFallback_devs],
    latchFallback_wf _, [], by simp, fun _ _ => by rw [latchFallback_irqAgg]⟩

/-- The transition keeps within the work of handlers and the copy (R185). -/
theorem HandlerWork.latchWrite (v : Byte) (s : State) : HandlerWork s (Machine.latchWrite v s) := by
  have pre : HandlerWork s { s with latch := v } := .of_eq rfl rfl rfl rfl rfl rfl rfl
  rcases latchWrite_spec v s with ⟨_, h⟩ | ⟨_, _, h⟩ | ⟨_, _, pr, x, po, h0, _, _, h⟩ | ⟨_, _, _, h⟩
  · rw [h]; exact .report s _
  · rw [h]; exact .refl s
  · rw [h]
    refine (pre.trans (HandlerWork.calls (p := inBs) (bankCall v) (fun _ => ⟨rfl, rfl⟩) fun y hy => ?_)).trans
      (.of_eq rfl rfl rfl rfl rfl rfl rfl)
    have : y ∈ bs s := by rw [h0]; simp at hy ⊢; tauto
    exact this
  · rw [h]
    exact (pre.trans (HandlerWork.calls (p := inBs) (xs := bs s) (bankCall v) (fun _ => ⟨rfl, rfl⟩) fun y hy => hy)).trans
      (.fallback _)

/-! Whom the transition asks. -/

theorem mem_bs_of_offeredTo {v : Byte} {now : Device → DState} {s : State} {x : Nat × Device} (h : x ∈ offeredTo v now s) :
    x ∈ bs s := by
  unfold offeredTo at h
  split at h
  · exact mem_of_mem_upToFirst h
  · simp at h

theorem offeredTo_rising (v : Byte) (now : Device → DState) (s : State) :
    (offeredTo v now s).Pairwise (fun x y => x.1 < y.1) := by
  unfold offeredTo
  split
  · exact upToFirst_pairwise (select_rising _ _)
  · exact List.Pairwise.nil

/-- Whom the transition asks after every device of a search list that takes in `BS` has been called. -/
theorem offeredTo_after_calls (v : Byte) (q : Device → Bool) (mk : Nat × Device → Settled) (f : Device → DState) (s : State)
    (hmk : ∀ x, (mk x).i = x.1 ∧ (mk x).dst = f x.2) (hq : ∀ d, inBs d = true → q d = true) :
    offeredTo v Device.dst (settleAll ((select q s).map mk) s)
      = (offeredTo v f s).map (fun x => (x.1, { x.2 with dst := f x.2 })) := by
  have hb : bs (settleAll ((select q s).map mk) s) = (bs s).map (fun x => (x.1, { x.2 with dst := f x.2 })) :=
    select_after_calls inBs q mk f s hmk (fun _ _ => rfl) hq
  unfold offeredTo
  rw [hb, settleAll_latch, upToFirst_map]
  split <;> rfl

theorem settleAll_withLatch (cs : List Settled) (s : State) (l : Byte) :
    settleAll cs { s with latch := l } = { settleAll cs s with latch := l } := by
  induction cs generalizing s with
  | nil => rfl
  | cons c cs ih => exact ih (settle s c.i c.d c.req c.ans c.dst c.effs)

/-- What the transition does beside its two registers (R185, R188): it asks the devices of `offeredTo`, each once and in order,
and then makes the shadow copy exactly when the code is legal and new, nobody takes it and `ROM_SHADOW` is false. -/
theorem latchWrite_handlers (v : Byte) (s : State) :
    (latchWrite v s).devs = (settleAll ((offeredTo v Device.dst s).map (bankCall v)) s).devs
    ∧ (latchWrite v s).out.calls = (settleAll ((offeredTo v Device.dst s).map (bankCall v)) s).out.calls
    ∧ (latchWrite v s).irqAgg = (settleAll ((offeredTo v Device.dst s).map (bankCall v)) s).irqAgg
    ∧ (latchWrite v s).mem
      = if legal v = true ∧ v ≠ s.latch ∧ (∀ y ∈ bs s, (y.2.model.bankSelect y.2.dst v).ans = .notHandled)
          ∧ s.romShadow = false
        then (shadowRestore (settleAll ((offeredTo v Device.dst s).map (bankCall v)) s)).mem
        else (settleAll ((offeredTo v Device.dst s).map (bankCall v)) s).mem := by
  rcases latchWrite_spec v s with ⟨h1, h⟩ | ⟨h1, h2, h⟩ | ⟨h1, h2, pre, x, post, h3, h4, h5, h⟩ | ⟨h1, h2, h3, h⟩ <;> rw [h]
  · simp [offeredTo, h1, settleAll]
  · simp [offeredTo, ← h2, settleAll]
  · have ho : offeredTo v Device.dst s = pre ++ [x] := by
      rw [offeredTo, if_pos ⟨h1, h2⟩, h3, upToFirst_of_first (fun y hy => by simp [h5 y hy]) (by simpa using h4)]
    have hn : ¬ ∀ y ∈ bs s, (y.2.model.bankSelect y.2.dst v).ans = .notHandled := fun hn => by
      rw [hn x (by simp [h3])] at h4; cases h4
    rw [ho, settleAll_withLatch, if_neg fun c => hn c.2.2.1]
    exact ⟨rfl, rfl, rfl, rfl⟩
  · have ho : offeredTo v Device.dst s = bs s := by
      rw [offeredTo, if_pos ⟨h1, h2⟩, upToFirst_of_none fun y hy => by simp [h3 y hy]]
    rw [ho, settleAll_withLatch]
    refine ⟨by simp, by simp, by simp, ?_⟩
    cases hr : s.romShadow with
    | true => simp [latchFallback, hr]
    | false =>
      rw [if_pos ⟨h1, h2, h3, rfl⟩]
      simp only [latchFallback, settleAll_romShadow, hr, Bool.false_eq_true, if_false, shadowRestore_mem]
      rfl

/-! Reads. -/

theorem exclusiveRead_next {w : Window} {a : Addr} {nse : Bool} {p : Device → Bool} {x : Nat × Device} {s t : State}
    (hx : x ∈ select p s) (h : exclusiveRead w a nse x s = .next t) : HandlerWork s t ∧ CoreKept s t := by
  simp only [exclusiveRead] at h
  split at h
  · cases h
  · cases h
    refine ⟨HandlerWork.trans (HandlerWork.settleAll (cs := [⟨x.1, x.2, _, _, _, _⟩]) ?_) (.finish _ _), by simp [CoreKept]⟩
    simp only [List.mem_singleton, forall_eq]
    exact ⟨x.2, (mem_select.1 hx).1, rfl⟩

/-- A D1 read keeps every register, whatever ends it, as long as the end does (R144, R145). -/
theorem readD1_next {a : Addr} {nse : Bool} {f : State → State} {s t : State}
    (hf : ∀ u, HandlerWork u (f u) ∧ CoreKept u (f u)) (h : readD1 a nse f s = .next t) :
    HandlerWork s t ∧ CoreKept s t := by
  unfold readD1 at h
  split at h
  · rename_i x more hx
    exact exclusiveRead_next (p := inXd1) (by show x ∈ xd1 s; rw [hx]; simp) h
  · rcases coopRead_spec a nse (cd1 s) s with ⟨h1, _⟩ | ⟨h1, _⟩ | ⟨pre, x, post, v, h0, h1, _⟩
    · rw [h1] at h; cases h
    · rw [h1] at h; cases h
      have w := HandlerWork.calls (p := inCd1) (xs := cd1 s) (s := s) (readCall a nse) (fun _ => ⟨rfl, rfl⟩) fun _ h => h
      refine ⟨w.trans (hf _).1, ?_⟩
      obtain ⟨c1, c2, c3, c4, c5, c6, c7⟩ := (hf (settleAll ((cd1 s).map (readCall a nse)) s)).2
      simp only [settleAll_alive, settleAll_latch, settleAll_romShadow, settleAll_ramBacked, settleAll_rom, settleAll_params,
        settleAll_inbox] at c1 c2 c3 c4 c5 c6 c7
      exact ⟨c1, c2, c3, c4, c5, c6, c7⟩
    · rw [h1] at h; cases h
      refine ⟨(HandlerWork.calls (p := inCd1) (readCall a nse) (fun _ => ⟨rfl, rfl⟩) fun y hy => ?_).trans (.finish _ _),
        by simp [CoreKept]⟩
      have : y ∈ cd1 s := by rw [h0]; simp at hy ⊢; tauto
      exact this

theorem openBusRead_work (a : Addr) (s : State) : HandlerWork s (openBusRead a s) ∧ CoreKept s (openBusRead a s) :=
  ⟨(HandlerWork.report s _).trans (.finish _ _), by simp [openBusRead, CoreKept]⟩

theorem statusAnswer_work (nse : Bool) (s : State) :
    HandlerWork s (statusAnswer nse s) ∧ CoreKept s (statusAnswer nse s) := by
  cases nse with
  | true => exact ⟨.finish s _, by simp [statusAnswer, statusRead, CoreKept]⟩
  | false =>
    refine ⟨?_, by simp [statusAnswer, statusRead, statusCollect_eq, CoreKept]⟩
    have w := HandlerWork.calls (p := inIs) (s := s) (xs := irqStatusSlots s) statusCall (fun _ => ⟨rfl, rfl⟩) fun _ h => h
    simpa [statusAnswer, statusRead, statusCollect_eq] using w.trans (.finish _ _)

theorem readD67_next {w : Window} {a : Addr} {nse : Bool} {s t : State} (h : readD67 w a nse s = .next t) :
    HandlerWork s t ∧ CoreKept s t := by
  unfold readD67 at h
  split at h
  · rename_i x more hx
    exact exclusiveRead_next (p := inXd67) (by show x ∈ xd67 s; rw [hx]; simp) h
  · split at h
    · cases h; exact ⟨.finish s _, by simp [CoreKept]⟩
    · cases h; exact openBusRead_work a s

/-! Writes. -/

theorem deliverWrite_work {w : Window} {a : Addr} {v : Byte} {p : Device → Bool} {s : State} {xs : List (Nat × Device)}
    (hx : ∀ x ∈ xs, x ∈ select p s) :
    HandlerWork s (deliverWrite w a v xs s) ∧ CoreKept s (deliverWrite w a v xs s) := by
  refine ⟨HandlerWork.broadcast (p := p) _ _ hx, ?_⟩
  simp [deliverWrite, broadcast_eq, CoreKept]

theorem writeD67_work (w : Window) (a : Addr) (v : Byte) (s : State) :
    HandlerWork s (writeD67 w a v s) ∧ CoreKept s (writeD67 w a v s) := by
  unfold writeD67
  split
  · rename_i x more hx
    refine deliverWrite_work (p := inXd67) fun y hy => ?_
    rw [List.mem_singleton.1 hy]
    show x ∈ xd67 s
    rw [hx]; simp
  · split
    · refine ⟨⟨rfl, rfl, rfl, fun _ _ _ => rfl, wf_memWrite s a v, [], by simp, fun _ _ => rfl⟩, by simp [CoreKept]⟩
    · exact ⟨.report s _, by simp [unclaimedWrite, CoreKept]⟩

theorem writeD1_work (a : Addr) (v : Byte) (s : State) :
    HandlerWork s (writeD1 a v s) ∧ CoreKept s (writeD1 a v s) := by
  unfold writeD1
  split
  · rename_i x more hx
    refine deliverWrite_work (p := inXd1) fun y hy => ?_
    rw [List.mem_singleton.1 hy]
    show x ∈ xd1 s
    rw [hx]; simp
  · split
    · exact ⟨.report s _, by simp [unclaimedWrite, CoreKept]⟩
    · exact deliverWrite_work (p := inCd1) fun y hy => hy

/-- What a write at the latch address is (R150): swallowed by an exclusive device, or delivered and then the transition. -/
theorem writeLatchAddr_cases (v : Byte) (s : State) :
    (xd1 s ≠ [] ∧ HandlerWork s (writeLatchAddr v s) ∧ CoreKept s (writeLatchAddr v s))
    ∨ (xd1 s = [] ∧ ∃ u, HandlerWork s u ∧ CoreKept s u ∧ writeLatchAddr v s = latchWrite v u) := by
  unfold writeLatchAddr
  split
  · rename_i x more hx
    refine .inl ⟨by simp [hx], deliverWrite_work (p := inXd1) fun y hy => ?_⟩
    rw [List.mem_singleton.1 hy]
    show x ∈ xd1 s
    rw [hx]; simp
  · rename_i hx
    obtain ⟨h1, h2⟩ := deliverWrite_work (w := .d1) (a := s.params.latchAddr) (v := v) (p := inCd1) (s := s) (xs := cd1 s)
      fun y hy => hy
    exact .inr ⟨hx, _, h1, h2, rfl⟩

/-- The two registers the transition moves (R189): both stay, or the latch takes a new legal code and the flag follows. -/
theorem latchWrite_registers (v : Byte) (s : State) :
    (latchWrite v s).alive = s.alive ∧ (latchWrite v s).ramBacked = s.ramBacked
    ∧ (((latchWrite v s).latch = s.latch ∧ (latchWrite v s).romShadow = s.romShadow)
      ∨ (legal v = true ∧ v ≠ s.latch ∧ (latchWrite v s).latch = v)) := by
  rcases latchWrite_spec v s with ⟨_, h⟩ | ⟨_, _, h⟩ | ⟨h1, h2, pr, x, po, _, _, _, h⟩ | ⟨h1, h2, _, h⟩ <;> rw [h]
  · simp
  · simp
  · simp [h1, h2]
  · simp [h1, h2]

end Sys2Proof.Machine
end

