-- ==== Sys2Proof/Tests/Slice0.lean ====
section
/-! SUPPORT. Tests: the well-formedness checks refuse an ill-formed term each; words written out from the encodings decode to
their operations; single steps give what the spec's vectors (95_test_vectors.md) give; and the premises of each statement are
met together by a concrete state. Expected results come from the spec's text, whose vector or rule each test names. -/

namespace Sys2Proof.Tests

open Sys2Proof Sys2Proof.Machine

/-! Helpers. -/

/-- A device in slot `i`, enabled, with the default ownership mask and the initial state of its fixture. -/
def slot (i : Nat) (m : DevModel) : Device :=
  ⟨m, true, [], defaultIrqMask i, if m = .x67 then freshX67 else freshDState⟩

/-- The slots of a list of fixtures, numbered from `i`. -/
def slots : Nat → List DevModel → List Device
  | _, [] => []
  | i, m :: ms => slot i m :: slots (i + 1) ms

/-- A live core with the listed fixtures, all enabled. -/
def bench (ms : List DevModel) : State := { State.reset with devs := slots 0 ms }

/-- The core registers set by hand: (latch, ROM shadow, RAM backed, aggregate). -/
def bench4 (ms : List DevModel) (l : Byte) (sh rb : Bool) (q : Byte) : State :=
  { bench ms with latch := l, romShadow := sh, ramBacked := rb, irqAgg := q }

/-- The state after an outcome, if it is a next state. -/
def nextOf : StepOutcome → Option State
  | .next t => some t
  | .fault _ => none
  | .refused _ => none

/-- The reason of an outcome, if it is a refusal. -/
def reasonOf : StepOutcome → Option Refusal
  | .next _ => none
  | .fault _ => none
  | .refused r => some r

/-- A view of the state after one operation. -/
def after {α : Type} (i : Instr) (s : State) (f : State → α) : Option α := (nextOf (exec i s)).map f

/-- (ALIVE, LATCH, ROM_SHADOW, RAM_BACKED, IRQ_AGG), as the vectors write a core state. -/
def regs (s : State) : Bool × Byte × Bool × Bool × Byte := (s.alive, s.latch, s.romShadow, s.ramBacked, s.irqAgg)

/-- The device state of a slot. -/
def dstOf (i : Nat) (s : State) : Option DState := (s.devs[i]?).map Device.dst

/-- The names of the handlers called and the devices, in order. -/
def callsOf (s : State) : List (Nat × Request) := s.out.calls.map fun c => (c.dev, c.req)

/-! Well-formedness: each check refuses an ill-formed term. -/

theorem test_wf_rdD1_latch_address : WellFormed Params.standard 8 (.rdD1 0xD1FF false) = false := by decide
theorem test_wf_rdD1_other_window : WellFormed Params.standard 8 (.rdD1 0xD600 false) = false := by decide
theorem test_wf_rdD6_below : WellFormed Params.standard 8 (.rdD6 0xD5FF true) = false := by decide
theorem test_wf_rdD7_above : WellFormed Params.standard 8 (.rdD7 0xD800 false) = false := by decide
theorem test_wf_rdNosel_inside : WellFormed Params.standard 8 (.rdNosel 0xD100 false) = false := by decide
theorem test_wf_wrD1_latch_address : WellFormed Params.standard 8 (.wrD1 0xD1FF 1) = false := by decide
theorem test_wf_wrD6_other_window : WellFormed Params.standard 8 (.wrD6 0xD700 1) = false := by decide
theorem test_wf_wrD7_other_window : WellFormed Params.standard 8 (.wrD7 0xD6FF 1) = false := by decide
theorem test_wf_wrNosel_latch_address : WellFormed Params.standard 8 (.wrNosel 0xD1FF 1) = false := by decide
theorem test_wf_irqSet_absent : WellFormed Params.standard 2 (.irqSet 2 1) = false := by decide
theorem test_wf_irqClr_absent : WellFormed Params.standard 2 (.irqClr 7 1) = false := by decide
theorem test_wf_accepts_edges :
    WellFormed Params.standard 2 (.rdD1 0xD1FE false) = true ∧ WellFormed Params.standard 2 (.rdD6 0xD600 true) = true
    ∧ WellFormed Params.standard 2 (.rdD7 0xD7FF true) = true ∧ WellFormed Params.standard 2 (.wrNosel 0xD0FF 0) = true
    ∧ WellFormed Params.standard 2 (.irqSet 1 0) = true := by decide

/-- The constraints of R51 to R53 on the parameters, each broken once. -/
theorem test_params_checks :
    Params.standard.ok = true
    ∧ ({ Params.standard with d1Lo := 0xD200 } : Params).ok = false
    ∧ ({ Params.standard with d6Hi := 0xD500 } : Params).ok = false
    ∧ ({ Params.standard with d7Lo := 0xD720, d7Hi := 0xD710 } : Params).ok = false
    ∧ ({ Params.standard with d6Lo := 0xD1FF } : Params).ok = false
    ∧ ({ Params.standard with d7Lo := 0xD6FF } : Params).ok = false
    ∧ ({ Params.standard with d7Hi := 0xD800 } : Params).ok = false
    ∧ ({ Params.standard with latchAddr := 0xD200 } : Params).ok = false
    ∧ ({ Params.standard with romSize := 0x1FFF } : Params).ok = false := by decide

/-- The canonical form of a memory, and what breaks it. -/
theorem test_memory_form :
    Memory.wf memSize [(0xD600, 1), (0xD601, 2), (0xFFFF, 3)] = true
    ∧ Memory.wf memSize [(0xD601, 2), (0xD600, 1)] = false
    ∧ Memory.wf memSize [(0xD600, 1), (0xD600, 2)] = false
    ∧ Memory.wf memSize [(0x10000, 1)] = false := by decide

/-- A write keeps the addresses rising, in front, in the middle, over an entry and at the end. -/
theorem test_memory_put :
    Memory.put [(5, 1), (9, 2)] 3 7 = [(3, 7), (5, 1), (9, 2)]
    ∧ Memory.put [(5, 1), (9, 2)] 7 7 = [(5, 1), (7, 7), (9, 2)]
    ∧ Memory.put [(5, 1), (9, 2)] 9 7 = [(5, 1), (9, 7)]
    ∧ Memory.put [(5, 1), (9, 2)] 10 7 = [(5, 1), (9, 2), (10, 7)] := by decide

/-! Decoding: words written out from R81 to R87 (vectors V-E-01 to V-E-33). -/

/-- The decoder with the standard parameters and `n` devices, a record of zeros beside the word. -/
def dec (n : Nat) (w : EventWord) : Decoded := decode Params.standard n w zeroRec

theorem test_decode_rdLatch : dec 0 0x0000D1FF00 = .instr (.rdLatch false) ∧ dec 0 0x0800D1FF00 = .instr (.rdLatch true) := by
  decide
theorem test_decode_rdD1 :
    dec 0 0x0000D1FE00 = .instr (.rdD1 0xD1FE false) ∧ dec 0 0x0000D10000 = .instr (.rdD1 0xD100 false) := by decide
theorem test_decode_rdD6 : dec 0 0x0800D6FF00 = .instr (.rdD6 0xD6FF true) := by decide
theorem test_decode_rdD7 : dec 0 0x0000D70000 = .instr (.rdD7 0xD700 false) := by decide
theorem test_decode_rdNosel :
    dec 0 0x0000D0FF00 = .instr (.rdNosel 0xD0FF false) ∧ dec 0 0x0000D20000 = .instr (.rdNosel 0xD200 false)
    ∧ dec 0 0x0000D80000 = .instr (.rdNosel 0xD800 false) := by decide
theorem test_decode_wrLatch : dec 0 0x1000D1FF80 = .instr (.wrLatch 0x80) := by decide
theorem test_decode_wrD1 : dec 0 0x1000D1F001 = .instr (.wrD1 0xD1F0 0x01) := by decide
theorem test_decode_wrD6 : dec 0 0x1000D60042 = .instr (.wrD6 0xD600 0x42) := by decide
theorem test_decode_wrD7 : dec 0 0x1000D7FF5A = .instr (.wrD7 0xD7FF 0x5A) := by decide
theorem test_decode_wrNosel : dec 0 0x1000FFFFFF = .instr (.wrNosel 0xFFFF 0xFF) := by decide
theorem test_decode_irqSet : dec 2 0x2100000002 = .instr (.irqSet 1 0x02) := by decide
theorem test_decode_irqClr : dec 8 0x37000000FF = .instr (.irqClr 7 0xFF) := by decide
theorem test_decode_rambSet :
    dec 0 0x4000000001 = .instr (.rambSet true) ∧ dec 0 0x4000000000 = .instr (.rambSet false) := by decide
theorem test_decode_save : dec 0 0x5000000000 = .instr .save := by decide
theorem test_decode_load :
    decode Params.standard 0 0x6000000000 ⟨0x10, 0, 1⟩ = .instr (.load ⟨0x10, 0, 1⟩) := by decide
theorem test_decode_reset : dec 0 0x7000000000 = .instr .reset := by decide
theorem test_decode_pon : dec 0 0x8000000000 = .instr .pon := by decide
theorem test_decode_teardown : dec 0 0x9000000000 = .instr .teardown := by decide

theorem test_decode_reserved_kinds :
    dec 8 0xA000000000 = .invalid .reservedKind ∧ dec 8 0xF000000000 = .invalid .reservedKind := by decide
theorem test_decode_write_with_nse : dec 8 0x1800D1FF10 = .invalid .nseNotZero := by decide
theorem test_decode_read_with_data : dec 8 0x0000D1FF01 = .invalid .readDataNotZero := by decide
theorem test_decode_read_with_dev : dec 8 0x0100D10000 = .invalid .devNotZero := by decide
theorem test_decode_read_with_pad : dec 8 0x0001D10000 = .invalid .padNotZero := by decide
theorem test_decode_irq_with_high_mask : dec 8 0x2000000100 = .invalid .maskHighNotZero := by decide
theorem test_decode_irq_with_nse : dec 8 0x2800000001 = .invalid .nseNotZero := by decide
theorem test_decode_ramb_with_high_payload : dec 8 0x4000000002 = .invalid .payloadNotZero := by decide
theorem test_decode_save_with_payload : dec 8 0x5000000001 = .invalid .payloadNotZero := by decide
theorem test_decode_irq_of_absent_device : dec 2 0x2200000004 = .invalid .noSuchDevice := by decide

/-- The examples of R100. -/
theorem test_encode_examples :
    encodeWord Params.standard (.rdLatch false) = 0x0000D1FF00 ∧ encodeWord Params.standard (.rdLatch true) = 0x0800D1FF00
    ∧ encodeWord Params.standard (.wrLatch 0x10) = 0x1000D1FF10 ∧ encodeWord Params.standard (.irqSet 1 0x02) = 0x2100000002 := by
  decide

/-- Other bounds than the standard ones move the windows (R51: the bounds are parameters). -/
theorem test_window_moved :
    window { Params.standard with d1Lo := 0x1000, d1Hi := 0x1002, latchAddr := 0x1001 } 0x1001 = .latchLoc
    ∧ window { Params.standard with d1Lo := 0x1000, d1Hi := 0x1002, latchAddr := 0x1001 } 0x1002 = .d1
    ∧ window { Params.standard with d1Lo := 0x1000, d1Hi := 0x1002, latchAddr := 0x1001 } 0xD1FF = .nosel := by decide

/-! Single steps. -/

/-- Scenario S-C: contributions 0x01 and 0x00, normal and suppressed. -/
theorem test_rdLatch_status :
    after (.rdLatch false) (bench [.stat 0x01, .stat 0x00]) (fun t => (cpuRdata t, (dstOf 1 t).map DState.nIS))
      = some (some 0x01, some 1)
    ∧ after (.rdLatch true) (bench [.stat 0x01, .stat 0x00]) (fun t => (cpuRdata t, (dstOf 1 t).map DState.nIS))
      = some (some 0x00, some 0) := by decide

/-- V-L-21: 0x81 OR 0x12, the BANK device contributes nothing. V-D-14 step 2: an exclusive device hides the status. -/
theorem test_rdLatch_sources :
    after (.rdLatch false) (bench [.stat 0x81, .bank 0x04 0x44, .stat 0x12]) (fun t => t.out.result)
      = some (.data 0x93 .status)
    ∧ after (.rdLatch false) (bench [.stat 0x01, .x1]) (fun t => (t.out.result, callsOf t))
      = some (.data 0xF0 (.excl 1), [(1, .readX .d1 0xD1FF false)]) := by decide

/-- The two devices of V-D-10 after its step 1. -/
def regBench : State :=
  { bench [.reg 0xD110, .reg 0xD110] with
    devs := [⟨.reg 0xD110, true, [], 1, { freshDState with reg := 0x07, nW := 1 }⟩,
             ⟨.reg 0xD110, true, [], 2, { freshDState with reg := 0x07, nW := 1 }⟩] }

/-- V-D-10 step 2: the first device answers and moves on, the second is not invoked. -/
theorem test_rdD1_first_answer_wins :
    after (.rdD1 0xD110 false) regBench
      (fun t => (t.out.result, (dstOf 0 t).map (fun d => (d.reg, d.nRd)), (dstOf 1 t).map (fun d => (d.reg, d.nRd))))
      = some (.data 0x07 (.coop 0), some (0x08, 1), some (0x07, 0)) := by decide

/-- V-D-12: a handled 0xFF is not open bus, and a suppressed read moves no register. V-D-01: open bus. -/
theorem test_rdD1_handled_or_open :
    after (.rdD1 0xD110 true) { regBench with devs := [⟨.reg 0xD110, true, [], 1, { freshDState with reg := 0xFF }⟩] }
      (fun t => (t.out.result, (dstOf 0 t).map DState.reg)) = some (.data 0xFF (.coop 0), some 0xFF)
    ∧ after (.rdD1 0xD100 false) (bench []) (fun t => t.out.result) = some (.data 0xFF .openBus) := by decide

/-- Scenario S-D steps 1 and 4. -/
theorem test_rdD6_ram_or_open :
    after (.rdD6 0xD600 false) { bench [] with mem := [(0xD600, 0xEE)] } cpuRdata = some (some 0xFF)
    ∧ after (.rdD6 0xD600 false) { bench4 [] 0 true true 0 with mem := [(0xD600, 0xEE)] } cpuRdata = some (some 0xEE) := by
  decide

/-- V-D-16 step 4: the device owns the window whatever `RAM_BACKED` is. V-D-17: cooperative devices are not consulted. -/
theorem test_rdD6_exclusive :
    after (.rdD6 0xD600 false) (bench4 [.x67] 0 true true 0) (fun t => t.out.result) = some (.data 0x00 (.excl 0))
    ∧ after (.rdD6 0xD600 false) (bench [.reg 0xD600]) (fun t => (cpuRdata t, callsOf t)) = some (some 0xFF, []) := by decide

/-- The example of R147, and V-D-04. -/
theorem test_rdD7_ram_or_open :
    after (.rdD7 0xD7FF false) { bench4 [] 0 true true 0 with mem := [(0xD7FF, 0x5A)] } cpuRdata = some (some 0x5A)
    ∧ after (.rdD7 0xD7FF true) (bench []) cpuRdata = some (some 0xFF) := by decide

/-- V-D-05: no data outside the windows. -/
theorem test_rdNosel_no_data :
    after (.rdNosel 0xD200 false) (bench [.reg 0xD200]) (fun t => (cpuSel t, cpuRdata t, callsOf t))
      = some (some false, none, []) := by decide

/-- Scenario S-A, and V-L-04: the first device takes the code and the second is not offered it. -/
theorem test_wrLatch_cases :
    after (.wrLatch 0x10) (bench []) regs = some (true, 0x10, true, false, 0x00)
    ∧ after (.wrLatch 0x04) (bench [.bank 0x04 0x44, .bank 0x08 0x88]) (fun t => (t.latch, t.romShadow, callsOf t))
      = some (0x04, false, [(0, .write .d1 0xD1FF 0x04), (1, .write .d1 0xD1FF 0x04), (0, .bankSelect 0x04)]) := by decide

/-- V-L-07 (reject) and V-L-06 (redundant): the `Write` handler runs, no `BankSelect` does. -/
theorem test_wrLatch_reject_and_redundant :
    after (.wrLatch 0x0C) (bench4 [.bank 0x08 0x88] 0x08 false false 0) (fun t => (t.latch, t.romShadow, callsOf t))
      = some (0x08, false, [(0, .write .d1 0xD1FF 0x0C)])
    ∧ after (.wrLatch 0x08) (bench4 [.bank 0x08 0x88] 0x08 false false 0) (fun t => (t.latch, t.romShadow, callsOf t))
      = some (0x08, false, [(0, .write .d1 0xD1FF 0x08)]) := by decide

/-- The example of R185: the shadow copy runs and the flag is set (first byte of ROMFIX). -/
theorem test_latchWrite_copies :
    (latchWrite 0x00 { bench4 [] 0x04 false false 0 with rom := [(0x1800, 0xA5)] }).romShadow = true
    ∧ (shadowRestore { bench4 [] 0x04 false false 0 with rom := [(0x1800, 0xA5)] }).mem.head? = some (0xD800, 0xA5) := by
  decide +kernel

/-- V-L-12: the mapping effect of BANK reaches the whole shadow region (its first and last byte). -/
theorem test_bank_effects :
    (bankEffects 0x44).head? = some (.memWrite 0xD800 0x44) ∧ (bankEffects 0x44).getLast? = some (.memWrite 0xDFFF 0x44) := by
  decide +kernel

/-- V-D-10 step 1: both devices receive the write. P3 step 3: the handler raises its own device's bit only. -/
theorem test_wrD1_reaches_everybody :
    after (.wrD1 0xD110 0x07) (bench [.reg 0xD110, .reg 0xD110])
      (fun t => ((dstOf 0 t).map DState.reg, (dstOf 1 t).map DState.reg)) = some (some 0x07, some 0x07)
    ∧ after (.wrD1 0xD1F0 0x01) (bench [.statc 0x40]) (fun t => (t.irqAgg, irqLine t, (dstOf 0 t).map DState.flag))
      = some (0x01, true, some true) := by decide

/-- Scenario S-D steps 2 and 5. -/
theorem test_wrD6_ram_or_nothing :
    after (.wrD6 0xD600 0x42) { bench [] with mem := [(0xD600, 0xEE)] } State.mem = some [(0xD600, 0xEE)]
    ∧ after (.wrD6 0xD600 0x42) { bench4 [] 0 true true 0 with mem := [(0xD600, 0xEE)] } State.mem = some [(0xD600, 0x42)] := by
  decide

/-- V-D-16 step 2: the exclusive device takes the write and `MEM` stays. -/
theorem test_wrD6_exclusive :
    after (.wrD6 0xD600 0x11) { bench4 [.x67] 0 true true 0 with mem := [(0xD600, 0xEE)] }
      (fun t => (t.mem, (dstOf 0 t).map (fun d => d.ram.headD 0))) = some ([(0xD600, 0xEE)], some 0x11) := by decide

/-- V-D-07 step 6, and the example of R152. -/
theorem test_wrD7_ram_or_nothing :
    after (.wrD7 0xD7FF 0x5A) (bench4 [] 0 true true 0) State.mem = some [(0xD7FF, 0x5A)]
    ∧ after (.wrD7 0xD700 0x01) (bench []) State.mem = some [] := by decide

/-- V-D-08. -/
theorem test_wrNosel_ignored :
    after (.wrNosel 0xD800 0x00) { bench [] with mem := [(0xD800, 0xA5)] } (fun t => (t.mem, cpuSel t))
      = some ([(0xD800, 0xA5)], some false) := by decide

/-- V-I-02: only the owned bit is set. V-I-03: only the owned bit is cleared. V-I-04: a foreign bit is not cleared. -/
theorem test_irq_owned_bits :
    after (.irqSet 1 0xFF) (bench4 [.stat 1, .stat 0] 0 true false 0x01) State.irqAgg = some 0x03
    ∧ after (.irqClr 0 0xFF) (bench4 [.stat 1, .stat 0] 0 true false 0x03) State.irqAgg = some 0x02
    ∧ after (.irqClr 0 0x02) (bench4 [.stat 1, .stat 0] 0 true false 0x02) State.irqAgg = some 0x02 := by decide

/-- V-I-08: the enable input does not gate the device's own request. V-I-09: no such device. -/
theorem test_irq_not_gated :
    after (.irqClr 1 0x02) { bench4 [.stat 1, .stat 0] 0 true false 0x02 with
        devs := [slot 0 (.stat 1), { slot 1 (.stat 0) with en := false }] } (fun t => (t.irqAgg, irqLine t)) = some (0x00, false)
    ∧ reasonOf (exec (.irqSet 2 0x04) (bench [.stat 1, .stat 0])) = some .noSuchDevice := by decide

/-- V-H-07. -/
theorem test_rambSet : after (.rambSet true) (bench4 [] 0x04 false false 0x02) regs = some (true, 0x04, false, true, 0x02) := by
  decide

/-- V-H-02. -/
theorem test_save :
    after .save (bench4 [] 0x04 false true 0x02) (fun t => t.out.result) = some (.snapshot ⟨0x04, 1, 2⟩) := by decide

/-- V-H-03. -/
theorem test_load :
    after (.load ⟨0x10, 0, 0x01⟩) (bench4 [] 0x04 false true 0x02) (fun t => (regs t, irqLine t))
      = some ((true, 0x10, false, false, 0x01), true) := by decide

/-- V-H-05. -/
theorem test_load_refuses :
    reasonOf (exec (.load ⟨0x03, 0, 0⟩) (bench [])) = some .recordLatchIllegal
    ∧ reasonOf (exec (.load ⟨0x04, 2, 0⟩) (bench [])) = some .recordRambNotBit
    ∧ reasonOf (exec (.load ⟨0x04, 1, 0x100⟩) (bench [])) = some .recordIrqTooWide := by decide

/-- V-R-04 and V-R-07: registers, and who is reset. -/
theorem test_reset :
    after .reset (bench4 [.stat 1, .stat 0] 0x04 false true 0x03) regs = some (true, 0x00, false, true, 0x00)
    ∧ after .reset { bench [] with devs := [slot 0 (.stat 1), { slot 1 (.stat 0) with en := false }] }
        (fun t => ((dstOf 0 t).map DState.nRst, (dstOf 1 t).map DState.nRst)) = some (some 1, some 0) := by decide

/-- V-R-06: with `RESET_VIA_TRANSITION` the transition runs. -/
theorem test_reset_via_transition :
    after .reset { bench4 [.bank 0x04 0x44] 0x04 false false 0 with
        params := { Params.standard with resetViaTransition := true } } (fun t => (t.latch, t.romShadow, callsOf t))
      = some (0x00, true, [(0, .reset), (0, .bankSelect 0x00)]) := by decide

/-- A core before `PON`, with registers of no meaning. -/
def unborn (ms : List DevModel) : State := { bench4 ms 0xFF false false 0xFF with alive := false }

/-- V-R-01 and V-R-02. -/
theorem test_pon :
    after .pon (unborn []) regs = some (true, 0x00, true, false, 0x00)
    ∧ after .pon (unborn [.ramw]) regs = some (true, 0x00, true, true, 0x00) := by decide

/-- V-R-03: the failure, and who was initialised. -/
theorem test_pon_failure :
    after .pon (unborn [.reg 0xD110, .bad, .reg 0xD120]) (fun t => (t.alive, t.out.result, callsOf t))
      = some (false, .ponFailed, [(0, .init []), (1, .init [])]) := by decide

/-- V-R-08. -/
theorem test_lifecycle_refusals :
    reasonOf (exec .pon (bench [])) = some .alreadyAlive
    ∧ after .teardown (bench []) State.alive = some false
    ∧ reasonOf (exec (.rdD1 0xD100 false) (unborn [])) = some .notAlive
    ∧ reasonOf (exec .save (unborn [])) = some .notAlive := by decide

/-- U10: a suppressed read meets a device that changed its state or produced an effect. -/
theorem test_suppression_duty :
    mustRefuse true (slot 0 (.stat 1)) (⟨(), freshDState, [.irqSet 1]⟩ : Reply Unit) = true
    ∧ mustRefuse true (slot 0 (.stat 1)) (⟨(), { freshDState with nRd := 1 }, []⟩ : Reply Unit) = true
    ∧ mustRefuse false (slot 0 (.stat 1)) (⟨(), { freshDState with nRd := 1 }, [.irqSet 1]⟩ : Reply Unit) = false
    ∧ mustRefuse true (slot 0 (.stat 1)) (⟨(), freshDState, []⟩ : Reply Unit) = false := by decide

/-- R157: reports only with `TRACE_EN`. -/
theorem test_trace :
    after (.wrLatch 0x03) { bench [] with params := { Params.standard with traceEn := true } } (fun t => t.out.trace)
      = some [.invalidLatch 0x03]
    ∧ after (.wrLatch 0x03) (bench []) (fun t => t.out.trace) = some [] := by decide

/-- The step decodes the event presented next, and refuses what no agent may cause (R93, R270). -/
theorem test_step_rights :
    (nextOf (step { bench [] with inbox := [.op .cpu 0x1000D1FF10 zeroRec] })).map regs
      = some (true, 0x10, true, false, 0x00)
    ∧ reasonOf (step { bench [] with inbox := [.op .host 0x1000D1FF10 zeroRec] }) = some .agentMayNot
    ∧ reasonOf (step { bench [.stat 1, .stat 1] with inbox := [.op (.device 1) 0x2000000001 zeroRec] }) = some .agentMayNot
    ∧ reasonOf (step { bench [] with inbox := [.op .cpu 0xA000000000 zeroRec] }) = some (.invalidWord .reservedKind) := by
  decide

/-! Witnesses: the premises of each statement of Certificates/Slice0/Obligations.lean, met together. -/

/-- A view that holds of the state after an outcome. -/
theorem of_view {o : StepOutcome} {f : State → Bool} (h : (nextOf o).map f = some true) : ∃ t, o = .next t ∧ f t = true := by
  cases o with
  | next t => exact ⟨t, rfl, by simpa [nextOf] using h⟩
  | fault r => simp [nextOf] at h
  | refused r => simp [nextOf] at h

/-- The behaviour is one of the spec's test devices. -/
def isFixture : DevModel → Bool
  | .ext _ _ => false
  | .bank _ _ => true
  | .stat _ => true
  | .statc _ => true
  | .reg _ => true
  | .x1 => true
  | .x67 => true
  | .ramw => true
  | .bad => true

theorem honours_fixture {m : DevModel} (h : isFixture m = true) : HonoursSuppression m := by
  cases m with
  | ext k c => cases h
  | bank c p => exact honours_bank c p
  | stat st => exact honours_stat st
  | statc st => exact honours_statc st
  | reg a0 => exact honours_reg a0
  | x1 => exact honours_x1
  | x67 => exact honours_x67
  | ramw => exact honours_ramw
  | bad => exact honours_bad

theorem allHonour_fixtures {s : State} (h : s.devs.all (fun d => isFixture d.model) = true) : AllHonour s :=
  fun d hd => honours_fixture (List.all_eq_true.1 h d hd)

theorem honour_list {xs : List (Nat × Device)} (h : xs.all (fun y => isFixture y.2.model) = true) :
    ∀ y ∈ xs, HonoursSuppression y.2.model :=
  fun y hy => honours_fixture (List.all_eq_true.1 h y hy)

/-- A core with the listed inputs presented. -/
def fed (s : State) (q : List Input) : State := { s with inbox := q }

theorem witness_DecodeOfEncodeIsTheOperation :
    Params.standard.ok = true ∧ WellFormed Params.standard 8 (.irqSet 7 0xFF) = true
    ∧ WellFormed Params.standard 8 (.rdD1 0xD1FE true) = true := by decide

theorem witness_AcceptedWordIsItsEncoding :
    decode Params.standard 8 0x37000000FF zeroRec = .instr (.irqClr 7 0xFF)
    ∧ decode Params.standard 0 0x6000000000 ⟨3, 2, 256⟩ = .instr (.load ⟨3, 2, 256⟩) := by decide

theorem witness_StepRunsDecodedOperation :
    (fed (bench []) [.op .cpu 0x1000D1FF10 zeroRec]).inbox = .op .cpu 0x1000D1FF10 zeroRec :: []
    ∧ decode (bench []).params (bench []).devs.length 0x1000D1FF10 zeroRec = .instr (.wrLatch 0x10)
    ∧ (Instr.wrLatch 0x10).agent = .cpu := by decide

theorem witness_StepRefusesInvalidAndForeignEvents :
    decode (bench []).params (bench []).devs.length 0xA000000000 zeroRec = .invalid .reservedKind
    ∧ decode (bench []).params (bench []).devs.length 0x1000D1FF10 zeroRec = .instr (.wrLatch 0x10)
    ∧ (Instr.wrLatch 0x10).agent ≠ .host := by decide

theorem witness_StepTakesEnvironmentMoves :
    (bench []).inbox = []
    ∧ (fed (bench []) [.outsideWrite 0xFFFF 1]).inbox = .outsideWrite 0xFFFF 1 :: []
    ∧ (fed (bench [.x1]) [.enable 0 false]).inbox = .enable 0 false :: []
    ∧ (fed (bench [.x1]) [.deviceMove 0 freshDState]).inbox = .deviceMove 0 freshDState :: [] := by decide

/-- A state that meets the invariant and whose next step is a `WR.LATCH`. -/
theorem witness_StepKeepsInvariant :
    StateInv (fed (bench [.stat 0x01]) [.op .cpu 0x1000D1FF80 zeroRec])
    ∧ ∃ t, step (fed (bench [.stat 0x01]) [.op .cpu 0x1000D1FF80 zeroRec]) = .next t ∧ decide (t.latch = 0x80) = true :=
  ⟨by unfold StateInv; decide, of_view (by decide)⟩

theorem witness_StepKeepsConfiguration :
    (∃ t, step (fed (bench [.x1]) [.enable 0 false]) = .next t ∧ decide (t.devs.map Device.en = [false]) = true)
    ∧ (∃ t, step (fed (bench [.x1]) [.op .host 0x7000000000 zeroRec]) = .next t
        ∧ decide (t.devs.map Device.en = [true]) = true)
    ∧ ∀ i b rest, (fed (bench [.x1]) [.op .host 0x7000000000 zeroRec]).inbox ≠ .enable i b :: rest :=
  ⟨of_view (by decide), of_view (by decide), by simp [fed]⟩

theorem witness_ShadowFlagMovesOnlyWithLatch :
    (∃ t, step (fed (bench [.bank 0x04 0x44]) [.op .cpu 0x1000D1FF04 zeroRec]) = .next t
      ∧ decide (t.romShadow ≠ (bench [.bank 0x04 0x44]).romShadow) = true)
    ∧ (bench [.bank 0x04 0x44]).alive = true :=
  ⟨of_view (by decide), by decide⟩

theorem witness_ShadowFlagMovesOnlyWithLatch_reset :
    ∃ t, step (fed { bench4 [] 0x04 false false 0 with params := { Params.standard with resetViaTransition := true } }
        [.op .host 0x7000000000 zeroRec]) = .next t ∧ decide (t.romShadow ≠ false) = true :=
  of_view (by decide)

theorem witness_RegistersHaveOnlyTheirWriters :
    (∃ t, exec (.wrLatch 0x10) (bench []) = .next t ∧ decide (t.latch ≠ 0x00) = true)
    ∧ (∃ t, exec (.wrLatch 0x04) (bench [.bank 0x04 0x44]) = .next t ∧ decide (t.romShadow ≠ true) = true)
    ∧ (∃ t, exec (.rambSet true) (bench []) = .next t ∧ decide (t.ramBacked ≠ false) = true)
    ∧ (∃ t, exec .teardown (bench []) = .next t ∧ decide (t.alive ≠ true) = true) :=
  ⟨of_view (by decide), of_view (by decide), of_view (by decide), of_view (by decide)⟩

/-- `IRQ_AGG` moved by its own operation, and by the effect of a handler that a bus write called (STATC). -/
theorem witness_RegistersHaveOnlyTheirWriters_irq :
    (∃ t, exec (.irqSet 0 0x01) (bench [.stat 1]) = .next t ∧ decide (t.irqAgg ≠ 0x00) = true)
    ∧ (∃ t, exec (.wrD1 0xD1F0 0x01) (bench [.statc 0x40]) = .next t
        ∧ decide (t.irqAgg ≠ 0x00 ∧ t.out.calls ≠ []) = true) :=
  ⟨of_view (by decide), of_view (by decide)⟩

theorem witness_ExclusiveD1DeviceFreezesTheLatch :
    (Instr.wrLatch 0x04).agent = .cpu ∧ xd1 (bench [.stat 0x01, .x1]) ≠ []
    ∧ ∃ t, exec (.wrLatch 0x04) (bench [.stat 0x01, .x1]) = .next t ∧ decide (t.latch = 0x00) = true :=
  ⟨by decide, by decide, of_view (by decide)⟩

/-- P3 step 3: device 0 raises its bit 0; nobody that is called owns bit 1. -/
theorem witness_IrqBitsMoveOnlyByTheirOwner :
    (Instr.wrD1 0xD1F0 0x01).agent = .cpu
    ∧ ∃ t, exec (.wrD1 0xD1F0 0x01) (bench [.statc 0x40, .ramw]) = .next t
      ∧ (t.out.calls.all fun c => ((bench [.statc 0x40, .ramw]).devs[c.dev]?).all fun d => d.irqMask.getLsbD 1 = false) = true :=
  ⟨by decide, of_view (by decide)⟩

theorem witness_LifecycleRefusals :
    (unborn []).alive = false ∧ Instr.save ≠ .pon ∧ (bench []).alive = true := by decide

theorem witness_ReadsComplete :
    isRead (.rdD1 0xD110 true) = true ∧ (bench [.reg 0xD110, .x67]).alive = true ∧ AllHonour (bench [.reg 0xD110, .x67]) :=
  ⟨by decide, by decide, allHonour_fixtures (by decide)⟩

theorem witness_ExclusiveD1DeviceAnswersTheRead :
    (bench [.stat 0x01, .x1]).alive = true ∧ xd1 (bench [.stat 0x01, .x1]) = (1, slot 1 .x1) :: []
    ∧ HonoursSuppression (slot 1 .x1).model ∧ (0xD1FF : Addr) = (bench [.stat 0x01, .x1]).params.latchAddr :=
  ⟨by decide, by decide, honours_x1, by decide⟩

theorem witness_ExclusiveD67DeviceAnswersTheRead :
    (bench [.x67]).alive = true ∧ ((xd67 (bench [.x67])).map fun x => (x.1, x.2.model)) = [(0, .x67)]
    ∧ HonoursSuppression (slot 0 .x67).model :=
  ⟨by decide, by decide, honours_x67⟩

theorem witness_FirstCooperativeAnswerWins :
    xd1 (bench [.stat 0x01, .reg 0xD110, .reg 0xD110]) = []
    ∧ cd1 (bench [.stat 0x01, .reg 0xD110, .reg 0xD110])
        = [(0, slot 0 (.stat 0x01))] ++ (1, slot 1 (.reg 0xD110)) :: [(2, slot 2 (.reg 0xD110))]
    ∧ (∀ y ∈ [(0, slot 0 (.stat 0x01))], (y.2.model.read y.2.dst .d1 0xD110 true).ans = .notHandled)
    ∧ ((slot 1 (.reg 0xD110)).model.read (slot 1 (.reg 0xD110)).dst .d1 0xD110 true).ans = .handled 0x00
    ∧ (∀ y ∈ [(0, slot 0 (.stat 0x01))] ++ [(1, slot 1 (.reg 0xD110))], HonoursSuppression y.2.model) :=
  ⟨by decide, by decide, by decide, by decide, honour_list (by decide)⟩

theorem witness_UnhandledD1ReadIsOpenBus :
    (bench [.reg 0xD110]).alive = true ∧ xd1 (bench [.reg 0xD110]) = [] ∧ cd1 (bench [.reg 0xD110]) ≠ []
    ∧ (∀ y ∈ cd1 (bench [.reg 0xD110]), (y.2.model.read y.2.dst .d1 0xD111 true).ans = .notHandled)
    ∧ (∀ y ∈ cd1 (bench [.reg 0xD110]), HonoursSuppression y.2.model) :=
  ⟨by decide, by decide, by decide, by decide, honour_list (by decide)⟩

theorem witness_OpenBusWhereNothingResponds :
    (bench []).alive = true ∧ xd1 (bench []) = [] ∧ cd1 (bench []) = [] ∧ xd67 (bench []) = []
    ∧ (bench []).ramBacked = false := by decide

theorem witness_StatusReadCombinesEveryContribution :
    (bench [.stat 0x81, .bank 4 0x44, .stat 0x12]).alive = true ∧ xd1 (bench [.stat 0x81, .bank 4 0x44, .stat 0x12]) = []
    ∧ (irqStatusSlots (bench [.stat 0x81, .bank 4 0x44, .stat 0x12])).length = 2
    ∧ (∀ y ∈ cd1 (bench [.stat 0x81, .bank 4 0x44, .stat 0x12]),
        (y.2.model.read y.2.dst .d1 0xD1FF false).ans = .notHandled) := by decide

/-- A pending STATC beside a raised foreign bit: its query clears its own bit and leaves the other, and the read itself clears
nothing (R214). -/
theorem witness_StatusReadCombinesEveryContribution_effects :
    irqAfter (fun d => (d.model.irqStatus { d.dst with flag := true }).effs)
      (irqStatusSlots (bench4 [.statc 0x40, .stat 0x02] 0 true false 0x03)) 0x03 = 0x02
    ∧ (∀ y ∈ cd1 (bench4 [.statc 0x40, .stat 0x02] 0 true false 0x03),
        (y.2.model.read y.2.dst .d1 0xD1FF false).ans = .notHandled)
    ∧ (∃ t, exec (.rdLatch false) (bench4 [.statc 0x40, .stat 0x02] 0 true false 0x03) = .next t
        ∧ decide (t.irqAgg = 0x03) = true) :=
  ⟨by decide, by decide, of_view (by decide)⟩

theorem witness_SuppressedStatusReadIsZero :
    (bench [.stat 0x01, .stat 0x00]).alive = true ∧ xd1 (bench [.stat 0x01, .stat 0x00]) = []
    ∧ (∀ y ∈ cd1 (bench [.stat 0x01, .stat 0x00]), (y.2.model.read y.2.dst .d1 0xD1FF true).ans = .notHandled)
    ∧ (∀ y ∈ cd1 (bench [.stat 0x01, .stat 0x00]), HonoursSuppression y.2.model) :=
  ⟨by decide, by decide, by decide, honour_list (by decide)⟩

/-- For RamWindowReadReturnsMemory, RamWindowWriteStoresOneByte and RamWindowWriteThenReadReturnsTheByte. -/
theorem witness_RamWindow :
    (bench4 [.stat 0x01] 0 true true 0).alive = true ∧ xd67 (bench4 [.stat 0x01] 0 true true 0) = []
    ∧ (bench4 [.stat 0x01] 0 true true 0).ramBacked = true := by decide

/-- For ReadOutsideWindowsGivesNoData, WriteOutsideWindowsIsIgnored and the clauses of UnclaimedWriteIsNoOp. -/
theorem witness_LiveCore :
    (bench []).alive = true ∧ xd1 (bench []) = [] ∧ cd1 (bench []) = [] ∧ xd67 (bench []) = []
    ∧ (bench []).ramBacked = false := by decide

/-- For SuppressedReadChangesNothing and SuppressedReadsBeforeAReadAreInvisible: V-D-11's device. -/
theorem witness_SuppressedReads :
    isSuppressedRead (.rdD1 0xD110 true) = true ∧ isSuppressedRead (.rdLatch true) = true ∧ isRead (.rdD1 0xD110 false) = true
    ∧ (bench [.reg 0xD110]).alive = true ∧ AllHonour (bench [.reg 0xD110]) :=
  ⟨by decide, by decide, by decide, by decide, allHonour_fixtures (by decide)⟩

theorem witness_ExclusiveD1DeviceTakesTheWrite :
    (bench [.x1, .x1]).alive = true ∧ xd1 (bench [.x1, .x1]) = (0, slot 0 .x1) :: [(1, slot 1 .x1)]
    ∧ (0xD1FF : Addr) = (bench [.x1, .x1]).params.latchAddr := by decide

theorem witness_ExclusiveD67DeviceTakesTheWrite :
    (bench [.x67]).alive = true ∧ ∃ x more, xd67 (bench [.x67]) = x :: more :=
  ⟨by decide, _, _, rfl⟩

theorem witness_CooperativeWriteReachesEveryDevice :
    (bench [.reg 0xD110, .statc 0x40]).alive = true ∧ xd1 (bench [.reg 0xD110, .statc 0x40]) = []
    ∧ (cd1 (bench [.reg 0xD110, .statc 0x40])).length = 2 := by decide

/-- For LatchWriteFollowsTheTable, LatchWriteOffersInPriorityOrder and ShadowCopyRunsExactlyOnFallback: one state and a code for
each case of R189 (0x03 is rejected, 0x08 redundant, 0x04 taken by device 0, 0x10 taken by nobody). -/
theorem witness_LatchWrite :
    (bench4 [.bank 0x04 0x44, .bank 0x08 0x88] 0x08 false false 0).alive = true
    ∧ xd1 (bench4 [.bank 0x04 0x44, .bank 0x08 0x88] 0x08 false false 0) = []
    ∧ (bench4 [.bank 0x04 0x44, .bank 0x08 0x88] 0x08 false false 0).romShadow = false
    ∧ legal 0x03 = false ∧ legal 0x08 = true ∧ legal 0x04 = true ∧ legal 0x10 = true := by decide

theorem witness_LatchWrite_taken :
    ((bs (bench4 [.bank 0x04 0x44, .bank 0x08 0x88] 0x08 false false 0)).any fun y =>
      decide ((y.2.model.bankSelect (y.2.model.write y.2.dst .d1 0xD1FF 0x04).dst 0x04).ans = .handled)) = true
    ∧ ((bs (bench4 [.bank 0x04 0x44, .bank 0x08 0x88] 0x08 false false 0)).any fun y =>
      decide ((y.2.model.bankSelect (y.2.model.write y.2.dst .d1 0xD1FF 0x10).dst 0x10).ans = .handled)) = false := by decide

/-- The devices asked in the cases of `witness_LatchWrite`: nobody, nobody, the taker alone, both. -/
theorem witness_LatchWrite_offered :
    let s := bench4 [.bank 0x04 0x44, .bank 0x08 0x88] 0x08 false false 0
    let wrote (v : Byte) : Device → DState := fun d => (d.model.write d.dst .d1 0xD1FF v).dst
    (offeredTo 0x03 (wrote 0x03) s).map Prod.fst = [] ∧ (offeredTo 0x08 (wrote 0x08) s).map Prod.fst = []
    ∧ (offeredTo 0x04 (wrote 0x04) s).map Prod.fst = [0] ∧ (offeredTo 0x10 (wrote 0x10) s).map Prod.fst = [0, 1] := by decide

theorem witness_ShadowCopyIsTheByteLoop : Memory.wf memSize [(0xD600, 0xEE), (0xDFFF, 1), (0xFFFF, 2)] = true := by decide

theorem witness_RejectedAndRedundantCodesChangeNothing : legal 0xFF = false ∧ (bench []).latch = 0x00 ∧ legal 0x00 = true := by
  decide

/-- For IrqSetRaisesOwnBits, IrqClrWithdrawsOwnBits, IrqRequestsOfDifferentDevicesCommute and IrqRequestsOfOneDeviceCombine. -/
theorem witness_IrqRequests :
    (bench [.stat 1, .stat 0]).alive = true
    ∧ (bench [.stat 1, .stat 0]).devs[(0 : BitVec 3).toNat]? = some (slot 0 (.stat 1))
    ∧ (bench [.stat 1, .stat 0]).devs[(1 : BitVec 3).toNat]? = some (slot 1 (.stat 0))
    ∧ (slot 0 (.stat 1)).irqMask &&& (slot 1 (.stat 0)).irqMask = 0 := by decide

theorem witness_IrqRequestOfAbsentDeviceIsRefused :
    (bench [.stat 1, .stat 0]).alive = true ∧ (bench [.stat 1, .stat 0]).devs.length ≤ (2 : BitVec 3).toNat := by decide

/-- For RambSetWritesTheFlag, SaveEmitsTheThreeFields, LoadRestoresTheThreeFields (records at the ends of their ranges),
SnapshotRoundTrip and LoadThenSaveGivesTheRecord. -/
theorem witness_HostOperations :
    (bench4 [] 0x80 false true 0xFF).alive = true ∧ legal (bench4 [] 0x80 false true 0xFF).latch = true
    ∧ legal (⟨0x80, 1, 0xFF⟩ : SnapRec).latch = true ∧ (⟨0x80, 1, 0xFF⟩ : SnapRec).irq.toNat < 256
    ∧ (⟨0x80, 1, 0xFF⟩ : SnapRec).loadable = true ∧ (⟨0x00, 0, 0⟩ : SnapRec).loadable = true := by decide

theorem witness_LoadRefusesForeignRecords :
    (bench []).alive = true ∧ legal (⟨0x03, 0, 0⟩ : SnapRec).latch = false
    ∧ ((⟨0x04, 2, 0⟩ : SnapRec).ramb ≠ 0 ∧ (⟨0x04, 2, 0⟩ : SnapRec).ramb ≠ 1)
    ∧ 256 ≤ (⟨0x04, 1, 0x100⟩ : SnapRec).irq.toNat := by decide

theorem witness_PonGivesPowerOnValues :
    (unborn [.stat 1, .ramw]).alive = false
    ∧ ∀ y ∈ allSlots (unborn [.stat 1, .ramw]), (y.2.model.initHandler y.2.dst y.2.args).ans = true := by decide

theorem witness_PonFailsAtTheFirstBadDevice :
    (unborn [.ramw, .bad, .ramw]).alive = false
    ∧ allSlots (unborn [.ramw, .bad, .ramw]) = [(0, slot 0 .ramw)] ++ (1, slot 1 .bad) :: [(2, slot 2 .ramw)]
    ∧ (∀ y ∈ [(0, slot 0 .ramw)], (y.2.model.initHandler y.2.dst y.2.args).ans = true)
    ∧ ((slot 1 .bad).model.initHandler (slot 1 .bad).dst (slot 1 .bad).args).ans = false := by decide

theorem witness_ResetClearsLatchAndAggregate :
    (bench4 [.statc 0x40] 0x04 false true 0x03).alive = true
    ∧ (bench4 [.statc 0x40] 0x04 false true 0x03).params.resetViaTransition = false := by decide

/-- The parameter of R294, the latch away from 0x00, the flag false, and nobody who takes 0x00; with BANK(0x00, _) somebody
does. -/
theorem witness_ResetThroughTheTransition :
    (bench4 [.bank 0x04 0x44] 0x04 false false 0).latch ≠ 0x00
    ∧ ({ Params.standard with resetViaTransition := true } : Params).resetViaTransition = true
    ∧ ((bs (bench4 [.bank 0x04 0x44] 0x04 false false 0)).any fun y =>
        decide ((y.2.model.bankSelect (y.2.model.resetHandler y.2.dst).dst 0x00).ans = .handled)) = false
    ∧ ((bs (bench4 [.bank 0x00 0x44] 0x04 false false 0)).any fun y =>
        decide ((y.2.model.bankSelect (y.2.model.resetHandler y.2.dst).dst 0x00).ans = .handled)) = true := by decide

/-- The same parameter with the latch at 0x00: nobody is offered the code, and the enabled device's `Reset` runs all the same. -/
theorem witness_ResetThroughTheTransition_latchZero :
    (bench4 [.stat 0x01] 0x00 false false 0).latch = 0x00
    ∧ offeredTo 0x00 (fun d => (d.model.resetHandler d.dst).dst) (bench4 [.bank 0x04 0x44] 0x00 false false 0) = []
    ∧ (∃ t, exec .reset { bench4 [.stat 0x01] 0x00 false false 0 with
          params := { Params.standard with resetViaTransition := true } } = .next t
        ∧ decide (t.out.calls = [⟨0, .reset, .unit⟩] ∧ t.romShadow = false) = true) :=
  ⟨by decide, by decide, of_view (by decide)⟩

theorem witness_ResetHazardLeavesTheBankMapped :
    (bench4 [.bank 0x04 0x44] 0x04 false false 0).alive = true
    ∧ (bench4 [.bank 0x04 0x44] 0x04 false false 0).params.resetViaTransition = false
    ∧ xd1 (bench4 [.bank 0x04 0x44] 0x04 false false 0) = []
    ∧ (bench4 [.bank 0x04 0x44] 0x04 false false 0).romShadow = false := by decide

theorem witness_TeardownEndsTheCore : (bench [.stat 1, .stat 0]).alive = true := by decide

end Sys2Proof.Tests
end

