-- ==== Sys2Proof/Proofs/Slice0/StateFamily.lean ====
section
/-! PROOFS. The statements of 10_state.md: the reset state, the lifecycle refusals, and what every step keeps. One inversion
lemma says what an operation can do (`exec_effect`), one says what a step can be (`step_cases`); the statements about every
operation and every step follow from these two. -/

namespace Sys2Proof.Machine

/-! The frame `CoreKept`, register by register. -/

section
variable {s t : State} (k : CoreKept s t)
include k

theorem CoreKept.alive : t.alive = s.alive := by obtain ⟨h, _⟩ := k; exact h
theorem CoreKept.latch : t.latch = s.latch := by obtain ⟨_, h, _⟩ := k; exact h
theorem CoreKept.romShadow : t.romShadow = s.romShadow := by obtain ⟨_, _, h, _⟩ := k; exact h
theorem CoreKept.ramBacked : t.ramBacked = s.ramBacked := by obtain ⟨_, _, _, h, _⟩ := k; exact h
theorem CoreKept.params : t.params = s.params := by obtain ⟨_, _, _, _, _, h, _⟩ := k; exact h

end

/-! What an operation can do. -/

/-- What the operation `i` can make of the state `s`: handler work that keeps the registers, and after it the register writes
that belong to the operation. `u` is the state when the handlers are done. -/
inductive OpEffect (s : State) : Instr → State → Prop
  | handlers {i : Instr} {t : State} (w : HandlerWork (clearOut s) t) (k : CoreKept s t) : OpEffect s i t
  | transition {v : Byte} {u : State} (w : HandlerWork (clearOut s) u) (k : CoreKept s u) :
      OpEffect s (.wrLatch v) (finish .written (latchWrite v u))
  | irqSet {dev : BitVec 3} {mask agg : Byte} :
      OpEffect s (.irqSet dev mask) (finish .done { clearOut s with irqAgg := agg })
  | irqClr {dev : BitVec 3} {mask agg : Byte} :
      OpEffect s (.irqClr dev mask) (finish .done { clearOut s with irqAgg := agg })
  | rambSet {b : Bool} : OpEffect s (.rambSet b) (finish .done { clearOut s with ramBacked := b })
  | load {r : SnapRec} (hl : legal r.latch = true) : OpEffect s (.load r) (finish .done (restoreFrom r (clearOut s)))
  | reset {u : State} (w : HandlerWork (clearOut s) u) (k : CoreKept s u) :
      OpEffect s .reset (finish .done { resetLatch u with irqAgg := 0 })
  | powerOn {u : State} (hd : s.alive = false) (w : HandlerWork (clearOut s) u) (k : CoreKept s u) :
      OpEffect s .pon (finish .ponOk (powerOnValues u))
  | teardown {u : State} (w : HandlerWork (clearOut s) u) (k : CoreKept s u) :
      OpEffect s .teardown (finish .done { u with alive := false })

/-- Handler work that ends with a result. -/
theorem OpEffect.handlers_finish {s t : State} {i : Instr} (r : OpResult)
    (h : HandlerWork (clearOut s) t ∧ CoreKept (clearOut s) t) : OpEffect s i (finish r t) :=
  .handlers (h.1.trans (.finish t r)) h.2

/-- An operation whose meaning is handler work `f` and then a result. -/
theorem OpEffect.of_handlers {i : Instr} {s t : State} (r : OpResult) (f : State → State)
    (hi : exec i s = whenAlive s fun u => .next (finish r (f u)))
    (hf : ∀ u, HandlerWork u (f u) ∧ CoreKept u (f u)) (h : exec i s = .next t) : OpEffect s i t := by
  rw [hi] at h
  obtain ⟨_, h⟩ := whenAlive_next h
  cases h
  exact .handlers_finish r (hf _)

/-- An operation that does nothing to the state is the least handler work. -/
theorem id_work (u : State) : HandlerWork u (id u) ∧ CoreKept u (id u) := ⟨.refl u, by simp [CoreKept]⟩

/-- An interrupt request that is answered writes the aggregate and nothing else (R211, R212). -/
theorem irqRequest_next {dev : BitVec 3} {f : Byte → Byte → Byte} {s t : State} (h : irqRequest dev f s = .next t) :
    ∃ agg, t = finish .done { s with irqAgg := agg } := by
  unfold irqRequest at h
  split at h
  · cases h; exact ⟨_, rfl⟩
  · cases h

/-- A write at the latch address: an exclusive device swallows it, or the transition runs after the deliveries (R150). -/
theorem execWrLatch_effect {v : Byte} {s t : State} (h : execWrLatch v s = .next t) : OpEffect s (.wrLatch v) t := by
  obtain ⟨_, h⟩ := whenAlive_next h
  cases h
  rcases writeLatchAddr_cases v (clearOut s) with ⟨_, swallowed⟩ | ⟨_, u, w, k, hu⟩
  · exact .handlers_finish .written swallowed
  · rw [hu]; exact .transition w k

theorem execRambSet_effect {b : Bool} {s t : State} (h : execRambSet b s = .next t) : OpEffect s (.rambSet b) t := by
  obtain ⟨_, h⟩ := whenAlive_next h
  cases h
  exact .rambSet

theorem execSave_effect {s t : State} (h : execSave s = .next t) : OpEffect s .save t := by
  obtain ⟨_, h⟩ := whenAlive_next h
  cases h
  exact .handlers_finish _ (id_work _)

/-- A `LOAD` that is answered had a legal latch code in its record (R233). -/
theorem execLoad_effect {r : SnapRec} {s t : State} (h : execLoad r s = .next t) : OpEffect s (.load r) t := by
  obtain ⟨_, h⟩ := whenAlive_next h
  cases hl : legal r.latch with
  | false => simp [hl] at h
  | true =>
    simp only [hl, Bool.not_true, Bool.false_eq_true, if_false] at h
    split at h
    · cases h
    · split at h
      · cases h
      · cases h; exact .load hl

/-- A broadcast to the members of a search list is handler work and keeps the registers (R119, R122). -/
theorem broadcast_work {p : Device → Bool} (h : Device → Reply Unit) (req : Request) (s : State) :
    HandlerWork s (broadcast h req (select p s) s) ∧ CoreKept s (broadcast h req (select p s) s) :=
  ⟨.broadcast h req fun _ hx => hx, by simp [broadcast_eq, CoreKept]⟩

theorem execReset_effect {s t : State} (h : execReset s = .next t) : OpEffect s .reset t := by
  obtain ⟨_, h⟩ := whenAlive_next h
  cases h
  obtain ⟨w, k⟩ := broadcast_work (p := Device.en) (fun d => d.model.resetHandler d.dst) .reset (clearOut s)
  exact .reset w k

theorem execTeardown_effect {s t : State} (h : execTeardown s = .next t) : OpEffect s .teardown t := by
  obtain ⟨_, h⟩ := whenAlive_next h
  cases h
  rw [allSlots_eq_select]
  obtain ⟨w, k⟩ := broadcast_work (p := fun _ => true) (fun d => d.model.shutdownHandler d.dst) .shutdown (clearOut s)
  exact .teardown w k

/-- Initialisation of listed devices that stand in their slots is handler work and keeps the registers (R290). -/
theorem initCalls_work {s : State} {xs : List (Nat × Device)} (hx : ∀ x ∈ xs, x ∈ allSlots s) :
    HandlerWork s (settleAll (xs.map initCall) s) ∧ CoreKept s (settleAll (xs.map initCall) s) :=
  ⟨.calls (p := fun _ => true) initCall (fun _ => ⟨rfl, rfl⟩) (by rwa [← allSlots_eq_select]), by simp [CoreKept]⟩

/-- `PON`: every device is initialised and the power-on values follow, or the first failure ends it (R290, R291). -/
theorem execPon_effect {s t : State} (h : execPon s = .next t) : OpEffect s .pon t := by
  cases hd : s.alive with
  | true => simp [execPon, hd] at h
  | false =>
    simp only [execPon, hd, Bool.false_eq_true, if_false] at h
    rcases initDevices_spec (allSlots s) (clearOut s) with ⟨h1, _⟩ | ⟨pre, x, post, h0, h1, _⟩
    · rw [h1] at h; cases h
      obtain ⟨w, k⟩ := initCalls_work (s := clearOut s) fun _ hx => hx
      exact .powerOn hd w k
    · rw [h1] at h; cases h
      refine .handlers_finish .ponFailed (initCalls_work fun y hy => ?_)
      rw [allSlots_clearOut, h0]
      rcases List.mem_append.1 hy with hy | hy
      · exact List.mem_append_left _ hy
      · exact List.mem_append_right _ (by simp [List.mem_singleton.1 hy])

/-- What an operation can do, for all eighteen. -/
theorem exec_effect {i : Instr} {s t : State} (h : exec i s = .next t) : OpEffect s i t := by
  cases i with
  | rdLatch nse =>
    obtain ⟨w, k⟩ := readD1_next (statusAnswer_work nse) (whenAlive_next h).2
    exact .handlers w k
  | rdD1 a nse =>
    obtain ⟨w, k⟩ := readD1_next (openBusRead_work a) (whenAlive_next h).2
    exact .handlers w k
  | rdD6 a nse =>
    obtain ⟨w, k⟩ := readD67_next (whenAlive_next h).2
    exact .handlers w k
  | rdD7 a nse =>
    obtain ⟨w, k⟩ := readD67_next (whenAlive_next h).2
    exact .handlers w k
  | rdNosel a nse => exact .of_handlers .noData id rfl id_work h
  | wrLatch v => exact execWrLatch_effect h
  | wrD1 a v => exact .of_handlers .written (writeD1 a v) rfl (writeD1_work a v) h
  | wrD6 a v => exact .of_handlers .written (writeD67 .d6 a v) rfl (writeD67_work .d6 a v) h
  | wrD7 a v => exact .of_handlers .written (writeD67 .d7 a v) rfl (writeD67_work .d7 a v) h
  | wrNosel a v => exact .of_handlers .ignored id rfl id_work h
  | irqSet dev mask => obtain ⟨agg, rfl⟩ := irqRequest_next (whenAlive_next h).2; exact .irqSet
  | irqClr dev mask => obtain ⟨agg, rfl⟩ := irqRequest_next (whenAlive_next h).2; exact .irqClr
  | rambSet b => exact execRambSet_effect h
  | save => exact execSave_effect h
  | load r => exact execLoad_effect h
  | reset => exact execReset_effect h
  | pon => exact execPon_effect h
  | teardown => exact execTeardown_effect h

/-! What the reset of the latch moves. -/

theorem HandlerWork.resetLatch (u : State) : HandlerWork u (Machine.resetLatch u) := by
  unfold Machine.resetLatch
  split
  · exact .latchWrite _ u
  · exact .of_eq rfl rfl rfl rfl rfl rfl rfl

@[simp] theorem resetLatch_alive (u : State) : (resetLatch u).alive = u.alive := by
  unfold resetLatch
  split
  · obtain ⟨h, _⟩ := latchWrite_registers 0x00 u; exact h
  · rfl

@[simp] theorem resetLatch_ramBacked (u : State) : (resetLatch u).ramBacked = u.ramBacked := by
  unfold resetLatch
  split
  · obtain ⟨_, h, _⟩ := latchWrite_registers 0x00 u; exact h
  · rfl

/-- The direct store leaves `ROM_SHADOW` alone (R293). -/
theorem resetLatch_romShadow_direct {u : State} (h : u.params.resetViaTransition = false) :
    (resetLatch u).romShadow = u.romShadow := by simp [resetLatch, h]

/-- The latch after a transition is as before or legal. -/
theorem latchWrite_latch_legal {u : State} (v : Byte) (h : legal u.latch = true) :
    legal (latchWrite v u).latch = true := by
  obtain ⟨_, _, ⟨hl, _⟩ | ⟨hv, _, hl⟩⟩ := latchWrite_registers v u
  · rwa [hl]
  · rwa [hl]

/-- A transition that moves `ROM_SHADOW` moves the latch (R189). -/
theorem latchWrite_latch_ne {u : State} {v : Byte} (h : (latchWrite v u).romShadow ≠ u.romShadow) :
    (latchWrite v u).latch ≠ u.latch := by
  obtain ⟨_, _, ⟨_, hr⟩ | ⟨_, hne, hl⟩⟩ := latchWrite_registers v u
  · exact absurd hr h
  · rwa [hl]

theorem resetLatch_latch_legal {u : State} (h : legal u.latch = true) : legal (resetLatch u).latch = true := by
  unfold resetLatch
  split
  · exact latchWrite_latch_legal _ h
  · show legal 0x00 = true
    decide

/-! What an operation changes, register by register (R20, R27). -/

namespace OpEffect

section
variable {s t : State} {i : Instr} (e : OpEffect s i t)
include e

theorem latch_writers (h : t.latch ≠ s.latch) :
    (∃ v, i = .wrLatch v) ∨ i = .reset ∨ i = .pon ∨ (∃ r, i = .load r) := by
  cases e with
  | handlers w k => exact absurd k.latch h
  | @transition v => exact .inl ⟨v, rfl⟩
  | irqSet => exact absurd rfl h
  | irqClr => exact absurd rfl h
  | rambSet => exact absurd rfl h
  | @load r => exact .inr (.inr (.inr ⟨r, rfl⟩))
  | reset => exact .inr (.inl rfl)
  | powerOn => exact .inr (.inr (.inl rfl))
  | teardown w k => exact absurd k.latch h

theorem romShadow_writers (h : t.romShadow ≠ s.romShadow) :
    (∃ v, i = .wrLatch v) ∨ i = .pon ∨ (i = .reset ∧ s.params.resetViaTransition = true) := by
  cases e with
  | handlers w k => exact absurd k.romShadow h
  | @transition v => exact .inl ⟨v, rfl⟩
  | irqSet => exact absurd rfl h
  | irqClr => exact absurd rfl h
  | rambSet => exact absurd rfl h
  | load => exact absurd rfl h
  | reset w k =>
    refine .inr (.inr ⟨rfl, ?_⟩)
    by_contra hp
    rw [← k.params, Bool.not_eq_true] at hp
    exact h ((resetLatch_romShadow_direct hp).trans k.romShadow)
  | powerOn => exact .inr (.inl rfl)
  | teardown w k => exact absurd k.romShadow h

theorem ramBacked_writers (h : t.ramBacked ≠ s.ramBacked) :
    (∃ b, i = .rambSet b) ∨ i = .pon ∨ (∃ r, i = .load r) := by
  cases e with
  | handlers w k => exact absurd k.ramBacked h
  | @transition v u w k =>
    obtain ⟨_, hr, _⟩ := latchWrite_registers v u
    exact absurd (hr.trans k.ramBacked) h
  | irqSet => exact absurd rfl h
  | irqClr => exact absurd rfl h
  | @rambSet b => exact .inl ⟨b, rfl⟩
  | @load r => exact .inr (.inr ⟨r, rfl⟩)
  | @reset u w k => exact absurd ((resetLatch_ramBacked u).trans k.ramBacked) h
  | powerOn => exact .inr (.inl rfl)
  | teardown w k => exact absurd k.ramBacked h

theorem alive_writers (h : t.alive ≠ s.alive) : i = .pon ∨ i = .teardown := by
  cases e with
  | handlers w k => exact absurd k.alive h
  | @transition v u w k =>
    obtain ⟨ha, _⟩ := latchWrite_registers v u
    exact absurd (ha.trans k.alive) h
  | irqSet => exact absurd rfl h
  | irqClr => exact absurd rfl h
  | rambSet => exact absurd rfl h
  | load => exact absurd rfl h
  | @reset u w k => exact absurd ((resetLatch_alive u).trans k.alive) h
  | powerOn => exact .inl rfl
  | teardown => exact .inr rfl

end
end OpEffect

/-- Handler work without a call leaves the aggregate alone (R214). -/
theorem HandlerWork.calls_ne_nil_of_irqAgg_ne {s t : State} (w : HandlerWork (clearOut s) t) (h : t.irqAgg ≠ s.irqAgg) :
    t.out.calls ≠ [] := by
  intro hc
  obtain ⟨new, hnew, hbits⟩ := w.irq
  rw [hc] at hnew
  obtain rfl : new = [] := hnew.symm
  exact h (BitVec.eq_of_getLsbD_eq fun j _ => hbits j (by simp))

theorem OpEffect.irqAgg_writers {s t : State} {i : Instr} (e : OpEffect s i t) (h : t.irqAgg ≠ s.irqAgg) :
    (∃ d m, i = .irqSet d m) ∨ (∃ d m, i = .irqClr d m) ∨ i = .reset ∨ i = .pon ∨ (∃ r, i = .load r)
      ∨ t.out.calls ≠ [] := by
  have called (w : HandlerWork (clearOut s) t) := w.calls_ne_nil_of_irqAgg_ne h
  cases e with
  | handlers w k => exact .inr (.inr (.inr (.inr (.inr (called w)))))
  | @transition v u w k =>
    exact .inr (.inr (.inr (.inr (.inr (called ((w.trans (.latchWrite v u)).trans (.finish _ _)))))))
  | irqSet => simp
  | irqClr => simp
  | rambSet => exact absurd rfl h
  | load => simp
  | reset => simp
  | powerOn => simp
  | @teardown u w k =>
    exact .inr (.inr (.inr (.inr (.inr (called (w.trans (.of_eq rfl rfl rfl rfl rfl rfl rfl)))))))

/-! What an operation does beside the registers. -/

/-- The parts of the state that are no register and no port. -/
structure SameBesideRegisters (u t : State) : Prop where
  rom : t.rom = u.rom
  params : t.params = u.params
  inbox : t.inbox = u.inbox
  devs : t.devs = u.devs
  mem : t.mem = u.mem

/-- Beside the registers, an operation does nothing but handler work. -/
theorem OpEffect.besideRegisters {s t : State} {i : Instr} (e : OpEffect s i t) :
    ∃ u, HandlerWork (clearOut s) u ∧ SameBesideRegisters u t := by
  cases e with
  | @handlers _ _ w k => exact ⟨t, w, rfl, rfl, rfl, rfl, rfl⟩
  | @transition v u w k => exact ⟨_, w.trans (.latchWrite v u), rfl, rfl, rfl, rfl, rfl⟩
  | irqSet => exact ⟨_, .refl _, rfl, rfl, rfl, rfl, rfl⟩
  | irqClr => exact ⟨_, .refl _, rfl, rfl, rfl, rfl, rfl⟩
  | rambSet => exact ⟨_, .refl _, rfl, rfl, rfl, rfl, rfl⟩
  | load => exact ⟨_, .refl _, rfl, rfl, rfl, rfl, rfl⟩
  | @reset u w k => exact ⟨_, w.trans (.resetLatch u), rfl, rfl, rfl, rfl, rfl⟩
  | @powerOn u hd w k => exact ⟨u, w, rfl, rfl, rfl, rfl, rfl⟩
  | @teardown u w k => exact ⟨u, w, rfl, rfl, rfl, rfl, rfl⟩

/-- The queue is no operation's to change (log 1). -/
theorem OpEffect.inbox {s t : State} {i : Instr} (e : OpEffect s i t) : t.inbox = s.inbox := by
  obtain ⟨u, w, same⟩ := e.besideRegisters
  exact same.inbox.trans w.inbox

/-- No operation moves an enable input (R111). -/
theorem OpEffect.enables {s t : State} {i : Instr} (e : OpEffect s i t) :
    t.devs.map Device.en = s.devs.map Device.en := by
  obtain ⟨u, w, same⟩ := e.besideRegisters
  rw [same.devs]
  exact w.devs _ Device.en fun _ _ => rfl

/-- What every step keeps: the configuration (R28, R56), and `MEM` in canonical form. -/
structure ConfigKept (s t : State) : Prop where
  params : t.params = s.params
  rom : t.rom = s.rom
  fixed : t.devs.map fixedPart = s.devs.map fixedPart
  wf : Memory.wf memSize s.mem = true → Memory.wf memSize t.mem = true

theorem OpEffect.configKept {s t : State} {i : Instr} (e : OpEffect s i t) : ConfigKept s t := by
  obtain ⟨u, w, same⟩ := e.besideRegisters
  exact
    { params := same.params.trans w.params
      rom := same.rom.trans w.rom
      fixed := by rw [same.devs]; exact w.devs _ fixedPart fun _ _ => rfl
      wf := fun h => by rw [same.mem]; exact w.wf h }

/-! What a step can be. -/

/-- An item of the total order that gives a next state: an operation that its agent may cause, or an environment move. -/
theorem consume_cases {x : Input} {s t : State} (h : consume x s = .next t) :
    (∃ ag w r i, x = .op ag w r ∧ decode s.params s.devs.length w r = .instr i ∧ exec i s = .next t)
    ∨ (∃ i b, x = .enable i b ∧ t = setEnable i b s)
    ∨ (∃ i q, x = .deviceMove i q ∧ t = moveDevice i q s)
    ∨ (∃ a v, x = .outsideWrite a v ∧ t = memWrite s a v) := by
  cases x with
  | op ag w r =>
    simp only [consume, presentOp] at h
    split at h
    · cases h
    · next i hi =>
      split at h
      · exact .inl ⟨ag, w, r, i, rfl, hi, h⟩
      · cases h
  | enable i b => cases h; exact .inr (.inl ⟨i, b, rfl, rfl⟩)
  | deviceMove i q => cases h; exact .inr (.inr (.inl ⟨i, q, rfl, rfl⟩))
  | outsideWrite a v => cases h; exact .inr (.inr (.inr ⟨a, v, rfl, rfl⟩))

/-- A step does nothing, or deals with the head of the queue (R26). -/
theorem step_cases {s t : State} (h : step s = .next t) :
    (s.inbox = [] ∧ t = s) ∨ (∃ x rest, s.inbox = x :: rest ∧ consume x { s with inbox := rest } = .next t) := by
  unfold step nextStep at h
  split at h
  · next hq => cases h; exact .inl ⟨hq, rfl⟩
  · next x rest hq => exact .inr ⟨x, rest, hq, h⟩

/-! Environment moves. -/

/-- A view of a device that a change does not touch is the same in every slot after the change. -/
theorem map_modify_of_view {β : Type} {f : Device → β} {g : Device → Device} (hg : ∀ d, f (g d) = f d) (i : Nat)
    (ds : List Device) : (ds.modify i g).map f = ds.map f := by
  apply List.ext_getElem?
  intro j
  simp only [List.getElem?_map, List.getElem?_modify]
  cases ds[j]? with
  | none => rfl
  | some d => by_cases h : i = j <;> simp [h, hg]

theorem setEnable_configKept (i : Nat) (b : Bool) (s : State) : ConfigKept s (setEnable i b s) :=
  ⟨rfl, rfl, map_modify_of_view (g := fun d => { d with en := b }) (fun _ => rfl) i s.devs, id⟩

theorem moveDevice_configKept (i : Nat) (q : DState) (s : State) : ConfigKept s (moveDevice i q s) :=
  ⟨rfl, rfl, map_modify_of_view (g := fun d => { d with dst := q }) (fun _ => rfl) i s.devs, id⟩

theorem moveDevice_enables (i : Nat) (q : DState) (s : State) :
    (moveDevice i q s).devs.map Device.en = s.devs.map Device.en :=
  map_modify_of_view (g := fun d => { d with dst := q }) (fun _ => rfl) i s.devs

theorem memWrite_configKept (s : State) (a : Addr) (v : Byte) : ConfigKept s (memWrite s a v) :=
  ⟨rfl, rfl, rfl, wf_memWrite s a v⟩

/-- Every step keeps the configuration and the canonical form of `MEM`. -/
theorem step_configKept {s t : State} (h : step s = .next t) : ConfigKept s t := by
  rcases step_cases h with ⟨_, rfl⟩ | ⟨x, rest, _, hx⟩
  · exact ⟨rfl, rfl, rfl, id⟩
  · have kept : ConfigKept { s with inbox := rest } t := by
      rcases consume_cases hx with ⟨_, _, _, _, _, _, he⟩ | ⟨i, b, _, rfl⟩ | ⟨i, q, _, rfl⟩ | ⟨a, v, _, rfl⟩
      · exact (exec_effect he).configKept
      · exact setEnable_configKept i b _
      · exact moveDevice_configKept i q _
      · exact memWrite_configKept _ a v
    exact ⟨kept.params, kept.rom, kept.fixed, kept.wf⟩

/-- The enable inputs move only by the host's own move (R111). -/
theorem step_enables {s t : State} (h : step s = .next t) (hen : ∀ i b rest, s.inbox ≠ .enable i b :: rest) :
    t.devs.map Device.en = s.devs.map Device.en := by
  rcases step_cases h with ⟨_, rfl⟩ | ⟨x, rest, hq, hx⟩
  · rfl
  · rcases consume_cases hx with ⟨_, _, _, _, _, _, he⟩ | ⟨i, b, rfl, _⟩ | ⟨i, q, _, rfl⟩ | ⟨a, v, _, rfl⟩
    · exact (exec_effect he).enables
    · exact absurd hq (hen i b rest)
    · exact moveDevice_enables i q _
    · rfl

/-! The invariant. -/

/-- Disjoint ownership is a fact about the masks alone (R24). -/
theorem masksDisjoint_iff (ds : List Device) :
    masksDisjoint ds = true ↔ (ds.map Device.irqMask).Pairwise (fun m n => m &&& n = 0) := by
  induction ds with
  | nil => simp [masksDisjoint]
  | cons d ds ih => simp [masksDisjoint, ih]

theorem wellFormedState_iff (s : State) :
    wellFormedState s = true ↔ s.params.ok = true ∧ s.devs.length ≤ maxDevices ∧ masksDisjoint s.devs = true
      ∧ Memory.wf memSize s.mem = true ∧ Memory.wf s.params.romSize s.rom = true := by
  simp [wellFormedState, and_assoc]

/-- The form of a state depends on its configuration and on the canonical form of `MEM`. -/
theorem ConfigKept.wellFormedState {s t : State} (k : ConfigKept s t) (h : wellFormedState s = true) :
    Machine.wellFormedState t = true := by
  obtain ⟨hp, hn, hm, hmem, hrom⟩ := (wellFormedState_iff s).1 h
  have hlen : t.devs.length = s.devs.length := by simpa using congrArg List.length k.fixed
  have hmask : t.devs.map Device.irqMask = s.devs.map Device.irqMask := by
    simpa [fixedPart, Function.comp_def] using congrArg (List.map fun c => c.2.2) k.fixed
  refine (wellFormedState_iff t).2 ⟨?_, ?_, ?_, k.wf hmem, ?_⟩
  · rwa [k.params]
  · rwa [hlen]
  · rwa [masksDisjoint_iff, hmask, ← masksDisjoint_iff]
  · rwa [k.params, k.rom]

/-- Every operation leaves a live core with a legal latch code (R25a). -/
theorem OpEffect.latch_legal {s t : State} {i : Instr} (e : OpEffect s i t)
    (hs : s.alive = true → legal s.latch = true) (ht : t.alive = true) : legal t.latch = true := by
  have kept {u : State} (k : CoreKept s u) (hu : u.alive = true) : legal u.latch = true := by
    rw [k.latch]; exact hs (k.alive ▸ hu)
  cases e with
  | handlers w k => exact kept k ht
  | @transition v u w k =>
    obtain ⟨ha, _⟩ := latchWrite_registers v u
    exact latchWrite_latch_legal v (kept k (ha ▸ ht))
  | irqSet => exact hs ht
  | irqClr => exact hs ht
  | rambSet => exact hs ht
  | load hl => exact hl
  | @reset u w k => exact resetLatch_latch_legal (kept k (resetLatch_alive u ▸ ht))
  | powerOn hd w k => show legal 0x00 = true; decide
  | teardown w k => cases ht

/-- Every step leaves a live core with a legal latch code (R25a). -/
theorem step_latch_legal {s t : State} (h : step s = .next t) (hs : s.alive = true → legal s.latch = true)
    (ht : t.alive = true) : legal t.latch = true := by
  rcases step_cases h with ⟨_, rfl⟩ | ⟨x, rest, _, hx⟩
  · exact hs ht
  · rcases consume_cases hx with ⟨_, _, _, _, _, _, he⟩ | ⟨_, _, _, rfl⟩ | ⟨_, _, _, rfl⟩ | ⟨_, _, _, rfl⟩
    · exact (exec_effect he).latch_legal hs ht
    · exact hs ht
    · exact hs ht
    · exact hs ht

/-- On a live core an operation that moves `ROM_SHADOW` moves the latch with it, in a transition (R25b). -/
theorem OpEffect.latch_ne_of_romShadow_ne {s t : State} {i : Instr} (e : OpEffect s i t) (ha : s.alive = true)
    (h : t.romShadow ≠ s.romShadow) : t.latch ≠ s.latch := by
  have moved {u : State} {v : Byte} (k : CoreKept s u) (hr : (latchWrite v u).romShadow ≠ s.romShadow) :
      (latchWrite v u).latch ≠ s.latch := by
    rw [← k.latch]; rw [← k.romShadow] at hr; exact latchWrite_latch_ne hr
  cases e with
  | handlers w k => exact absurd k.romShadow h
  | transition w k => exact moved k h
  | irqSet => exact absurd rfl h
  | irqClr => exact absurd rfl h
  | rambSet => exact absurd rfl h
  | load => exact absurd rfl h
  | @reset u w k =>
    cases hp : u.params.resetViaTransition with
    | true =>
      have hr : resetLatch u = latchWrite 0x00 u := by simp [resetLatch, hp]
      rw [hr] at h ⊢
      exact moved k h
    | false => exact absurd ((resetLatch_romShadow_direct hp).trans k.romShadow) h
  | powerOn hd w k => rw [hd] at ha; cases ha
  | teardown w k => exact absurd k.romShadow h

/-- Every operation other than `PON` begins with the test of `ALIVE` (R27, U9). -/
theorem exec_of_dead {i : Instr} {s : State} (h : s.alive = false) (hi : i ≠ .pon) : exec i s = .refused .notAlive := by
  cases i with
  | pon => exact absurd rfl hi
  | _ => exact if_neg (by simp [h]) -- `whenAlive` is this `if`

theorem execPon_of_alive {s : State} (h : s.alive = true) : execPon s = .refused .alreadyAlive := by
  simp [execPon, h]

/-! The statements. -/

/-- Settles O11: the form of the state depends on what every step keeps, and the latch is followed through the operations. -/
theorem stepKeepsInvariant : Obligations.StepKeepsInvariant := by
  intro s t ⟨hwf, hlegal⟩ h
  exact ⟨(step_configKept h).wellFormedState hwf, step_latch_legal h hlegal⟩

/-- Settles O13: environment moves keep the flag, and among the operations of a live core only the transition moves it. -/
theorem shadowFlagMovesOnlyWithLatch : Obligations.ShadowFlagMovesOnlyWithLatch := by
  intro s t h ha hne
  rcases step_cases h with ⟨_, rfl⟩ | ⟨x, rest, hq, hx⟩
  · exact absurd rfl hne
  · rcases consume_cases hx with ⟨ag, w, r, i, rfl, hi, he⟩ | ⟨_, _, _, rfl⟩ | ⟨_, _, _, rfl⟩ | ⟨_, _, _, rfl⟩
    · have e := exec_effect he
      refine ⟨e.latch_ne_of_romShadow_ne ha hne, ag, w, r, rest, i, hq, hi, ?_⟩
      rcases e.romShadow_writers hne with hw | rfl | hr
      · exact .inl hw
      · have hrefused := execPon_of_alive (s := { s with inbox := rest }) ha
        exact absurd (hrefused.symm.trans he) (by simp)
      · exact .inr hr
    · exact absurd rfl hne
    · exact absurd rfl hne
    · exact absurd rfl hne

/-- Settles O12. -/
theorem stepKeepsConfiguration : Obligations.StepKeepsConfiguration := by
  intro s t h
  have k := step_configKept h
  exact ⟨k.params, k.rom, k.fixed, step_enables h⟩

/-- Settles O14. -/
theorem registersHaveOnlyTheirWriters : Obligations.RegistersHaveOnlyTheirWriters := by
  intro i s t h
  have e := exec_effect h
  exact ⟨e.latch_writers, e.romShadow_writers, e.ramBacked_writers, e.irqAgg_writers, e.alive_writers,
    e.configKept.rom, e.configKept.params, e.inbox⟩

/-- Settles O9. -/
theorem resetStateHasSpecValues : Obligations.ResetStateHasSpecValues := by
  refine ⟨rfl, rfl, rfl, rfl, rfl, rfl, rfl, rfl, rfl, rfl, fun d hd => ?_⟩
  obtain ⟨i, _, rfl⟩ := List.mem_map.1 hd
  rfl

/-- Settles O10. -/
theorem resetMeetsInvariant : Obligations.ResetMeetsInvariant := by
  refine ⟨(wellFormedState_iff _).2 ⟨?_, ?_, ?_, wf_reset_mem, rfl⟩, fun _ => ?_⟩
  · show Params.standard.ok = true
    decide
  · show (8 : Nat) ≤ 8
    decide
  · decide
  · show legal 0x00 = true
    decide

/-- Settles O17. -/
theorem lifecycleRefusals : Obligations.LifecycleRefusals :=
  ⟨fun _ _ => exec_of_dead, fun _ => execPon_of_alive⟩

end Sys2Proof.Machine
end

