-- ==== Sys2Proof/Proofs/Slice0/MemoryFamily.lean ====
section
/-! PROOFS. The statements of 20_memory.md: the windows of the standard bounds, the RAM-backed window, and inspection. The idea
behind inspection is that `clearOut` forgets the output ports and nothing else: a suppressed read keeps `clearOut` of the state,
and no operation looks further than it (`exec_clearOut`). -/

namespace Sys2Proof.Machine

/-! The windows of the standard bounds (R51, R52). -/

theorem toNat_highByte (a : Addr) : (a.extractLsb' 8 8).toNat = a.toNat / 256 := by
  rw [BitVec.extractLsb'_toNat, Nat.shiftRight_eq_div_pow]
  omega

/-- A range that is one page of 256 addresses holds the addresses with the page's number as their high byte (R102). -/
theorem inRange_page {lo hi : Addr} {page : Byte} (hlo : lo.toNat = 256 * page.toNat)
    (hhi : hi.toNat = 256 * page.toNat + 255) (a : Addr) : inRange lo hi a = decide (a.extractLsb' 8 8 = page) := by
  have same : a.extractLsb' 8 8 = page ↔ a.toNat / 256 = page.toNat := by rw [← BitVec.toNat_inj, toNat_highByte]
  rw [inRange, ← Bool.decide_and, decide_eq_decide, same]
  omega

theorem inRange_standard_d1 (a : Addr) : inRange 0xD100 0xD1FF a = decide (a.extractLsb' 8 8 = 0xD1) := inRange_page rfl rfl a
theorem inRange_standard_d6 (a : Addr) : inRange 0xD600 0xD6FF a = decide (a.extractLsb' 8 8 = 0xD6) := inRange_page rfl rfl a
theorem inRange_standard_d7 (a : Addr) : inRange 0xD700 0xD7FF a = decide (a.extractLsb' 8 8 = 0xD7) := inRange_page rfl rfl a

/-! The RAM-backed window. -/

section
variable {s : State} (ha : s.alive = true) (hx : xd67 s = []) (hr : s.ramBacked = true)
include hx hr

/-- A D6 or D7 write that no device takes goes to `MEM` (R151, R152). -/
theorem writeD67_of_ramWindow (w : Window) (a : Addr) (v : Byte) : writeD67 w a v s = memWrite s a v := by
  simp [writeD67, hx, hr]

/-- A D6 or D7 read that no device takes comes from `MEM` (R146, R147). -/
theorem readD67_of_ramWindow (w : Window) (a : Addr) (nse : Bool) :
    readD67 w a nse s = .next (finish (.data (memRead s a) .ram) s) := by
  simp [readD67, hx, hr]

include ha

theorem exec_write_of_ramWindow {i : Instr} {a : Addr} {v : Byte} (hi : i = .wrD6 a v ∨ i = .wrD7 a v) :
    exec i s = .next (finish .written (memWrite (clearOut s) a v)) := by
  have stored (w : Window) := writeD67_of_ramWindow (s := clearOut s) hx hr w a v
  rcases hi with rfl | rfl
  · simp [exec, execWrD6, whenAlive_of_alive _ ha, stored]
  · simp [exec, execWrD7, whenAlive_of_alive _ ha, stored]

theorem exec_read_of_ramWindow {i : Instr} {a : Addr} {nse : Bool} (hi : i = .rdD6 a nse ∨ i = .rdD7 a nse) :
    exec i s = .next (finish (.data (memRead s a) .ram) (clearOut s)) := by
  have loaded (w : Window) := readD67_of_ramWindow (s := clearOut s) hx hr w a nse
  rcases hi with rfl | rfl
  · simp [exec, execRdD6, whenAlive_of_alive _ ha, loaded]
  · simp [exec, execRdD7, whenAlive_of_alive _ ha, loaded]

end

/-! Runs of operations. -/

theorem runOps_cons_of_next {i : Instr} {s t : State} (is : List Instr) (h : exec i s = .next t) :
    runOps (i :: is) s = runOps is t := by
  simp [runOps, h]

theorem runOps_singleton (i : Instr) (s : State) : runOps [i] s = exec i s := by
  cases h : exec i s <;> simp [runOps, h]

theorem runOps_append_of_next {is : List Instr} {s t : State} (js : List Instr) (h : runOps is s = .next t) :
    runOps (is ++ js) s = runOps js t := by
  induction is generalizing s with
  | nil => cases h; rfl
  | cons i is ih =>
    cases hi : exec i s with
    | next u =>
      rw [runOps_cons_of_next is hi] at h
      rw [List.cons_append, runOps_cons_of_next _ hi, ih h]
    | fault r => simp [runOps, hi] at h
    | refused r => simp [runOps, hi] at h

/-! The state without its output ports. -/

@[simp] theorem clearOut_finish (r : OpResult) (s : State) : clearOut (finish r s) = clearOut s := rfl

@[simp] theorem clearOut_report (i : TraceItem) (s : State) : clearOut (report i s) = clearOut s := by
  unfold report; split <;> rfl

@[simp] theorem clearOut_openBusRead (a : Addr) (s : State) : clearOut (openBusRead a s) = clearOut s := by
  simp [openBusRead]

/-- A suppressed status read asks nobody (R196). -/
theorem clearOut_statusAnswer_suppressed (s : State) : clearOut (statusAnswer true s) = clearOut s := rfl

/-- No operation looks at what an earlier one left on the output ports. -/
theorem exec_clearOut (i : Instr) (s : State) : exec i (clearOut s) = exec i s := by cases i <;> rfl

theorem exec_eq_of_clearOut_eq {s t : State} (h : clearOut t = clearOut s) (i : Instr) : exec i t = exec i s := by
  rw [← exec_clearOut i t, h, exec_clearOut]

theorem alive_eq_of_clearOut_eq {s t : State} (h : clearOut t = clearOut s) : t.alive = s.alive := by
  simpa using congrArg State.alive h

theorem AllHonour.of_clearOut_eq {s t : State} (hh : AllHonour s) (h : clearOut t = clearOut s) : AllHonour t := by
  have same : t.devs = s.devs := by simpa using congrArg State.devs h
  rwa [AllHonour, same]

/-! Quiet outcomes. -/

/-- The outcome is a next state that differs from `s` in the output ports only. -/
def CompletesQuietly (s : State) (r : StepOutcome) : Prop := ∃ t, r = .next t ∧ clearOut t = clearOut s

theorem completesQuietly_iff {s : State} {r : StepOutcome} : CompletesQuietly s r ↔ ∃ o, r = .next { s with out := o } := by
  constructor
  · rintro ⟨t, rfl, h⟩
    exact ⟨t.out, congrArg (fun u : State => Host.Outcome.next { u with out := t.out }) h⟩
  · rintro ⟨o, rfl⟩
    exact ⟨_, rfl, rfl⟩

theorem CompletesQuietly.next {s t : State} (h : clearOut t = clearOut s) : CompletesQuietly s (.next t) := ⟨t, rfl, h⟩

theorem CompletesQuietly.whenAlive {s : State} {k : State → StepOutcome} (ha : s.alive = true)
    (h : CompletesQuietly (clearOut s) (k (clearOut s))) : CompletesQuietly s (whenAlive s k) := by
  rw [whenAlive_of_alive k ha]
  exact h

/-! Suppressed reads. -/

/-- Calls that a suppressed read accepts leave the listed devices, `MEM` and `IRQ_AGG` alone (R121). -/
theorem clearOut_readCalls_suppressed {a : Addr} {s : State} {xs : List (Nat × Device)} (hx : ∀ x ∈ xs, x ∈ cd1 s)
    (hq : ∀ x ∈ xs, mustRefuse true x.2 (x.2.model.read x.2.dst .d1 a true) = false) :
    clearOut (settleAll (xs.map (readCall a true)) s) = clearOut s := by
  have quiet : ∀ c ∈ xs.map (readCall a true), c.effs = [] ∧ ∃ d, s.devs[c.i]? = some d ∧ d.dst = c.dst := by
    intro c hc
    obtain ⟨x, hxs, rfl⟩ := List.mem_map.1 hc
    obtain ⟨hdst, heffs⟩ := quiet_of_mustRefuse_false (hq x hxs)
    obtain ⟨hslot, _⟩ := mem_select.1 (hx x hxs)
    exact ⟨heffs, x.2, hslot, hdst.symm⟩
  obtain ⟨o, ho⟩ := settleAll_quiet quiet
  rw [ho, clearOut_withOut]

theorem AllHonour.of_mem_select {s : State} (hh : AllHonour s) {p : Device → Bool} {x : Nat × Device} (hx : x ∈ select p s) :
    HonoursSuppression x.2.model := by
  obtain ⟨hslot, _⟩ := mem_select.1 hx
  exact hh _ (List.mem_of_getElem? hslot)

section
variable {s : State} (hh : AllHonour s)
include hh

theorem exclusiveRead_suppressed {p : Device → Bool} {x : Nat × Device} (hx : x ∈ select p s) (w : Window) (a : Addr) :
    CompletesQuietly s (exclusiveRead w a true x s) := by
  have accepted := mustRefuse_readX_false (hh.of_mem_select hx) w a true
  obtain ⟨hdst, heffs⟩ := quiet_of_mustRefuse_false accepted
  obtain ⟨hslot, _⟩ := mem_select.1 hx
  simp only [exclusiveRead, accepted, hdst, heffs, settle_quiet hslot]
  exact .next rfl

/-- A suppressed D1 read is quiet when `f`, which answers where no device does, is (R142, R143). -/
theorem readD1_suppressed {f : State → State} (hf : ∀ u, clearOut (f u) = clearOut u) (a : Addr) :
    CompletesQuietly s (readD1 a true f s) := by
  unfold readD1
  split
  · next x more hx => exact exclusiveRead_suppressed hh (p := inXd1) (show x ∈ xd1 s by simp [hx]) .d1 a
  · rcases coopRead_spec a true (cd1 s) s with ⟨_, x, hx, hm⟩ | ⟨hc, hq⟩ | ⟨pre, x, post, v, hcd1, hc, _, _, hq⟩
    · rw [mustRefuse_read_false (hh.of_mem_select hx)] at hm
      cases hm
    · rw [hc]
      exact .next ((hf _).trans (clearOut_readCalls_suppressed (fun _ h => h) fun x h => (hq x h).2))
    · rw [hc]
      have called : ∀ y ∈ pre ++ [x], y ∈ cd1 s := fun y hy => by
        rw [hcd1, ← List.singleton_append, ← List.append_assoc]
        exact List.mem_append_left post hy
      exact .next (clearOut_readCalls_suppressed called hq)

/-- A D6 or D7 read without an exclusive device consults none (R146, R147). -/
theorem readD67_suppressed (w : Window) (a : Addr) : CompletesQuietly s (readD67 w a true s) := by
  unfold readD67
  split
  · next x more hx => exact exclusiveRead_suppressed hh (p := inXd67) (show x ∈ xd67 s by simp [hx]) w a
  · split
    · exact .next rfl
    · exact .next (clearOut_openBusRead a s)

theorem exec_suppressedRead {i : Instr} (hi : isSuppressedRead i = true) (ha : s.alive = true) :
    CompletesQuietly s (exec i s) := by
  have hc : AllHonour (clearOut s) := hh
  cases i with
  | rdLatch nse =>
    obtain rfl : nse = true := hi
    exact .whenAlive ha (readD1_suppressed hc clearOut_statusAnswer_suppressed _)
  | rdD1 a nse =>
    obtain rfl : nse = true := hi
    exact .whenAlive ha (readD1_suppressed hc (clearOut_openBusRead a) a)
  | rdD6 a nse =>
    obtain rfl : nse = true := hi
    exact .whenAlive ha (readD67_suppressed hc .d6 a)
  | rdD7 a nse =>
    obtain rfl : nse = true := hi
    exact .whenAlive ha (readD67_suppressed hc .d7 a)
  | rdNosel a nse => exact .whenAlive (k := fun u => .next (finish .noData u)) ha (.next rfl)
  | _ => exact absurd hi Bool.false_ne_true

/-- A list of suppressed reads is as quiet as each of them: the premises of one hold again after another (R271). -/
theorem runOps_suppressedReads {peeks : List Instr} (hp : ∀ i ∈ peeks, isSuppressedRead i = true) (ha : s.alive = true) :
    CompletesQuietly s (runOps peeks s) := by
  induction peeks generalizing s with
  | nil => exact .next rfl
  | cons i is ih =>
    obtain ⟨hi, his⟩ := List.forall_mem_cons.1 hp
    obtain ⟨t, ht, hst⟩ := exec_suppressedRead hh hi ha
    obtain ⟨u, hu, htu⟩ := ih (hh.of_clearOut_eq hst) his ((alive_eq_of_clearOut_eq hst).trans ha)
    exact ⟨u, (runOps_cons_of_next is ht).trans hu, htu.trans hst⟩

end

/-! The statements. -/

/-- Settles O28. -/
theorem suppressedReadChangesNothing : Obligations.SuppressedReadChangesNothing :=
  fun _ _ hi ha hh => completesQuietly_iff.1 (exec_suppressedRead hh hi ha)

/-- Settles O29: the suppressed reads move the output ports only, and the read does not look at those. -/
theorem suppressedReadsBeforeAReadAreInvisible : Obligations.SuppressedReadsBeforeAReadAreInvisible := by
  intro peeks rd s ha hh hp _
  obtain ⟨t, ht, hst⟩ := runOps_suppressedReads hh hp ha
  calc runOps (peeks ++ [rd]) s
      = runOps [rd] t := runOps_append_of_next [rd] ht
    _ = exec rd t := runOps_singleton rd t
    _ = exec rd s := exec_eq_of_clearOut_eq hst rd

/-- Settles O35: the write keeps the window RAM-backed, so the read finds the byte where the write put it. -/
theorem ramWindowWriteThenReadReturnsTheByte : Obligations.RamWindowWriteThenReadReturnsTheByte := by
  intro s wr rd a v nse ha hx hr hops
  obtain ⟨hwr, hrd⟩ : (wr = .wrD6 a v ∨ wr = .wrD7 a v) ∧ (rd = .rdD6 a nse ∨ rd = .rdD7 a nse) := by
    rcases hops with ⟨rfl, rfl⟩ | ⟨rfl, rfl⟩ <;> simp
  have written := exec_write_of_ramWindow ha hx hr hwr
  have read := exec_read_of_ramWindow (s := finish .written (memWrite (clearOut s) a v)) ha hx hr hrd
  have byte : memRead (finish .written (memWrite (clearOut s) a v)) a = v := memRead_memWrite_same (clearOut s) a v
  rw [byte] at read
  exact ⟨_, by rw [runOps_cons_of_next _ written, runOps_singleton, read], rfl, rfl⟩

/-- Settles O5: each of the three standard windows is one page. -/
theorem standardWindowsArePages : Obligations.StandardWindowsArePages := by
  intro a
  simp only [window, Params.standard, inRange_standard_d1, inRange_standard_d6, inRange_standard_d7, decide_eq_true_eq]

end Sys2Proof.Machine
end

