-- ==== Sys2Proof/Proofs/Slice0/EncodingFamily.lean ====
section
/-! PROOFS. The statements of 30_encoding.md. Each format of the decoder is said once, by the conditions on the word's fields
under which it gives an operation (`decodeRead_instr?` and so on). The two directions of the round trip and the agreement with
the opcode table all read these lemmas; the rows of the table are read by fields in the same way (`matches_readRow` and so
on). -/

namespace Sys2Proof

/-! The decoder, format by format. -/

theorem Decoded.instr?_eq_some {d : Decoded} {i : Instr} : d.instr? = some i ↔ d = .instr i := by
  cases d <;> simp [Decoded.instr?]

/-- `kind` 0 (R83). -/
theorem decodeRead_instr? (p : Params) (w : EventWord) :
    (decodeRead p w).instr?
      = if ewDev w = 0 ∧ ewPad w = 0 ∧ ewData w = 0 then some (readAt p (ewAddr w) (ewNse w)) else none := by
  unfold decodeRead
  split_ifs <;> simp_all [Decoded.instr?]

/-- `kind` 1 (R83). -/
theorem decodeWrite_instr? (p : Params) (w : EventWord) :
    (decodeWrite p w).instr?
      = if ewNse w = false ∧ ewDev w = 0 ∧ ewPad w = 0 then some (writeAt p (ewAddr w) (ewData w)) else none := by
  unfold decodeWrite
  split_ifs <;> simp_all [Decoded.instr?]

/-- `kind` 2 and 3 (R84). -/
theorem decodeIrq_instr? (nDev : Nat) (op : BitVec 3 → Byte → Instr) (w : EventWord) :
    (decodeIrq nDev op w).instr?
      = if ewNse w = false ∧ ewMaskHigh w = 0 ∧ (ewDev w).toNat < nDev then some (op (ewDev w) (ewData w)) else none := by
  unfold decodeIrq
  split_ifs <;> simp_all [Decoded.instr?]

/-- `kind` 4 (R85). -/
theorem decodeRamb_instr? (w : EventWord) :
    (decodeRamb w).instr?
      = if ewNse w = false ∧ ewDev w = 0 ∧ ewFlagHigh w = 0 then some (.rambSet (w.getLsbD 0)) else none := by
  unfold decodeRamb
  split_ifs <;> simp_all [Decoded.instr?]

/-- `kind` 5 to 9 (R85). -/
theorem decodeHost_instr? (i : Instr) (w : EventWord) :
    (decodeHost i w).instr? = if ewNse w = false ∧ ewDev w = 0 ∧ ewPayload w = 0 then some i else none := by
  unfold decodeHost
  split_ifs <;> simp_all [Decoded.instr?]

/-! The bus access that an address selects. -/

theorem window_eq_latchLoc_iff {p : Params} {a : Addr} : window p a = .latchLoc ↔ a = p.latchAddr := by
  unfold window
  split_ifs <;> simp_all

theorem encodeWord_readAt (p : Params) (a : Addr) (nse : Bool) :
    encodeWord p (readAt p a nse) = mkWord 0x0 nse 0 (busPayload a 0) := by
  unfold readAt
  split
  · next h => rw [window_eq_latchLoc_iff.1 h]; rfl
  all_goals rfl

theorem encodeWord_writeAt (p : Params) (a : Addr) (v : Byte) :
    encodeWord p (writeAt p a v) = mkWord 0x1 false 0 (busPayload a v) := by
  unfold writeAt
  split
  · next h => rw [window_eq_latchLoc_iff.1 h]; rfl
  all_goals rfl

theorem wellFormed_readAt (p : Params) (nDev : Nat) (a : Addr) (nse : Bool) : WellFormed p nDev (readAt p a nse) = true := by
  unfold readAt
  split <;> simp [WellFormed, *]

theorem wellFormed_writeAt (p : Params) (nDev : Nat) (a : Addr) (v : Byte) : WellFormed p nDev (writeAt p a v) = true := by
  unfold writeAt
  split <;> simp [WellFormed, *]

theorem readAt_ne_load (p : Params) (a : Addr) (nse : Bool) (r : SnapRec) : readAt p a nse ≠ .load r := by
  unfold readAt
  split <;> simp

theorem writeAt_ne_load (p : Params) (a : Addr) (v : Byte) (r : SnapRec) : writeAt p a v ≠ .load r := by
  unfold writeAt
  split <;> simp

/-! From the operation to its word and back. -/

/-- The word of a read decodes to the read that its address selects. -/
theorem decode_readWord (p : Params) (nDev : Nat) (a : Addr) (nse : Bool) (r : SnapRec) :
    decode p nDev (mkWord 0x0 nse 0 (busPayload a 0)) r = .instr (readAt p a nse) := by
  simp [decode, ← Decoded.instr?_eq_some, decodeRead_instr?]

/-- The word of a write decodes to the write that its address selects. -/
theorem decode_writeWord (p : Params) (nDev : Nat) (a : Addr) (v : Byte) (r : SnapRec) :
    decode p nDev (mkWord 0x1 false 0 (busPayload a v)) r = .instr (writeAt p a v) := by
  simp [decode, ← Decoded.instr?_eq_some, decodeWrite_instr?]

theorem decodeIrq_irqWord {nDev : Nat} {dev : BitVec 3} (h : dev.toNat < nDev) (op : BitVec 3 → Byte → Instr) (k : BitVec 4)
    (m : Byte) : decodeIrq nDev op (mkWord k false dev (0#24 ++ m)) = .instr (op dev m) := by
  simp [← Decoded.instr?_eq_some, decodeIrq_instr?, h]

theorem decodeRamb_rambWord (k : BitVec 4) (b : Bool) :
    decodeRamb (mkWord k false 0#3 (0#31 ++ BitVec.ofBool b)) = .instr (.rambSet b) := by
  rw [← Decoded.instr?_eq_some, decodeRamb_instr?, flag_rambWord]
  simp

theorem decodeHost_hostWord (k : BitVec 4) (i : Instr) : decodeHost i (mkWord k false 0#3 0#32) = .instr i := by
  simp [← Decoded.instr?_eq_some, decodeHost_instr?]

/-! From a word that decodes to the operation and back. -/

/-- The word with the record beside it is an encoding of the operation, which is well formed. -/
def Spells (p : Params) (nDev : Nat) (w : EventWord) (r : SnapRec) (i : Instr) : Prop :=
  WellFormed p nDev i = true ∧ encodeWord p i = w ∧ ∀ r', i = .load r' → r' = r

theorem mkWord_eq_of_fields {w : EventWord} {k : BitVec 4} {nse : Bool} {dev : BitVec 3} {pl : BitVec 32} (hk : ewKind w = k)
    (hn : ewNse w = nse) (hd : ewDev w = dev) (hp : ewPayload w = pl) : mkWord k nse dev pl = w := by
  subst hk hn hd hp
  exact mkWord_fields w

section
variable {p : Params} {nDev : Nat} {w : EventWord} {r : SnapRec} {i : Instr}

theorem spells_of_decodeRead (hk : ewKind w = 0x0) (h : decodeRead p w = .instr i) : Spells p nDev w r i := by
  rw [← Decoded.instr?_eq_some, decodeRead_instr?, Option.ite_none_right_eq_some, Option.some_inj] at h
  obtain ⟨⟨hdev, hpad, hdata⟩, rfl⟩ := h
  refine ⟨wellFormed_readAt .., ?_, fun r' e => (readAt_ne_load p _ _ r' e).elim⟩
  rw [encodeWord_readAt]
  exact mkWord_eq_of_fields hk rfl hdev (hdata ▸ busPayload_fields w hpad)

theorem spells_of_decodeWrite (hk : ewKind w = 0x1) (h : decodeWrite p w = .instr i) : Spells p nDev w r i := by
  rw [← Decoded.instr?_eq_some, decodeWrite_instr?, Option.ite_none_right_eq_some, Option.some_inj] at h
  obtain ⟨⟨hnse, hdev, hpad⟩, rfl⟩ := h
  refine ⟨wellFormed_writeAt .., ?_, fun r' e => (writeAt_ne_load p _ _ r' e).elim⟩
  rw [encodeWord_writeAt]
  exact mkWord_eq_of_fields hk hnse hdev (busPayload_fields w hpad)

/-- What is left to check of an interrupt request is said of `op` applied to any device and mask. -/
theorem spells_of_decodeIrq {op : BitVec 3 → Byte → Instr} (h : decodeIrq nDev op w = .instr i)
    (hwf : ∀ d m, WellFormed p nDev (op d m) = decide (d.toNat < nDev))
    (henc : ∀ d m, encodeWord p (op d m) = mkWord (ewKind w) false d ((0 : BitVec 24) ++ m))
    (hload : ∀ d m r', op d m ≠ .load r') : Spells p nDev w r i := by
  rw [← Decoded.instr?_eq_some, decodeIrq_instr?, Option.ite_none_right_eq_some, Option.some_inj] at h
  obtain ⟨⟨hnse, hhigh, hdev⟩, rfl⟩ := h
  refine ⟨by simp [hwf, hdev], ?_, fun r' e => (hload _ _ r' e).elim⟩
  rw [henc]
  exact mkWord_eq_of_fields rfl hnse rfl (irqPayload_fields w hhigh)

theorem spells_of_decodeRamb (hk : ewKind w = 0x4) (h : decodeRamb w = .instr i) : Spells p nDev w r i := by
  rw [← Decoded.instr?_eq_some, decodeRamb_instr?, Option.ite_none_right_eq_some, Option.some_inj] at h
  obtain ⟨⟨hnse, hdev, hhigh⟩, rfl⟩ := h
  exact ⟨rfl, mkWord_eq_of_fields hk hnse hdev (rambPayload_fields w hhigh), nofun⟩

/-- What is left to check of a host operation with a payload of zeros is said of that operation. -/
theorem spells_of_decodeHost {op : Instr} (h : decodeHost op w = .instr i) (hwf : WellFormed p nDev op = true)
    (henc : encodeWord p op = mkWord (ewKind w) false 0 0) (hload : ∀ r', op = .load r' → r' = r) : Spells p nDev w r i := by
  rw [← Decoded.instr?_eq_some, decodeHost_instr?, Option.ite_none_right_eq_some, Option.some_inj] at h
  obtain ⟨⟨hnse, hdev, hpl⟩, rfl⟩ := h
  refine ⟨hwf, ?_, hload⟩
  rw [henc]
  exact mkWord_eq_of_fields rfl hnse hdev hpl

theorem spells_of_decode (h : decode p nDev w r = .instr i) : Spells p nDev w r i := by
  unfold decode at h
  split_ifs at h with h0 h1 h2 h3 h4 h5 h6 h7 h8 h9
  · exact spells_of_decodeRead h0 h
  · exact spells_of_decodeWrite h1 h
  · exact spells_of_decodeIrq h (fun _ _ => rfl) (fun _ _ => by rw [h2]; rfl) nofun
  · exact spells_of_decodeIrq h (fun _ _ => rfl) (fun _ _ => by rw [h3]; rfl) nofun
  · exact spells_of_decodeRamb h4 h
  · exact spells_of_decodeHost h rfl (by rw [h5]; rfl) nofun
  · exact spells_of_decodeHost h rfl (by rw [h6]; rfl) fun _ e => (Instr.load.inj e).symm
  · exact spells_of_decodeHost h rfl (by rw [h7]; rfl) nofun
  · exact spells_of_decodeHost h rfl (by rw [h8]; rfl) nofun
  · exact spells_of_decodeHost h rfl (by rw [h9]; rfl) nofun

end

/-! Matching by fields (R86). -/

@[simp] theorem kind_and (w v : EventWord) : ewKind (w &&& v) = ewKind w &&& ewKind v := BitVec.extractLsb'_and
@[simp] theorem nse_and (w v : EventWord) : ewNse (w &&& v) = (ewNse w && ewNse v) := BitVec.getLsbD_and
@[simp] theorem dev_and (w v : EventWord) : ewDev (w &&& v) = ewDev w &&& ewDev v := BitVec.extractLsb'_and
@[simp] theorem payload_and (w v : EventWord) : ewPayload (w &&& v) = ewPayload w &&& ewPayload v := BitVec.extractLsb'_and

theorem eq_mkWord_iff {w : EventWord} {k : BitVec 4} {nse : Bool} {dev : BitVec 3} {pl : BitVec 32} :
    w = mkWord k nse dev pl ↔ ewKind w = k ∧ ewNse w = nse ∧ ewDev w = dev ∧ ewPayload w = pl := by
  constructor
  · rintro rfl
    simp
  · rintro ⟨hk, hn, hd, hp⟩
    exact (mkWord_eq_of_fields hk hn hd hp).symm

theorem and_append_eq_iff {v w : Nat} {x xm x' : BitVec v} {y ym y' : BitVec w} :
    (x ++ y) &&& (xm ++ ym) = x' ++ y' ↔ x &&& xm = x' ∧ y &&& ym = y' := by
  rw [BitVec.and_append]
  constructor
  · intro h
    have low : y &&& ym = y' := by
      simpa only [BitVec.setWidth_append_eq_right] using congrArg (BitVec.setWidth w) h
    rw [low] at h
    exact ⟨(BitVec.append_left_inj y').1 h, low⟩
  · rintro ⟨rfl, rfl⟩
    rfl

theorem payload_eq_busFields (w : EventWord) : ewPayload w = ewPad w ++ ewAddr w ++ ewData w := by
  have high : ewPad w ++ ewAddr w = w.extractLsb' 8 24 := BitVec.extractLsb'_append_extractLsb'_eq_extractLsb' rfl
  have all : w.extractLsb' 8 24 ++ ewData w = ewPayload w := BitVec.extractLsb'_append_extractLsb'_eq_extractLsb' rfl
  rw [high, all]

theorem payload_eq_irqFields (w : EventWord) : ewPayload w = ewMaskHigh w ++ ewData w :=
  (BitVec.extractLsb'_append_extractLsb'_eq_extractLsb' (x := w) (len₁ := 8) (len₂ := 24) rfl).symm

theorem payload_eq_rambFields (w : EventWord) : ewPayload w = ewFlagHigh w ++ w.extractLsb' 0 1 :=
  (BitVec.extractLsb'_append_extractLsb'_eq_extractLsb' (x := w) (len₁ := 1) (len₂ := 31) rfl).symm

theorem addr_eq_bytes (a : Addr) : a = a.extractLsb' 8 8 ++ a.extractLsb' 0 8 :=
  (BitVec.extractLsb'_append_extractLsb' (w := 8) (len := 8) (x := a)).symm

/-! The opcode table by fields (R86). -/

/-- The mask of a field that a row checks; a field that it leaves free has the mask 0. -/
def ones (n : Nat) : BitVec n := .allOnes n

@[simp] theorem and_ones {n : Nat} (x : BitVec n) : x &&& ones n = x := BitVec.and_allOnes

/-- A row that checks the `kind`, and the other fields as given. -/
def kindRow (name : String) (k : BitVec 4) (nseMask : Bool) (devMask : BitVec 3) (pl plMask : BitVec 32) : OpcodeRow :=
  ⟨name, mkWord k false 0 pl, mkWord (ones 4) nseMask devMask plMask⟩

/-- The row of a read whose address agrees with `a` in the bits of `am` (R83). -/
def readRow (name : String) (a am : Addr) : OpcodeRow :=
  kindRow name 0x0 false (ones 3) (0#8 ++ a ++ 0#8) (ones 8 ++ am ++ ones 8)

/-- The row of a write whose address agrees with `a` in the bits of `am` (R83). -/
def writeRow (name : String) (a am : Addr) : OpcodeRow :=
  kindRow name 0x1 true (ones 3) (0#8 ++ a ++ 0#8) (ones 8 ++ am ++ 0#8)

/-- The row of an interrupt request (R84). -/
def irqRow (name : String) (k : BitVec 4) : OpcodeRow := kindRow name k true 0 (0#24 ++ 0#8) (ones 24 ++ 0#8)

/-- The row of `RAMB.SET` (R85). -/
def rambRow : OpcodeRow := kindRow "RAMB.SET" 0x4 true (ones 3) (0#31 ++ 0#1) (ones 31 ++ 0#1)

/-- The row of a host operation with a payload of zeros (R85). -/
def hostRow (name : String) (k : BitVec 4) : OpcodeRow := kindRow name k true (ones 3) 0 (ones 32)

@[simp] theorem readRow_mnemonic (name : String) (a am : Addr) : (readRow name a am).mnemonic = name := rfl
@[simp] theorem writeRow_mnemonic (name : String) (a am : Addr) : (writeRow name a am).mnemonic = name := rfl
@[simp] theorem irqRow_mnemonic (name : String) (k : BitVec 4) : (irqRow name k).mnemonic = name := rfl
@[simp] theorem rambRow_mnemonic : rambRow.mnemonic = "RAMB.SET" := rfl
@[simp] theorem hostRow_mnemonic (name : String) (k : BitVec 4) : (hostRow name k).mnemonic = name := rfl

/-- The address bits that the row of a page asks for. -/
def page (b : Byte) : Addr := b ++ 0#8

/-- The mask of the row of a page: the high byte of the address. -/
def pageMask : Addr := ones 8 ++ 0#8

/-- The five rows of a direction of bus access, under the names `name`, for the standard parameters (R87). -/
def busRows (row : String → Addr → Addr → OpcodeRow) (name : Target → String) : List OpcodeRow :=
  [row (name .latchLoc) 0xD1FF (ones 16), row (name .d1) (page 0xD1) pageMask, row (name .d6) (page 0xD6) pageMask,
   row (name .d7) (page 0xD7) pageMask, row (name .nosel) 0#16 0#16]

/-- The mnemonic of a read (R80). -/
def readName : Target → String
  | .latchLoc => "RD.LATCH"
  | .d1 => "RD.D1"
  | .d6 => "RD.D6"
  | .d7 => "RD.D7"
  | .nosel => "RD.NOSEL"

/-- The mnemonic of a write (R80). -/
def writeName : Target → String
  | .latchLoc => "WR.LATCH"
  | .d1 => "WR.D1"
  | .d6 => "WR.D6"
  | .d7 => "WR.D7"
  | .nosel => "WR.NOSEL"

theorem mnemonic_readAt (p : Params) (a : Addr) (nse : Bool) : (readAt p a nse).mnemonic = readName (window p a) := by
  unfold readAt
  cases window p a <;> rfl

theorem mnemonic_writeAt (p : Params) (a : Addr) (v : Byte) : (writeAt p a v).mnemonic = writeName (window p a) := by
  unfold writeAt
  cases window p a <;> rfl

/-- `(EW & mask) == match` (R86). -/
def matchesRow (w : EventWord) (row : OpcodeRow) : Bool := decide (w &&& row.mask = row.pattern)

/-- Matching the row of a page is having the page as high byte. -/
theorem and_pageMask_eq_page_iff {a : Addr} {b : Byte} : a &&& pageMask = page b ↔ a.extractLsb' 8 8 = b := by
  conv_lhs => rw [addr_eq_bytes a]
  rw [pageMask, page, and_append_eq_iff]
  simp

section
variable {w : EventWord} {name : String} {k : BitVec 4} {a am : Addr}

theorem matches_kindRow {nseMask : Bool} {devMask : BitVec 3} {pl plMask : BitVec 32} :
    matchesRow w (kindRow name k nseMask devMask pl plMask) = true
      ↔ ewKind w = k ∧ (ewNse w && nseMask) = false ∧ ewDev w &&& devMask = 0 ∧ ewPayload w &&& plMask = pl := by
  simp only [matchesRow, kindRow, decide_eq_true_eq, eq_mkWord_iff, kind_and, nse_and, dev_and, payload_and, kind_mkWord,
    nse_mkWord, dev_mkWord, payload_mkWord, and_ones]

theorem and_busMask_eq_iff {x xm x' : BitVec 8} {v vm v' : Byte} {a am a' : Addr} :
    (x ++ a ++ v) &&& (xm ++ am ++ vm) = x' ++ a' ++ v' ↔ x &&& xm = x' ∧ a &&& am = a' ∧ v &&& vm = v' := by
  rw [and_append_eq_iff, and_append_eq_iff, and_assoc]

theorem matches_readRow :
    matchesRow w (readRow name a am) = true
      ↔ ewKind w = 0x0 ∧ (ewDev w = 0 ∧ ewPad w = 0 ∧ ewData w = 0) ∧ ewAddr w &&& am = a := by
  rw [readRow, matches_kindRow, payload_eq_busFields, and_busMask_eq_iff]
  simp only [and_ones, Bool.and_false, true_and]
  tauto

theorem matches_writeRow :
    matchesRow w (writeRow name a am) = true
      ↔ ewKind w = 0x1 ∧ (ewNse w = false ∧ ewDev w = 0 ∧ ewPad w = 0) ∧ ewAddr w &&& am = a := by
  rw [writeRow, matches_kindRow, payload_eq_busFields, and_busMask_eq_iff]
  simp only [and_ones, Bool.and_true, BitVec.and_zero, and_true]
  tauto

theorem matches_irqRow :
    matchesRow w (irqRow name k) = true ↔ ewKind w = k ∧ ewNse w = false ∧ ewMaskHigh w = 0 := by
  rw [irqRow, matches_kindRow, payload_eq_irqFields, and_append_eq_iff]
  simp

theorem matches_rambRow :
    matchesRow w rambRow = true ↔ ewKind w = 0x4 ∧ ewNse w = false ∧ ewDev w = 0 ∧ ewFlagHigh w = 0 := by
  rw [rambRow, matches_kindRow, payload_eq_rambFields, and_append_eq_iff]
  simp

theorem matches_hostRow :
    matchesRow w (hostRow name k) = true ↔ ewKind w = k ∧ ewNse w = false ∧ ewDev w = 0 ∧ ewPayload w = 0 := by
  simp [hostRow, matches_kindRow]

end

/-! The first matching row. Only the rows of the word's own `kind` can match it. -/

/-- The mnemonic of the first of the rows that matches. -/
def firstMnemonic (w : EventWord) (rows : List OpcodeRow) : Option String :=
  (rows.find? (matchesRow w)).map OpcodeRow.mnemonic

@[simp] theorem firstMnemonic_nil (w : EventWord) : firstMnemonic w [] = none := rfl

@[simp] theorem firstMnemonic_cons (w : EventWord) (row : OpcodeRow) (rows : List OpcodeRow) :
    firstMnemonic w (row :: rows) = if matchesRow w row then some row.mnemonic else firstMnemonic w rows := by
  cases h : matchesRow w row <;> simp [firstMnemonic, h]

theorem firstMnemonic_filter {w : EventWord} {f : OpcodeRow → Bool} {rows : List OpcodeRow}
    (h : ∀ row ∈ rows, matchesRow w row = true → f row = true) :
    firstMnemonic w (rows.filter f) = firstMnemonic w rows := by
  induction rows with
  | nil => rfl
  | cons row rows ih =>
    obtain ⟨hrow, hrows⟩ := List.forall_mem_cons.1 h
    cases hf : f row with
    | true => rw [List.filter_cons_of_pos hf, firstMnemonic_cons, firstMnemonic_cons, ih hrows]
    | false =>
      have other : ¬ matchesRow w row = true := fun hm => by simp [hrow hm] at hf
      rw [List.filter_cons_of_neg (by simp [hf]), firstMnemonic_cons, if_neg other, ih hrows]

/-- The rows of the opcode table for words of the `kind` `k` (R82). -/
def rowsOfKind (k : BitVec 4) : List OpcodeRow := opcodeTable.filter fun row => decide (ewKind row.pattern = k)

theorem rowsOfKind_read : rowsOfKind 0x0 = busRows readRow readName := by decide
theorem rowsOfKind_write : rowsOfKind 0x1 = busRows writeRow writeName := by decide
theorem rowsOfKind_irqSet : rowsOfKind 0x2 = [irqRow "IRQ.SET" 0x2] := by decide
theorem rowsOfKind_irqClr : rowsOfKind 0x3 = [irqRow "IRQ.CLR" 0x3] := by decide
theorem rowsOfKind_ramb : rowsOfKind 0x4 = [rambRow] := by decide
theorem rowsOfKind_save : rowsOfKind 0x5 = [hostRow "SAVE" 0x5] := by decide
theorem rowsOfKind_load : rowsOfKind 0x6 = [hostRow "LOAD" 0x6] := by decide
theorem rowsOfKind_reset : rowsOfKind 0x7 = [hostRow "RESET" 0x7] := by decide
theorem rowsOfKind_pon : rowsOfKind 0x8 = [hostRow "PON" 0x8] := by decide
theorem rowsOfKind_teardown : rowsOfKind 0x9 = [hostRow "TEARDOWN" 0x9] := by decide

/-- The reserved kinds have no row (R82). -/
theorem rowsOfKind_reserved : ∀ {k : BitVec 4}, (k ≠ 0x0 ∧ k ≠ 0x1 ∧ k ≠ 0x2 ∧ k ≠ 0x3 ∧ k ≠ 0x4 ∧ k ≠ 0x5 ∧ k ≠ 0x6 ∧ k ≠ 0x7
    ∧ k ≠ 0x8 ∧ k ≠ 0x9) → rowsOfKind k = [] := by
  decide

/-- Every row's mask holds the whole `kind`. -/
theorem kind_mask_of_mem : ∀ row ∈ opcodeTable, ewKind row.mask = ones 4 := by decide

theorem tableMnemonic_eq_rowsOfKind (w : EventWord) : tableMnemonic w = firstMnemonic w (rowsOfKind (ewKind w)) := by
  refine (firstMnemonic_filter fun row hrow hm => ?_).symm
  have hkind := congrArg ewKind (of_decide_eq_true hm)
  rw [kind_and, kind_mask_of_mem row hrow, and_ones] at hkind
  exact decide_eq_true hkind.symm

/-! The decoder and the rows, format by format. -/

section
variable {w : EventWord}

/-- When each row of a bus access asks `c` and its own address bits, `c` decides whether one matches, and the window of the
address which. -/
theorem firstMnemonic_busRows {row : String → Addr → Addr → OpcodeRow} {c : Prop} [Decidable c] (name : Target → String)
    (hname : ∀ n a am, (row n a am).mnemonic = n)
    (hmatch : ∀ n a am, matchesRow w (row n a am) = true ↔ c ∧ ewAddr w &&& am = a) :
    firstMnemonic w (busRows row name) = if c then some (name (window Params.standard (ewAddr w))) else none := by
  rw [Machine.standardWindowsArePages]
  by_cases hc : c
  · simp only [busRows, firstMnemonic_cons, hname, hmatch, hc, true_and, and_ones, and_pageMask_eq_page_iff, BitVec.and_zero,
      if_true]
    split_ifs <;> rfl
  · simp [busRows, hmatch, hc]

theorem decodeRead_mnemonic (hk : ewKind w = 0x0) :
    (decodeRead Params.standard w).instr?.map Instr.mnemonic = firstMnemonic w (busRows readRow readName) := by
  rw [decodeRead_instr?, firstMnemonic_busRows (c := ewDev w = 0 ∧ ewPad w = 0 ∧ ewData w = 0) readName readRow_mnemonic
    fun _ _ _ => matches_readRow.trans (and_iff_right hk), ← mnemonic_readAt, apply_ite (Option.map _)]
  rfl

theorem decodeWrite_mnemonic (hk : ewKind w = 0x1) :
    (decodeWrite Params.standard w).instr?.map Instr.mnemonic = firstMnemonic w (busRows writeRow writeName) := by
  rw [decodeWrite_instr?, firstMnemonic_busRows (c := ewNse w = false ∧ ewDev w = 0 ∧ ewPad w = 0) writeName writeRow_mnemonic
    fun _ _ _ => matches_writeRow.trans (and_iff_right hk), ← mnemonic_writeAt, apply_ite (Option.map _)]
  rfl

theorem decodeIrq_mnemonic {op : BitVec 3 → Byte → Instr} {name : String} (hname : ∀ d m, (op d m).mnemonic = name) :
    (decodeIrq 8 op w).instr?.map Instr.mnemonic = firstMnemonic w [irqRow name (ewKind w)] := by
  have present : (ewDev w).toNat < 8 := (ewDev w).isLt
  simp [decodeIrq_instr?, matches_irqRow, present, hname]

theorem decodeRamb_mnemonic (hk : ewKind w = 0x4) :
    (decodeRamb w).instr?.map Instr.mnemonic = firstMnemonic w [rambRow] := by
  simp [decodeRamb_instr?, matches_rambRow, hk, Instr.mnemonic]

theorem decodeHost_mnemonic (i : Instr) :
    (decodeHost i w).instr?.map Instr.mnemonic = firstMnemonic w [hostRow i.mnemonic (ewKind w)] := by
  simp [decodeHost_instr?, matches_hostRow]

end

end Sys2Proof

namespace Sys2Proof.Machine

/-! The step. -/

section
variable {s : State} {ag : Agent} {w : EventWord} {r : SnapRec} {rest : List Input} (hq : s.inbox = .op ag w r :: rest)
include hq

/-- An event whose word spells an operation is held against the rights of its agent (R270). -/
theorem step_of_instr {i : Instr} (h : decode s.params s.devs.length w r = .instr i) :
    step s = if ag = i.agent then exec i { s with inbox := rest } else .refused .agentMayNot := by
  simp [step, nextStep, hq, consume, presentOp, h]

theorem step_of_invalid {e : DecodeError} (h : decode s.params s.devs.length w r = .invalid e) :
    step s = .refused (.invalidWord e) := by
  simp [step, nextStep, hq, consume, presentOp, h]

end

/-- An interrupt request of a device that is not in `DEVS` is refused, whatever it asks of the aggregate (U16). -/
theorem irqRequest_absent {s : State} {dev : BitVec 3} (h : s.devs.length ≤ dev.toNat) (f : Byte → Byte → Byte) :
    irqRequest dev f s = .refused .noSuchDevice := by
  simp [irqRequest, List.getElem?_eq_none h]

/-! The statements. -/

/-- Settles O2: the word's fields are read back, and a bus access has an address in its own window. -/
theorem decodeOfEncodeIsTheOperation : Obligations.DecodeOfEncodeIsTheOperation := by
  intro p nDev i _ hwf
  cases i with
  | rdLatch nse => simp only [encode, encodeWord, decode_readWord, readAt, window_eq_latchLoc_iff.2]
  | rdD1 a nse | rdD6 a nse | rdD7 a nse | rdNosel a nse =>
    have hw := of_decide_eq_true hwf
    simp only [encode, encodeWord, decode_readWord, readAt, hw]
  | wrLatch v => simp only [encode, encodeWord, decode_writeWord, writeAt, window_eq_latchLoc_iff.2]
  | wrD1 a v | wrD6 a v | wrD7 a v | wrNosel a v =>
    have hw := of_decide_eq_true hwf
    simp only [encode, encodeWord, decode_writeWord, writeAt, hw]
  | irqSet dev m | irqClr dev m =>
    have present : dev.toNat < nDev := of_decide_eq_true hwf
    simp [encode, encodeWord, decode, decodeIrq_irqWord present]
  | rambSet b => simp [encode, encodeWord, decode, decodeRamb_rambWord]
  | save | load r | reset | pon | teardown => simp [encode, encodeWord, recordOf, decode, decodeHost_hostWord]

/-- Settles O3. -/
theorem acceptedWordIsItsEncoding : Obligations.AcceptedWordIsItsEncoding := fun _ _ _ _ _ => spells_of_decode

/-- Settles O4: the `kind` selects the decoder's format and the rows alike, and each format's condition on the fields is that of
its rows. -/
theorem decoderAgreesWithOpcodeTable : Obligations.DecoderAgreesWithOpcodeTable := by
  intro w r
  rw [tableMnemonic_eq_rowsOfKind]
  unfold decode
  split_ifs with h0 h1 h2 h3 h4 h5 h6 h7 h8 h9
  · rw [decodeRead_mnemonic h0, h0, rowsOfKind_read]
  · rw [decodeWrite_mnemonic h1, h1, rowsOfKind_write]
  · rw [decodeIrq_mnemonic (name := "IRQ.SET") fun _ _ => rfl, h2, rowsOfKind_irqSet]
  · rw [decodeIrq_mnemonic (name := "IRQ.CLR") fun _ _ => rfl, h3, rowsOfKind_irqClr]
  · rw [decodeRamb_mnemonic h4, h4, rowsOfKind_ramb]
  · rw [decodeHost_mnemonic, h5, rowsOfKind_save]; rfl
  · rw [decodeHost_mnemonic, h6, rowsOfKind_load]; rfl
  · rw [decodeHost_mnemonic, h7, rowsOfKind_reset]; rfl
  · rw [decodeHost_mnemonic, h8, rowsOfKind_pon]; rfl
  · rw [decodeHost_mnemonic, h9, rowsOfKind_teardown]; rfl
  · rw [rowsOfKind_reserved ⟨h0, h1, h2, h3, h4, h5, h6, h7, h8, h9⟩]; rfl

/-- Settles O1. -/
theorem standardWordsDecode : Obligations.StandardWordsDecode := by
  unfold Obligations.StandardWordsDecode
  decide

/-- Settles O6. -/
theorem stepRunsDecodedOperation : Obligations.StepRunsDecodedOperation := by
  intro s ag w r rest i hq hdec hag
  rw [step_of_instr hq hdec, if_pos hag.symm]

/-- Settles O7. -/
theorem stepRefusesInvalidAndForeignEvents : Obligations.StepRefusesInvalidAndForeignEvents := by
  intro s ag w r rest hq
  constructor
  · intro e hdec
    exact step_of_invalid hq hdec
  · intro i hdec hag
    rw [step_of_instr hq hdec, if_neg (Ne.symm hag)]

/-- Settles O37. -/
theorem legalCodesHaveAtMostOneBit : Obligations.LegalCodesHaveAtMostOneBit := by
  unfold Obligations.LegalCodesHaveAtMostOneBit
  decide

/-- Settles O45. -/
theorem irqRequestOfAbsentDeviceIsRefused : Obligations.IrqRequestOfAbsentDeviceIsRefused := by
  intro s dev mask ha habs
  have absent (f : Byte → Byte → Byte) : irqRequest dev f (clearOut s) = .refused .noSuchDevice :=
    irqRequest_absent (s := clearOut s) habs f
  exact ⟨(whenAlive_of_alive _ ha).trans (absent _), (whenAlive_of_alive _ ha).trans (absent _)⟩

end Sys2Proof.Machine
end

