-- ==== Sys2Proof/Proofs/Slice0/DeviceContractFamily.lean ====
section
/-! PROOFS. The statements of 40_device_contract.md: who moves the interrupt bits, and the moves of the environment. Of the bits
`HandlerWork` already says that they follow the calls; what is left is that a bus access, `RAMB.SET`, `SAVE` and `TEARDOWN` do
nothing to `IRQ_AGG` but handler work. -/

namespace Sys2Proof.Machine

/-! The interrupt bits. -/

/-- The operations that hold no write of `IRQ_AGG` of their own (R214). -/
def LeavesIrqToHandlers (i : Instr) : Prop :=
  i.agent = .cpu ∨ (∃ b, i = .rambSet b) ∨ i = .save ∨ i = .teardown

/-- Such an operation is handler work as a whole: the register writes that follow the handlers are none of `IRQ_AGG`. -/
theorem OpEffect.handlerWork {s t : State} {i : Instr} (e : OpEffect s i t) (hi : LeavesIrqToHandlers i) :
    HandlerWork (clearOut s) t := by
  cases e with
  | handlers w k => exact w
  | @transition v u w k => exact (w.trans (.latchWrite v u)).trans (.finish _ _)
  | rambSet => exact .of_eq rfl rfl rfl rfl rfl rfl rfl
  | teardown w k => exact w.trans (.of_eq rfl rfl rfl rfl rfl rfl rfl)
  | irqSet | irqClr | load | reset | powerOn => simp [LeavesIrqToHandlers, Instr.agent] at hi

/-- Handler work of an operation keeps every bit that no called device owns (R120, R213). -/
theorem HandlerWork.irqBit_kept {s t : State} (w : HandlerWork (clearOut s) t) {k : Nat}
    (hk : ∀ c ∈ t.out.calls, ∀ d, s.devs[c.dev]? = some d → d.irqMask.getLsbD k = false) :
    t.irqAgg.getLsbD k = s.irqAgg.getLsbD k := by
  obtain ⟨new, hcalls, kept⟩ := w.irq
  obtain rfl : t.out.calls = new := hcalls
  exact kept k hk

/-! The moves of the environment. -/

/-- A step deals with the head of the queue (R26). -/
theorem step_of_inbox_cons {s : State} {x : Input} {rest : List Input} (hq : s.inbox = x :: rest) :
    step s = consume x { s with inbox := rest } := by
  simp [step, nextStep, hq]

theorem step_of_inbox_nil {s : State} (hq : s.inbox = []) : step s = .next s := by
  simp [step, nextStep, hq]

theorem setEnable_devs_getElem? (i : Nat) (b : Bool) (s : State) (j : Nat) :
    (setEnable i b s).devs[j]? = (s.devs[j]?).map fun d => if i = j then { d with en := b } else d :=
  List.getElem?_modify ..

theorem moveDevice_devs_getElem? (i : Nat) (q : DState) (s : State) (j : Nat) :
    (moveDevice i q s).devs[j]? = (s.devs[j]?).map fun d => if i = j then { d with dst := q } else d :=
  List.getElem?_modify ..

/-! The statements. -/

/-- Settles O16. -/
theorem irqBitsMoveOnlyByTheirOwner : Obligations.IrqBitsMoveOnlyByTheirOwner :=
  fun _ _ _ _ h hi hk => ((exec_effect h).handlerWork hi).irqBit_kept hk

/-- Settles O8. -/
theorem stepTakesEnvironmentMoves : Obligations.StepTakesEnvironmentMoves := by
  intro s rest
  refine ⟨step_of_inbox_nil, fun a v hq => ?_, fun i b hq => ?_, fun i q hq => ?_⟩
  · exact ⟨_, step_of_inbox_cons hq, memRead_memWrite_same _ a v, fun _ hb => memRead_memWrite_other _ v hb, rfl⟩
  · exact ⟨_, step_of_inbox_cons hq, setEnable_devs_getElem? i b _, rfl⟩
  · exact ⟨_, step_of_inbox_cons hq, moveDevice_devs_getElem? i q _, rfl⟩

end Sys2Proof.Machine
end

/-! PROOFS. The statements of 41_dispatcher.md: the arbiter, the five reads and the five writes. On a live core every bus access
is an equation (`exec_rdD1` and so on), and what it does is one round of answered calls (`calls_frame`), or two rounds, the
second of which meets the devices as the first left them (`twoRounds_calls`). -/

namespace Sys2Proof.Machine

/-! The bus accesses of a live core. -/

section
variable {s : State} (ha : s.alive = true)
include ha

theorem exec_rdLatch (nse : Bool) :
    exec (.rdLatch nse) s = readD1 s.params.latchAddr nse (statusAnswer nse) (clearOut s) := whenAlive_of_alive _ ha

theorem exec_rdD1 (a : Addr) (nse : Bool) : exec (.rdD1 a nse) s = readD1 a nse (openBusRead a) (clearOut s) :=
  whenAlive_of_alive _ ha

theorem exec_rdNosel (a : Addr) (nse : Bool) : exec (.rdNosel a nse) s = .next (finish .noData (clearOut s)) :=
  whenAlive_of_alive (fun u => .next (finish .noData u)) ha

theorem exec_wrLatch (v : Byte) : exec (.wrLatch v) s = .next (finish .written (writeLatchAddr v (clearOut s))) :=
  whenAlive_of_alive (fun u => .next (finish .written (writeLatchAddr v u))) ha

theorem exec_wrD1 (a : Addr) (v : Byte) : exec (.wrD1 a v) s = .next (finish .written (writeD1 a v (clearOut s))) :=
  whenAlive_of_alive (fun u => .next (finish .written (writeD1 a v u))) ha

theorem exec_wrNosel (a : Addr) (v : Byte) : exec (.wrNosel a v) s = .next (finish .ignored (clearOut s)) :=
  whenAlive_of_alive (fun u => .next (finish .ignored u)) ha

/-- `RD.D1` and `RD.LATCH` are one read; they differ in what answers where no device does (R144, R145). -/
theorem exec_readD1 {i : Instr} {a : Addr} {nse : Bool} (hi : i = .rdD1 a nse ∨ (i = .rdLatch nse ∧ a = s.params.latchAddr)) :
    ∃ unclaimed, exec i s = readD1 a nse unclaimed (clearOut s) := by
  rcases hi with rfl | ⟨rfl, rfl⟩
  · exact ⟨_, exec_rdD1 ha a nse⟩
  · exact ⟨_, exec_rdLatch ha nse⟩

theorem exec_readD67 {i : Instr} {w : Window} {a : Addr} {nse : Bool}
    (hi : (i = .rdD6 a nse ∧ w = .d6) ∨ (i = .rdD7 a nse ∧ w = .d7)) : exec i s = readD67 w a nse (clearOut s) := by
  rcases hi with ⟨rfl, rfl⟩ | ⟨rfl, rfl⟩ <;> exact whenAlive_of_alive _ ha

theorem exec_writeD67 {i : Instr} {w : Window} {a : Addr} {v : Byte}
    (hi : (i = .wrD6 a v ∧ w = .d6) ∨ (i = .wrD7 a v ∧ w = .d7)) :
    exec i s = .next (finish .written (writeD67 w a v (clearOut s))) := by
  rcases hi with ⟨rfl, rfl⟩ | ⟨rfl, rfl⟩ <;>
    exact whenAlive_of_alive (fun u => .next (finish .written (writeD67 _ a v u))) ha

end

/-! The diagnostic hook (R157). -/

theorem report_eq_withTrace (i : TraceItem) (s : State) :
    ∃ tr, report i s = { s with out := { s.out with trace := tr } } := by
  unfold report
  split
  · exact ⟨_, rfl⟩
  · exact ⟨s.out.trace, rfl⟩

theorem openBusRead_eq (a : Addr) (s : State) :
    ∃ tr, openBusRead a s = { s with out := ⟨.data 0xFF .openBus, s.out.calls, tr⟩ } := by
  obtain ⟨tr, htr⟩ := report_eq_withTrace (.unclaimedRead a) s
  exact ⟨tr, by rw [openBusRead, htr]; rfl⟩

/-! One round of calls. -/

/-- `mk` makes calls of the listed devices themselves, and `h` is what the replies change. -/
def CallsWith (mk : Nat × Device → Settled) (h : Device → DState × List Eff) : Prop :=
  ∀ x, (mk x).i = x.1 ∧ (mk x).d = x.2 ∧ (mk x).dst = (h x.2).1 ∧ (mk x).effs = (h x.2).2

/-- The answered call of an exclusive read. -/
def readXCall (w : Window) (a : Addr) (nse : Bool) (x : Nat × Device) : Settled :=
  let r := x.2.model.readX x.2.dst w a nse
  ⟨x.1, x.2, .readX w a nse, .byte r.ans, r.dst, r.effs⟩

/-- The answered call of a write. -/
def writeCall (w : Window) (a : Addr) (v : Byte) : Nat × Device → Settled :=
  unitCall (fun d => d.model.write d.dst w a v) (.write w a v)

theorem callsWith_readCall (a : Addr) (nse : Bool) :
    CallsWith (readCall a nse) fun d => changeOf (d.model.read d.dst .d1 a nse) := fun _ => ⟨rfl, rfl, rfl, rfl⟩

theorem callsWith_readXCall (w : Window) (a : Addr) (nse : Bool) :
    CallsWith (readXCall w a nse) fun d => changeOf (d.model.readX d.dst w a nse) := fun _ => ⟨rfl, rfl, rfl, rfl⟩

theorem callsWith_writeCall (w : Window) (a : Addr) (v : Byte) :
    CallsWith (writeCall w a v) fun d => changeOf (d.model.write d.dst w a v) := fun _ => ⟨rfl, rfl, rfl, rfl⟩

theorem callsWith_statusCall : CallsWith statusCall fun d => changeOf (d.model.irqStatus d.dst) :=
  fun _ => ⟨rfl, rfl, rfl, rfl⟩

theorem callsWith_bankCall (v : Byte) : CallsWith (bankCall v) fun d => changeOf (d.model.bankSelect d.dst v) :=
  fun _ => ⟨rfl, rfl, rfl, rfl⟩

/-- A round of calls, one for each of some members of a search list in their order, keeps the registers and changes what the
replies say. -/
theorem calls_frame {h : Device → DState × List Eff} {p : Device → Bool} {xs : List (Nat × Device)} {s : State}
    {mk : Nat × Device → Settled} (hmk : CallsWith mk h) (hxs : xs.Sublist (select p s)) :
    CoreKept s (settleAll (xs.map mk) (clearOut s)) ∧ HandlersRan h xs s (settleAll (xs.map mk) (clearOut s)) := by
  have rising := (select_rising p s).sublist hxs
  have inSlots : ∀ x ∈ xs, s.devs[x.1]? = some x.2 := fun x hx => by
    obtain ⟨hslot, _⟩ := mem_select.1 (hxs.subset hx)
    exact hslot
  exact ⟨by simp [CoreKept], (handlersRan_settleAll (s := clearOut s) mk hmk rising inSlots).congr_left rfl rfl rfl⟩

/-- The head of a search list is a round of its own. -/
theorem head_sublist {α : Type} {xs more : List α} {x : α} (hx : xs = x :: more) : [x].Sublist xs := by
  simp [hx]

/-! Two rounds of calls. -/

/-- A listed device with the state `f` gives it. -/
abbrev withState (f : Device → DState) (x : Nat × Device) : Nat × Device := (x.1, { x.2 with dst := f x.2 })

/-- A second round of calls to some of the devices of the first meets them in the states that the first gave them. -/
theorem HandlersRan.second_round {h k : Device → DState × List Eff} {xs ds : List (Nat × Device)} {s u : State}
    (first : HandlersRan h xs s u) {mk : Nat × Device → Settled} (hmk : CallsWith mk k)
    (hr : ds.Pairwise (fun x y => x.1 < y.1)) (hsub : ∀ y ∈ ds, y ∈ xs) :
    HandlersRan k (ds.map (withState fun d => (h d).1)) u
      (settleAll ((ds.map (withState fun d => (h d).1)).map mk) u) := by
  obtain ⟨⟨_, called, _⟩, _⟩ := first
  refine handlersRan_settleAll mk hmk (List.pairwise_map.2 hr) fun x hx => ?_
  obtain ⟨y, hy, rfl⟩ := List.mem_map.1 hx
  exact called y (hsub y hy)

/-- The devices after two rounds: those of the second, those of the first only, and those of neither. -/
theorem DevsBecome.second_round {f g : Device → DState} {xs ds : List (Nat × Device)} {s u t : State}
    (first : DevsBecome f xs s u) (second : DevsBecome g (ds.map (withState f)) u t) (hsub : ∀ y ∈ ds, y ∈ xs)
    (hs : ∀ x ∈ xs, s.devs[x.1]? = some x.2) :
    t.devs.length = s.devs.length
    ∧ (∀ y ∈ ds, t.devs[y.1]? = some { y.2 with dst := g { y.2 with dst := f y.2 } })
    ∧ (∀ y ∈ xs, y ∉ ds → t.devs[y.1]? = some { y.2 with dst := f y.2 })
    ∧ (∀ j, (∀ y ∈ xs, y.1 ≠ j) → t.devs[j]? = s.devs[j]?) := by
  obtain ⟨len1, called1, kept1⟩ := first
  obtain ⟨len2, called2, kept2⟩ := second
  have keptBut (j : Nat) (hj : ∀ z ∈ ds, z.1 ≠ j) : t.devs[j]? = u.devs[j]? :=
    kept2 j (List.forall_mem_map.2 hj)
  refine ⟨len2.trans len1, fun y hy => called2 _ (List.mem_map_of_mem hy), fun y hy hn => ?_, fun j hj => ?_⟩
  · rw [keptBut y.1 fun z hz hslot => ?_, called1 y hy]
    have same : z.2 = y.2 := by simpa [hslot, hs y hy] using (hs z (hsub z hz)).symm
    exact hn (Prod.ext hslot same ▸ hz)
  · rw [keptBut j fun z hz => hj z (hsub z hz), kept1 j hj]

theorem MemKeptBut.trans {es fs : List Eff} {s u t : State} (first : MemKeptBut es s u) (second : MemKeptBut fs u t) :
    MemKeptBut (es ++ fs) s t := by
  intro a ha
  rw [second a fun v hv => ha v (List.mem_append_right _ hv), first a fun v hv => ha v (List.mem_append_left _ hv)]

/-- Ownership does not depend on a device's state, so a second round to devices of the first moves no further bit. -/
theorem IrqKeptBut.second_round {f : Device → DState} {xs ds : List (Nat × Device)} {s u t : State}
    (first : IrqKeptBut xs s u) (second : IrqKeptBut (ds.map (withState f)) u t) (hsub : ∀ y ∈ ds, y ∈ xs) :
    IrqKeptBut xs s t := by
  intro k hk
  rw [second k (List.forall_mem_map.2 fun y hy => hk y (hsub y hy)), first k hk]

/-- What two rounds of calls make of a state: every device of `xs` replies with the change `h`, and then those of `ds`, which are
among them, with the change `k`; both are functions of the device as it was before the first round. -/
structure TwoRounds (h k : Device → DState × List Eff) (xs ds : List (Nat × Device)) (s t : State) : Prop where
  core : CoreKept s t
  length : t.devs.length = s.devs.length
  both : ∀ y ∈ ds, t.devs[y.1]? = some { y.2 with dst := (k y.2).1 }
  firstOnly : ∀ y ∈ xs, y ∉ ds → t.devs[y.1]? = some { y.2 with dst := (h y.2).1 }
  neither : ∀ j, (∀ y ∈ xs, y.1 ≠ j) → t.devs[j]? = s.devs[j]?
  mem : t.mem = memAfter (fun d => (k d).2) ds (memAfter (fun d => (h d).2) xs s.mem)
  irqAgg : t.irqAgg = irqAfter (fun d => (k d).2) ds (irqAfter (fun d => (h d).2) xs s.irqAgg)
  memKept : MemKeptBut ((xs.flatMap fun y => (h y.2).2) ++ ds.flatMap fun y => (k y.2).2) s t
  irqKept : IrqKeptBut xs s t

theorem twoRounds_calls {h k : Device → DState × List Eff} {p : Device → Bool} {ds : List (Nat × Device)} {s : State}
    {mk mk' : Nat × Device → Settled} (hmk : CallsWith mk h) (hmk' : CallsWith mk' k)
    (hr : ds.Pairwise (fun x y => x.1 < y.1)) (hsub : ∀ y ∈ ds, y ∈ select p s) :
    TwoRounds h (fun d => k { d with dst := (h d).1 }) (select p s) ds s
      (settleAll ((ds.map (withState fun d => (h d).1)).map mk') (settleAll ((select p s).map mk) (clearOut s))) := by
  obtain ⟨_, first⟩ := calls_frame hmk (List.Sublist.refl (select p s))
  obtain ⟨devs2, mem2, irq2, memKept2, irqKept2⟩ := first.second_round hmk' hr hsub
  obtain ⟨devs1, mem1, irq1, memKept1, irqKept1⟩ := first
  obtain ⟨len, both, firstOnly, neither⟩ := devs1.second_round devs2 hsub fun y hy => by
    obtain ⟨hslot, _⟩ := mem_select.1 hy
    exact hslot
  rw [mem1] at mem2
  rw [irq1] at irq2
  rw [List.flatMap_map] at memKept2
  exact
    { core := by simp [CoreKept]
      length := len
      both := both
      firstOnly := firstOnly
      neither := neither
      mem := mem2.trans (memAfter_map (fun d => (k d).2) (fun d => (h d).1) ds _)
      irqAgg := irq2.trans (irqAfter_map (fun d => (k d).2) (fun d => (h d).1) ds _)
      memKept := memKept1.trans memKept2
      irqKept := irqKept1.second_round irqKept2 hsub }

/-! The exclusive grant (R142). -/

/-- A device that honours suppression where the read is suppressed is not refused. -/
theorem mustRefuse_readX_of_honours {d : Device} {nse : Bool} (hh : nse = true → HonoursSuppression d.model) (w : Window)
    (a : Addr) : mustRefuse nse d (d.model.readX d.dst w a nse) = false := by
  cases nse with
  | false => rfl
  | true => exact mustRefuse_readX_false (hh rfl) w a true

theorem mustRefuse_read_of_honours {d : Device} {nse : Bool} (hh : nse = true → HonoursSuppression d.model) (w : Window)
    (a : Addr) : mustRefuse nse d (d.model.read d.dst w a nse) = false := by
  cases nse with
  | false => rfl
  | true => exact mustRefuse_read_false (hh rfl) w a true

theorem exclusiveRead_of_accepted {w : Window} {a : Addr} {nse : Bool} {x : Nat × Device}
    (hm : mustRefuse nse x.2 (x.2.model.readX x.2.dst w a nse) = false) (s : State) :
    exclusiveRead w a nse x s
      = .next (finish (.data (x.2.model.readX x.2.dst w a nse).ans (.excl x.1)) (settleAll [readXCall w a nse x] s)) := by
  simp [exclusiveRead, hm, settleAll, readXCall]

/-- The first device of a list of exclusive devices answers a read verbatim and alone (R142). -/
theorem exclusiveRead_frame {p : Device → Bool} {s : State} {x : Nat × Device} {more : List (Nat × Device)} {nse : Bool}
    (hx : select p s = x :: more) (hh : nse = true → HonoursSuppression x.2.model) (w : Window) (a : Addr) :
    ∃ t, exclusiveRead w a nse x (clearOut s) = .next t
      ∧ t.out.result = .data (x.2.model.readX x.2.dst w a nse).ans (.excl x.1)
      ∧ t.out.calls = [⟨x.1, .readX w a nse, .byte (x.2.model.readX x.2.dst w a nse).ans⟩]
      ∧ CoreKept s t ∧ HandlersRan (fun d => changeOf (d.model.readX d.dst w a nse)) [x] s t :=
  ⟨_, exclusiveRead_of_accepted (mustRefuse_readX_of_honours hh w a) _, rfl, rfl,
    calls_frame (callsWith_readXCall w a nse) (head_sublist hx)⟩

theorem readD1_of_exclusive {s : State} {x : Nat × Device} {more : List (Nat × Device)} (hx : xd1 s = x :: more) (a : Addr)
    (nse : Bool) (f : State → State) : readD1 a nse f s = exclusiveRead .d1 a nse x s := by
  simp [readD1, hx]

theorem readD67_of_exclusive {s : State} {x : Nat × Device} {more : List (Nat × Device)} (hx : xd67 s = x :: more) (w : Window)
    (a : Addr) (nse : Bool) : readD67 w a nse s = exclusiveRead w a nse x s := by
  simp [readD67, hx]

/-! The cooperative search (R143). -/

/-- Without an exclusive device the first cooperative device that answers `Handled` ends the read. -/
theorem readD1_of_handled {s : State} {a : Addr} {nse : Bool} {pre post : List (Nat × Device)} {x : Nat × Device} {v : Byte}
    (hx : xd1 s = []) (hc : cd1 s = pre ++ x :: post)
    (hpre : ∀ y ∈ pre, (y.2.model.read y.2.dst .d1 a nse).ans = .notHandled)
    (hv : (x.2.model.read x.2.dst .d1 a nse).ans = .handled v)
    (hh : nse = true → ∀ y ∈ pre ++ [x], HonoursSuppression y.2.model) (f : State → State) :
    readD1 a nse f s = .next (finish (.data v (.coop x.1)) (settleAll ((pre ++ [x]).map (readCall a nse)) s)) := by
  have accepted : ∀ y ∈ pre ++ [x], mustRefuse nse y.2 (y.2.model.read y.2.dst .d1 a nse) = false :=
    fun y hy => mustRefuse_read_of_honours (fun hn => hh hn y hy) .d1 a
  simp only [readD1, hx, hc, coopRead_of_handled hpre hv accepted]

/-- Without an exclusive device and without an answer `Handled` the read ends as `f` says, after every cooperative device was
asked. -/
theorem readD1_of_notHandled {s : State} {a : Addr} {nse : Bool} (hx : xd1 s = [])
    (hc : ∀ y ∈ cd1 s, (y.2.model.read y.2.dst .d1 a nse).ans = .notHandled)
    (hh : nse = true → ∀ y ∈ cd1 s, HonoursSuppression y.2.model) (f : State → State) :
    readD1 a nse f s = .next (f (settleAll ((cd1 s).map (readCall a nse)) s)) := by
  have accepted : ∀ y ∈ cd1 s, mustRefuse nse y.2 (y.2.model.read y.2.dst .d1 a nse) = false :=
    fun y hy => mustRefuse_read_of_honours (fun hn => hh hn y hy) .d1 a
  simp only [readD1, hx, coopRead_of_notHandled hc accepted]

theorem readD1_of_nobody {s : State} (hx : xd1 s = []) (hc : cd1 s = []) (a : Addr) (nse : Bool) (f : State → State) :
    readD1 a nse f s = .next (f s) := by
  simp [readD1, hx, hc, coopRead]

theorem readCalls_of_notHandled {a : Addr} {nse : Bool} {xs : List (Nat × Device)}
    (hc : ∀ y ∈ xs, (y.2.model.read y.2.dst .d1 a nse).ans = .notHandled) :
    (xs.map (readCall a nse)).map (fun c => (⟨c.i, c.req, c.ans⟩ : Call))
      = xs.map fun y => ⟨y.1, .read .d1 a nse, .tagged .notHandled⟩ := by
  rw [List.map_map]
  exact List.map_congr_left fun y hy => by simp [readCall, hc y hy]

/-! `IS` and `BS` are parts of `CD1` (R118). -/

theorem inCd1_of_inIs {d : Device} (h : inIs d = true) : inCd1 d = true := (Bool.and_eq_true_iff.1 h).1

theorem inCd1_of_inBs {d : Device} (h : inBs d = true) : inCd1 d = true := (Bool.and_eq_true_iff.1 h).1

theorem cd1_of_irqStatusSlots {s : State} {y : Nat × Device} (hy : y ∈ irqStatusSlots s) : y ∈ cd1 s := by
  obtain ⟨hslot, his⟩ := mem_select.1 hy
  exact mem_select.2 ⟨hslot, inCd1_of_inIs his⟩

theorem cd1_of_offeredTo {v : Byte} {now : Device → DState} {s : State} {y : Nat × Device} (hy : y ∈ offeredTo v now s) :
    y ∈ cd1 s := by
  obtain ⟨hslot, hbs⟩ := mem_select.1 (mem_bs_of_offeredTo hy)
  exact mem_select.2 ⟨hslot, inCd1_of_inBs hbs⟩

/-! The status read (R195). -/

theorem statusAnswer_normal (s : State) :
    statusAnswer false s
      = finish (.data ((irqStatusSlots s).foldl (fun b y => b ||| (y.2.model.irqStatus y.2.dst).ans) 0x00) .status)
          (settleAll ((irqStatusSlots s).map statusCall) s) := by
  simp [statusAnswer, statusRead, statusCollect_eq]

/-- Without cooperative devices the status read answers 0x00 in both modes (R156). -/
theorem statusAnswer_of_nobody {s : State} (hc : cd1 s = []) (nse : Bool) :
    statusAnswer nse s = finish (.data 0x00 .status) s := by
  have none : irqStatusSlots s = [] := List.eq_nil_iff_forall_not_mem.2 fun y hy => by
    simpa [hc] using cd1_of_irqStatusSlots hy
  cases nse with
  | false => rw [statusAnswer_normal, none]; rfl
  | true => rfl

/-- `IS` after the cooperative search: the same slots, with the states that the search gave them. -/
theorem irqStatusSlots_after_search (a : Addr) (nse : Bool) (s : State) :
    irqStatusSlots (settleAll ((cd1 s).map (readCall a nse)) s)
      = (irqStatusSlots s).map (withState fun d => (d.model.read d.dst .d1 a nse).dst) :=
  select_after_calls inIs inCd1 (readCall a nse) (fun d => (d.model.read d.dst .d1 a nse).dst) s (fun _ => ⟨rfl, rfl⟩)
    (fun _ _ => rfl) fun _ => inCd1_of_inIs

/-! Reads complete (R159). -/

/-- A read keeps the registers (R144 to R148): of the effects of operations only handler work belongs to a read. -/
theorem OpEffect.coreKept_of_isRead {s t : State} {i : Instr} (e : OpEffect s i t) (hi : isRead i = true) : CoreKept s t := by
  cases e with
  | handlers w k => exact k
  | _ => exact absurd hi Bool.false_ne_true

/-- The outcome is a next state, or the refusal of a suppressed read that consulted a device of `s` that breaks its duty (R121,
U10). -/
def CompletesOrBroken (nse : Bool) (s : State) (r : StepOutcome) : Prop :=
  (∃ t, r = .next t) ∨ (nse = true ∧ r = .refused .suppressionBroken ∧ ¬ AllHonour s)

theorem nse_of_mustRefuse {α : Type} {nse : Bool} {d : Device} {r : Reply α} (h : mustRefuse nse d r = true) : nse = true :=
  (Bool.and_eq_true_iff.1 h).1

theorem exclusiveRead_completes {p : Device → Bool} {s : State} {x : Nat × Device} (hx : x ∈ select p s) (w : Window) (a : Addr)
    (nse : Bool) : CompletesOrBroken nse s (exclusiveRead w a nse x s) := by
  cases hm : mustRefuse nse x.2 (x.2.model.readX x.2.dst w a nse) with
  | false => exact .inl ⟨_, exclusiveRead_of_accepted hm s⟩
  | true =>
    refine .inr ⟨nse_of_mustRefuse hm, by simp [exclusiveRead, hm], fun hh => ?_⟩
    simp [mustRefuse_readX_false (hh.of_mem_select hx) w a nse] at hm

theorem readD1_completes (a : Addr) (nse : Bool) (f : State → State) (s : State) :
    CompletesOrBroken nse s (readD1 a nse f s) := by
  unfold readD1
  split
  · next x more hx => exact exclusiveRead_completes (p := inXd1) (show x ∈ xd1 s by simp [hx]) .d1 a nse
  · rcases coopRead_spec a nse (cd1 s) s with ⟨hc, x, hx, hm⟩ | ⟨hc, _⟩ | ⟨pre, x, post, v, _, hc, _⟩
    · refine .inr ⟨nse_of_mustRefuse hm, by rw [hc], fun hh => ?_⟩
      simp [mustRefuse_read_false (hh.of_mem_select hx) .d1 a nse] at hm
    · exact .inl ⟨_, by rw [hc]⟩
    · exact .inl ⟨_, by rw [hc]⟩

theorem readD67_completes (w : Window) (a : Addr) (nse : Bool) (s : State) :
    CompletesOrBroken nse s (readD67 w a nse s) := by
  unfold readD67
  split
  · next x more hx => exact exclusiveRead_completes (p := inXd67) (show x ∈ xd67 s by simp [hx]) w a nse
  · split <;> exact .inl ⟨_, rfl⟩

/-- Each of the five reads on a live core. -/
theorem exec_read_completes {i : Instr} {s : State} (hi : isRead i = true) (ha : s.alive = true) :
    CompletesOrBroken (isSuppressedRead i) s (exec i s) := by
  cases i with
  | rdLatch nse => rw [exec_rdLatch ha]; exact readD1_completes _ nse _ (clearOut s)
  | rdD1 a nse => rw [exec_rdD1 ha]; exact readD1_completes a nse _ (clearOut s)
  | rdD6 a nse => rw [exec_readD67 ha (.inl ⟨rfl, rfl⟩)]; exact readD67_completes .d6 a nse (clearOut s)
  | rdD7 a nse => rw [exec_readD67 ha (.inr ⟨rfl, rfl⟩)]; exact readD67_completes .d7 a nse (clearOut s)
  | rdNosel a nse => exact .inl ⟨_, exec_rdNosel ha a nse⟩
  | _ => exact absurd hi Bool.false_ne_true

/-! Writes. -/

theorem deliverWrite_eq (w : Window) (a : Addr) (v : Byte) (xs : List (Nat × Device)) (s : State) :
    deliverWrite w a v xs s = settleAll (xs.map (writeCall w a v)) s := broadcast_eq _ _ xs s

/-- Delivering a write to members of a search list is one round of calls (R115). -/
theorem deliverWrite_frame {p : Device → Bool} {s : State} {xs : List (Nat × Device)} (hxs : xs.Sublist (select p s))
    (w : Window) (a : Addr) (v : Byte) :
    CoreKept s (deliverWrite w a v xs (clearOut s))
    ∧ HandlersRan (fun d => changeOf (d.model.write d.dst w a v)) xs s (deliverWrite w a v xs (clearOut s)) := by
  rw [deliverWrite_eq]
  exact calls_frame (callsWith_writeCall w a v) hxs

theorem writeD1_of_exclusive {s : State} {x : Nat × Device} {more : List (Nat × Device)} (hx : xd1 s = x :: more) (a : Addr)
    (v : Byte) : writeD1 a v s = deliverWrite .d1 a v [x] s := by
  simp [writeD1, hx]

theorem writeLatchAddr_of_exclusive {s : State} {x : Nat × Device} {more : List (Nat × Device)} (hx : xd1 s = x :: more)
    (v : Byte) : writeLatchAddr v s = deliverWrite .d1 s.params.latchAddr v [x] s := by
  simp [writeLatchAddr, hx]

theorem writeD67_of_exclusive {s : State} {x : Nat × Device} {more : List (Nat × Device)} (hx : xd67 s = x :: more) (w : Window)
    (a : Addr) (v : Byte) : writeD67 w a v s = deliverWrite w a v [x] s := by
  simp [writeD67, hx]

theorem cooperativeWrite_of_nobody {s : State} (hc : cd1 s = []) (a : Addr) (v : Byte) : cooperativeWrite a v s = s := by
  simp [cooperativeWrite, hc, deliverWrite_eq, settleAll]

/-- Without an exclusive device `WR.D1` is the delivery to the cooperative devices, be there none or some: only the trace tells
(R149, R157). -/
theorem writeD1_of_no_exclusive {s : State} (hx : xd1 s = []) (a : Addr) (v : Byte) :
    ∃ tr, writeD1 a v s = { cooperativeWrite a v s with out := { (cooperativeWrite a v s).out with trace := tr } } := by
  cases hc : cd1 s with
  | nil =>
    have reported : writeD1 a v s = report (.unclaimedWrite a) s := by simp [writeD1, hx, hc, unclaimedWrite]
    rw [cooperativeWrite_of_nobody hc, reported]
    exact report_eq_withTrace _ s
  | cons y ys => exact ⟨(cooperativeWrite a v s).out.trace, by simp [writeD1, hx, hc]⟩

theorem writeD67_of_nobody {s : State} (hx : xd67 s = []) (hr : s.ramBacked = false) (w : Window) (a : Addr) (v : Byte) :
    ∃ tr, writeD67 w a v s = { s with out := { s.out with trace := tr } } := by
  have reported : writeD67 w a v s = report (.unclaimedWrite a) s := by simp [writeD67, hx, hr, unclaimedWrite]
  rw [reported]
  exact report_eq_withTrace _ s

theorem readD67_of_nobody {s : State} (hx : xd67 s = []) (hr : s.ramBacked = false) (w : Window) (a : Addr) (nse : Bool) :
    readD67 w a nse s = .next (openBusRead a s) := by
  simp [readD67, hx, hr]

/-- A write at the latch address without an exclusive device (R150). -/
theorem writeLatchAddr_of_no_exclusive {s : State} (hx : xd1 s = []) (v : Byte) :
    writeLatchAddr v s = latchWrite v (settleAll ((cd1 s).map (writeCall .d1 s.params.latchAddr v)) s) := by
  simp [writeLatchAddr, hx, cooperativeWrite, deliverWrite_eq]

/-! The statements. -/

/-- Settles O24: the cooperative search is the first round, the status combiner the second. -/
theorem statusReadCombinesEveryContribution : Obligations.StatusReadCombinesEveryContribution := by
  intro s ha hx hc searched asked
  let u := settleAll ((cd1 s).map (readCall s.params.latchAddr false)) (clearOut s)
  have slots : irqStatusSlots u = (irqStatusSlots s).map (withState fun d => (searched d).dst) :=
    irqStatusSlots_after_search s.params.latchAddr false (clearOut s)
  have ran : exec (.rdLatch false) s = .next (statusAnswer false u) :=
    (exec_rdLatch ha false).trans (readD1_of_notHandled (s := clearOut s) hx hc (by simp) _)
  rw [statusAnswer_normal, slots, List.foldl_map] at ran
  have rounds := twoRounds_calls (callsWith_readCall s.params.latchAddr false) callsWith_statusCall (select_rising inIs s)
    fun _ => cd1_of_irqStatusSlots
  refine ⟨_, ran, rfl, ?_, rounds.core, rounds.irqKept, rounds.mem, rounds.irqAgg, rounds.memKept, rounds.length, rounds.both,
    rounds.firstOnly, rounds.neither⟩
  simp only [finish_calls, settleAll_calls, u, clearOut_out, readCalls_of_notHandled hc, List.map_map]
  rfl

/-- Settles O39: the deliveries are the first round, the offer of the transition the second. -/
theorem latchWriteOffersInPriorityOrder : Obligations.LatchWriteOffersInPriorityOrder := by
  intro s v ha hx wrote banked offered
  let u := settleAll ((cd1 s).map (writeCall .d1 s.params.latchAddr v)) (clearOut s)
  have asked : offeredTo v Device.dst u = offered.map (withState fun d => (wrote d).dst) :=
    offeredTo_after_calls v inCd1 (writeCall .d1 s.params.latchAddr v) (fun d => (wrote d).dst) (clearOut s)
      (fun _ => ⟨rfl, rfl⟩) fun _ => inCd1_of_inBs
  have ran : exec (.wrLatch v) s = .next (finish .written (latchWrite v u)) := by
    rw [exec_wrLatch ha, writeLatchAddr_of_no_exclusive (s := clearOut s) hx]
    rfl
  have rounds := twoRounds_calls (callsWith_writeCall .d1 s.params.latchAddr v) (callsWith_bankCall v)
    (offeredTo_rising v (fun d => (wrote d).dst) s) fun _ => cd1_of_offeredTo
  obtain ⟨hdevs, hcalls, hirq, _⟩ := latchWrite_handlers v u
  rw [asked] at hdevs hcalls hirq
  refine ⟨_, ran, hcalls.trans ?_, ?_, ?_, ?_, ?_, hirq.trans rounds.irqAgg⟩
  · simp only [settleAll_calls, u, clearOut_out, List.map_map]
    rfl
  all_goals rw [finish_devs, hdevs]
  · exact rounds.length
  · exact rounds.firstOnly
  · exact rounds.both
  · exact rounds.neither

/-- Settles O15: of the operations that write either register only `WR.LATCH` is a bus access, and an exclusive device swallows
it. -/
theorem exclusiveD1DeviceFreezesTheLatch : Obligations.ExclusiveD1DeviceFreezesTheLatch := by
  intro i s t hi hx h
  have e := exec_effect h
  by_cases hw : ∃ v, i = .wrLatch v
  · obtain ⟨v, rfl⟩ := hw
    obtain ⟨_, ran⟩ := whenAlive_next (show execWrLatch v s = .next t from h)
    cases ran
    rcases writeLatchAddr_cases v (clearOut s) with ⟨_, _, kept⟩ | ⟨hnone, _⟩
    · exact ⟨kept.latch, kept.romShadow⟩
    · exact absurd hnone hx
  · constructor
    · by_contra hne
      rcases e.latch_writers hne with hv | rfl | rfl | ⟨r, rfl⟩
      · exact hw hv
      all_goals cases hi
    · by_contra hne
      rcases e.romShadow_writers hne with hv | rfl | ⟨rfl, _⟩
      · exact hw hv
      all_goals cases hi

/-- Settles O18. -/
theorem readsComplete : Obligations.ReadsComplete := by
  intro i s hi ha
  rcases exec_read_completes hi ha with ⟨t, ht⟩ | ⟨hsup, hr, broken⟩
  · exact ⟨fun _ => ⟨t, ht, (exec_effect ht).coreKept_of_isRead hi⟩, .inl ⟨t, ht⟩⟩
  · exact ⟨fun hh => absurd (hh hsup) broken, .inr ⟨hsup, hr⟩⟩

/-- Settles O19. -/
theorem exclusiveD1DeviceAnswersTheRead : Obligations.ExclusiveD1DeviceAnswersTheRead := by
  intro s x more i a nse ha hx hh hi
  obtain ⟨f, hread⟩ := exec_readD1 ha hi
  rw [hread, readD1_of_exclusive (s := clearOut s) hx]
  exact exclusiveRead_frame hx hh .d1 a

/-- Settles O20. -/
theorem exclusiveD67DeviceAnswersTheRead : Obligations.ExclusiveD67DeviceAnswersTheRead := by
  intro s x more i w a nse ha hx hh hi
  rw [exec_readD67 ha hi, readD67_of_exclusive (s := clearOut s) hx]
  exact exclusiveRead_frame hx hh w a

/-- Settles O21. -/
theorem firstCooperativeAnswerWins : Obligations.FirstCooperativeAnswerWins := by
  intro s pre post x v i a nse ha hx hc hpre hv hh hi
  obtain ⟨f, hread⟩ := exec_readD1 ha hi
  have asked : (pre ++ [x]).Sublist (cd1 s) := by simp [hc]
  refine ⟨_, hread.trans (readD1_of_handled (s := clearOut s) hx hc hpre hv hh f), rfl, ?_,
    calls_frame (callsWith_readCall a nse) asked⟩
  simp [readCall, Outputs.empty]

/-- Settles O22. -/
theorem unhandledD1ReadIsOpenBus : Obligations.UnhandledD1ReadIsOpenBus := by
  intro s a nse ha hx hc hh
  obtain ⟨tr, hopen⟩ := openBusRead_eq a (settleAll ((cd1 s).map (readCall a nse)) (clearOut s))
  have ran := readD1_of_notHandled (s := clearOut s) hx hc hh (openBusRead a)
  rw [cd1_clearOut, hopen] at ran
  refine ⟨_, (exec_rdD1 ha a nse).trans ran, rfl, ?_,
    calls_frame (callsWith_readCall a nse) (List.Sublist.refl (cd1 s))⟩
  simp [readCalls_of_notHandled hc, Outputs.empty]

/-- Settles O30. -/
theorem exclusiveD1DeviceTakesTheWrite : Obligations.ExclusiveD1DeviceTakesTheWrite := by
  intro s x more i a v ha hx hi
  have ran : exec i s = .next (finish .written (deliverWrite .d1 a v [x] (clearOut s))) := by
    rcases hi with rfl | ⟨rfl, rfl⟩
    · rw [exec_wrD1 ha, writeD1_of_exclusive (s := clearOut s) hx]
    · rw [exec_wrLatch ha, writeLatchAddr_of_exclusive (s := clearOut s) hx]; rfl
  exact ⟨_, ran, rfl, deliverWrite_frame (head_sublist hx) .d1 a v⟩

/-- Settles O31. -/
theorem exclusiveD67DeviceTakesTheWrite : Obligations.ExclusiveD67DeviceTakesTheWrite := by
  intro s x more i w a v ha hx hi
  have ran := exec_writeD67 ha hi
  rw [writeD67_of_exclusive (s := clearOut s) hx] at ran
  exact ⟨_, ran, rfl, deliverWrite_frame (head_sublist hx) w a v⟩

/-- Settles O32. -/
theorem cooperativeWriteReachesEveryDevice : Obligations.CooperativeWriteReachesEveryDevice := by
  intro s a v ha hx
  obtain ⟨tr, hwrite⟩ := writeD1_of_no_exclusive (s := clearOut s) hx a v
  have ran := exec_wrD1 ha a v
  rw [hwrite] at ran
  refine ⟨_, ran, rfl, ?_, deliverWrite_frame (List.Sublist.refl (cd1 s)) .d1 a v⟩
  simp only [finish_calls, cooperativeWrite, deliverWrite_eq, settleAll_calls, List.map_map]
  rfl

/-- Settles O34. -/
theorem ramWindowWriteStoresOneByte : Obligations.RamWindowWriteStoresOneByte := by
  intro s i a v ha hx hr hi
  refine ⟨_, exec_write_of_ramWindow ha hx hr hi, rfl, memRead_memWrite_same (clearOut s) a v, fun b hb => ?_,
    ⟨rfl, rfl, rfl, rfl, rfl, rfl, rfl⟩, rfl, rfl⟩
  exact memRead_memWrite_other (clearOut s) v hb

/-- Settles O23. -/
theorem openBusWhereNothingResponds : Obligations.OpenBusWhereNothingResponds := by
  intro s a nse ha
  obtain ⟨tr, hopen⟩ := openBusRead_eq a (clearOut s)
  refine ⟨fun hx hc => ⟨⟨tr, ?_⟩, ?_⟩, fun hx hr => ?_⟩
  · rw [exec_rdD1 ha, readD1_of_nobody (s := clearOut s) hx hc, hopen]; rfl
  · rw [exec_rdLatch ha, readD1_of_nobody (s := clearOut s) hx hc, statusAnswer_of_nobody (s := clearOut s) hc]; rfl
  · have answered {i : Instr} {w : Window} (hi : (i = .rdD6 a nse ∧ w = .d6) ∨ (i = .rdD7 a nse ∧ w = .d7)) :
        exec i s = .next { s with out := ⟨.data 0xFF .openBus, [], tr⟩ } := by
      rw [exec_readD67 ha hi, readD67_of_nobody (s := clearOut s) hx hr, hopen]; rfl
    exact ⟨⟨tr, answered (.inl ⟨rfl, rfl⟩)⟩, ⟨tr, answered (.inr ⟨rfl, rfl⟩)⟩⟩

/-- Settles O26. -/
theorem ramWindowReadReturnsMemory : Obligations.RamWindowReadReturnsMemory :=
  fun _ _ _ _ ha hx hr hi => exec_read_of_ramWindow ha hx hr hi

/-- Settles O27. -/
theorem readOutsideWindowsGivesNoData : Obligations.ReadOutsideWindowsGivesNoData :=
  fun _ a nse ha => ⟨_, exec_rdNosel ha a nse, rfl, rfl, rfl⟩

/-- Settles O33. -/
theorem unclaimedWriteIsNoOp : Obligations.UnclaimedWriteIsNoOp := by
  intro s a v ha
  refine ⟨fun hx hc => ?_, fun hx hr => ?_⟩
  · obtain ⟨tr, hwrite⟩ := writeD1_of_no_exclusive (s := clearOut s) hx a v
    exact ⟨tr, by rw [exec_wrD1 ha, hwrite, cooperativeWrite_of_nobody (s := clearOut s) hc]; rfl⟩
  · have ignored {i : Instr} {w : Window} (hi : (i = .wrD6 a v ∧ w = .d6) ∨ (i = .wrD7 a v ∧ w = .d7)) :
        ∃ tr, exec i s = .next { s with out := ⟨.written, [], tr⟩ } := by
      obtain ⟨tr, hwrite⟩ := writeD67_of_nobody (s := clearOut s) hx hr w a v
      exact ⟨tr, by rw [exec_writeD67 ha hi, hwrite]; rfl⟩
    exact ⟨ignored (.inl ⟨rfl, rfl⟩), ignored (.inr ⟨rfl, rfl⟩)⟩

/-- Settles O36. -/
theorem writeOutsideWindowsIsIgnored : Obligations.WriteOutsideWindowsIsIgnored :=
  fun _ a v ha => ⟨_, exec_wrNosel ha a v, rfl, rfl⟩

end Sys2Proof.Machine

/-! PROOFS. The statements of 42_bank_select_latch.md: the transition, the shadow copy and the suppressed status read. A memory in
canonical form is determined by what it reads (`Memory.eq_of_get?_eq`), so the block copy and the byte loop are compared by their
reads alone. `WR.LATCH` is a round of deliveries and then the transition (`exec_wrLatch_of_no_exclusive`), whose cases are read
from the state that the deliveries leave (`someoneTakes_afterWrites`, `twoRounds_wrLatch`). -/

namespace Sys2Proof.Machine

/-! Memories in canonical form. -/

/-- The order in which a canonical memory lists its cells. -/
def cellBelow (c e : Host.Cell) : Prop := c.1 < e.1

theorem Memory.rising_iff_pairwise (m : Memory) : Memory.rising m = true ↔ m.Pairwise cellBelow := by
  induction m with
  | nil => simp [Memory.rising]
  | cons c m ih => rw [Memory.rising_cons, List.pairwise_cons, ih]; rfl

/-- A canonical memory reads the bytes that it lists. -/
theorem Memory.get?_eq_some_iff_mem {m : Memory} (h : Memory.rising m = true) (a : Nat) (v : Byte) :
    Memory.get? m a = some v ↔ (a, v) ∈ m := by
  induction m with
  | nil => simp [Memory.get?]
  | cons c m ih =>
    obtain ⟨b, w⟩ := c
    obtain ⟨above, rising⟩ := (Memory.rising_cons _ _).1 h
    rw [Memory.get?, List.mem_cons, Prod.mk.injEq]
    split
    · next hab =>
      subst hab
      have unlisted : (a, v) ∉ m := fun hm => Nat.lt_irrefl a (above _ hm)
      simp [unlisted, eq_comm]
    · next hab => simp [hab, ih rising]

/-- Canonical memories that read alike are equal. -/
theorem Memory.eq_of_get?_eq {m n : Memory} (hm : Memory.rising m = true) (hn : Memory.rising n = true)
    (h : ∀ a, Memory.get? m a = Memory.get? n a) : m = n := by
  have irrefl : Std.Irrefl cellBelow := ⟨fun c => Nat.lt_irrefl c.1⟩
  have antisymm : Std.Antisymm cellBelow := ⟨fun _ _ hce hec => absurd hec (Nat.lt_asymm hce)⟩
  refine ((Memory.rising_iff_pairwise m).1 hm).eq_of_mem_iff ((Memory.rising_iff_pairwise n).1 hn) fun ⟨a, v⟩ => ?_
  rw [← Memory.get?_eq_some_iff_mem hm, ← Memory.get?_eq_some_iff_mem hn, h a]

/-! The shadow copy as a loop (R187). -/

/-- Single writes of `f 0`, `f 1` and so on, `n` of them, from address `a` upwards. -/
def writeLoop (a : Nat) (f : Nat → Byte) (n : Nat) (m : Memory) : Memory :=
  (List.range n).foldl (fun m k => Memory.put m (a + k) (f k)) m

theorem writeLoop_succ (a : Nat) (f : Nat → Byte) (n : Nat) (m : Memory) :
    writeLoop a f (n + 1) m = Memory.put (writeLoop a f n m) (a + n) (f n) := by
  simp [writeLoop, List.range_succ]

theorem rising_writeLoop (a : Nat) (f : Nat → Byte) (n : Nat) {m : Memory} (h : Memory.rising m = true) :
    Memory.rising (writeLoop a f n m) = true := by
  induction n with
  | zero => exact h
  | succ n ih => rw [writeLoop_succ]; exact Memory.rising_put _ _ _ ih

theorem get?_writeLoop (a : Nat) (f : Nat → Byte) (n : Nat) (m : Memory) (b : Nat) :
    Memory.get? (writeLoop a f n m) b = if a ≤ b ∧ b < a + n then some (f (b - a)) else Memory.get? m b := by
  induction n with
  | zero => rw [if_neg (by omega)]; rfl
  | succ n ih =>
    rw [writeLoop_succ]
    by_cases hb : b = a + n
    · subst hb
      rw [Memory.get?_put_same, if_pos (by omega), Nat.add_sub_cancel_left]
    · rw [Memory.get?_put_other _ _ hb, ih]
      have same : (a ≤ b ∧ b < a + (n + 1)) ↔ (a ≤ b ∧ b < a + n) := by omega
      simp only [same]

/-- In a canonical memory a block write is the loop of single writes. -/
theorem Memory.putBlock_eq_writeLoop {size : Nat} {m : Memory} (h : Memory.wf size m = true) {a n : Nat} (hn : a + n ≤ size)
    (f : Nat → Byte) : Memory.putBlock m a ((List.range n).map f) = writeLoop a f n m := by
  have blockWf : Memory.wf size (Memory.putBlock m a ((List.range n).map f)) = true := Memory.wf_putBlock (by simpa using hn) h
  obtain ⟨rising, _⟩ := (Memory.wf_iff _ _).1 h
  obtain ⟨blockRising, _⟩ := (Memory.wf_iff _ _).1 blockWf
  refine Memory.eq_of_get?_eq blockRising (rising_writeLoop a f n rising) fun b => ?_
  rw [Memory.get?_putBlock, get?_writeLoop, List.length_map, List.length_range]
  split
  · next inside => simp [show b - a < n by omega]
  · rfl

/-! The suppressed status read (R196). -/

theorem eq_withOut_of_clearOut_eq {s t : State} (h : clearOut t = clearOut s) : t = { s with out := t.out } :=
  congrArg (fun u : State => { u with out := t.out }) h

/-! The cases of the transition (R189). -/

/-- Some device of `BS` takes the code in the state it stands in (R188). -/
def someoneTakes (v : Byte) (s : State) : Bool :=
  (bs s).any fun y => decide ((y.2.model.bankSelect y.2.dst v).ans = .handled)

theorem someoneTakes_eq_false_iff {v : Byte} {s : State} :
    someoneTakes v s = false ↔ ∀ y ∈ bs s, (y.2.model.bankSelect y.2.dst v).ans = .notHandled := by
  have declined (c : Claim) : c ≠ .handled ↔ c = .notHandled := by cases c <;> simp
  simp [someoneTakes, declined]

section
variable {v : Byte} {s : State}

theorem latchWrite_of_illegal (hl : legal v = false) : latchWrite v s = report (.invalidLatch v) s := by
  simp [latchWrite, hl]

theorem latchWrite_of_current (hl : legal v = true) (hv : v = s.latch) : latchWrite v s = s := by
  simp [latchWrite, ← hv, hl]

/-- A legal new code is stored, and the flag says whether nobody took it (R189, R190e). -/
theorem latchWrite_of_new (hl : legal v = true) (hv : v ≠ s.latch) :
    (latchWrite v s).latch = v ∧ (latchWrite v s).romShadow = !someoneTakes v s := by
  rcases latchWrite_spec v s with ⟨illegal, _⟩ | ⟨_, current, _⟩ | ⟨_, _, pre, x, post, hbs, handled, _, h⟩
    | ⟨_, _, declined, h⟩
  · simp [hl] at illegal
  · exact absurd current hv
  · have taken : someoneTakes v s = true := List.any_eq_true.2 ⟨x, by simp [hbs], by simp [handled]⟩
    simp [h, taken]
  · simp [h, someoneTakes_eq_false_iff.2 declined]

end

/-! `MEM` across the transition (R185, R187). -/

/-- The transition makes the shadow copy (R185): the code is legal and new, nobody takes it, and `ROM_SHADOW` is false. -/
def CopyRuns (v : Byte) (s : State) : Prop :=
  legal v = true ∧ v ≠ s.latch ∧ someoneTakes v s = false ∧ s.romShadow = false

/-- What the handlers that the transition calls make of the state. -/
def afterOffer (v : Byte) (s : State) : State := settleAll ((offeredTo v Device.dst s).map (bankCall v)) s

section
variable {v : Byte} {s : State}

theorem copyRuns_iff : CopyRuns v s ↔ legal v = true ∧ v ≠ s.latch
    ∧ (∀ y ∈ bs s, (y.2.model.bankSelect y.2.dst v).ans = .notHandled) ∧ s.romShadow = false := by
  rw [CopyRuns, someoneTakes_eq_false_iff]

theorem latchWrite_mem_of_copy (h : CopyRuns v s) : (latchWrite v s).mem = (shadowRestore (afterOffer v s)).mem := by
  obtain ⟨_, _, _, hmem⟩ := latchWrite_handlers v s
  exact hmem.trans (if_pos (copyRuns_iff.1 h))

theorem latchWrite_mem_of_no_copy (h : ¬ CopyRuns v s) : (latchWrite v s).mem = (afterOffer v s).mem := by
  obtain ⟨_, _, _, hmem⟩ := latchWrite_handlers v s
  exact hmem.trans (if_neg fun hc => h (copyRuns_iff.2 hc))

theorem memRead_eq_of_mem_eq {s t : State} (h : t.mem = s.mem) (a : Addr) : memRead t a = memRead s a := by
  rw [memRead, h, memRead]

/-- The shadow region after a transition that copies. -/
theorem memRead_latchWrite_inside (h : CopyRuns v s) {k : Nat} (hk : k < shadowLen) :
    memRead (latchWrite v s) (BitVec.ofNat 16 (shadowDst + k)) = romRead s (shadowSrc + k) := by
  have sameRom : romRead (afterOffer v s) (shadowSrc + k) = romRead s (shadowSrc + k) := by
    simp [romRead, afterOffer]
  rw [memRead_eq_of_mem_eq (latchWrite_mem_of_copy h), memRead_shadowRestore_inside _ hk, sameRom]

/-- Every byte that the copy does not write is as the called handlers left it. -/
theorem memRead_latchWrite_outside {a : Addr}
    (ha : CopyRuns v s → a.toNat < shadowDst ∨ shadowDst + shadowLen ≤ a.toNat) :
    memRead (latchWrite v s) a = memRead (afterOffer v s) a := by
  by_cases h : CopyRuns v s
  · rw [memRead_eq_of_mem_eq (latchWrite_mem_of_copy h), memRead_shadowRestore_outside _ (ha h)]
  · exact memRead_eq_of_mem_eq (latchWrite_mem_of_no_copy h) a

end

/-! `WR.LATCH` without an exclusive device (R150): the deliveries, then the transition. -/

/-- The state in which the deliveries of `WR.LATCH` leave the machine, and the transition finds it. -/
def afterWrites (v : Byte) (s : State) : State :=
  settleAll ((cd1 s).map (writeCall .d1 s.params.latchAddr v)) (clearOut s)

/-- The state of a device after its `Write` handler has received the code. -/
def writtenState (v : Byte) (s : State) (d : Device) : DState := (d.model.write d.dst .d1 s.params.latchAddr v).dst

theorem exec_wrLatch_of_no_exclusive {s : State} (ha : s.alive = true) (hx : xd1 s = []) (v : Byte) :
    exec (.wrLatch v) s = .next (finish .written (latchWrite v (afterWrites v s))) := by
  rw [exec_wrLatch ha, writeLatchAddr_of_no_exclusive (s := clearOut s) hx]
  rfl

section
variable (v : Byte) (s : State)

@[simp] theorem afterWrites_alive : (afterWrites v s).alive = s.alive := by simp [afterWrites]
@[simp] theorem afterWrites_latch : (afterWrites v s).latch = s.latch := by simp [afterWrites]
@[simp] theorem afterWrites_romShadow : (afterWrites v s).romShadow = s.romShadow := by simp [afterWrites]
@[simp] theorem afterWrites_ramBacked : (afterWrites v s).ramBacked = s.ramBacked := by simp [afterWrites]
@[simp] theorem afterWrites_rom : (afterWrites v s).rom = s.rom := by simp [afterWrites]
@[simp] theorem afterWrites_params : (afterWrites v s).params = s.params := by simp [afterWrites]
@[simp] theorem afterWrites_inbox : (afterWrites v s).inbox = s.inbox := by simp [afterWrites]

theorem bs_afterWrites : bs (afterWrites v s) = (bs s).map (withState (writtenState v s)) :=
  select_after_calls inBs inCd1 (writeCall .d1 s.params.latchAddr v) (writtenState v s) (clearOut s) (fun _ => ⟨rfl, rfl⟩)
    (fun _ _ => rfl) fun _ => inCd1_of_inBs

theorem someoneTakes_afterWrites :
    someoneTakes v (afterWrites v s)
      = (bs s).any fun y => decide ((y.2.model.bankSelect (writtenState v s y.2) v).ans = .handled) := by
  rw [someoneTakes, bs_afterWrites, List.any_map]
  rfl

theorem offeredTo_afterWrites :
    offeredTo v Device.dst (afterWrites v s) = (offeredTo v (writtenState v s) s).map (withState (writtenState v s)) :=
  offeredTo_after_calls v inCd1 (writeCall .d1 s.params.latchAddr v) (writtenState v s) (clearOut s) (fun _ => ⟨rfl, rfl⟩)
    fun _ => inCd1_of_inBs

/-- The deliveries and the offer are two rounds of calls. -/
theorem twoRounds_wrLatch :
    TwoRounds (fun d => changeOf (d.model.write d.dst .d1 s.params.latchAddr v))
      (fun d => changeOf (d.model.bankSelect (writtenState v s d) v)) (cd1 s) (offeredTo v (writtenState v s) s) s
      (afterOffer v (afterWrites v s)) := by
  rw [afterOffer, offeredTo_afterWrites]
  exact twoRounds_calls (callsWith_writeCall .d1 s.params.latchAddr v) (callsWith_bankCall v)
    (offeredTo_rising v (writtenState v s) s) fun _ => cd1_of_offeredTo

end

/-! The statements. -/

/-- Settles O40: without the copy `MEM` is what the two rounds of calls make of it, and the copy overwrites the shadow region
alone. -/
theorem shadowCopyRunsExactlyOnFallback : Obligations.ShadowCopyRunsExactlyOnFallback := by
  intro s v ha hx wrote banked offered taken copies handled
  have rounds := twoRounds_wrLatch v s
  have runs : CopyRuns v (afterWrites v s) ↔ copies := by
    simp only [CopyRuns, someoneTakes_afterWrites, afterWrites_latch, afterWrites_romShadow]
    rfl
  have outside (a : Addr) (hc : copies → a.toNat < 0xD800 ∨ 0xE000 ≤ a.toNat) :
      memRead (latchWrite v (afterWrites v s)) a = memRead (afterOffer v (afterWrites v s)) a :=
    memRead_latchWrite_outside fun h => hc (runs.1 h)
  refine ⟨_, exec_wrLatch_of_no_exclusive ha hx v, fun hc => ?_, fun hc k hk => ?_, fun a hc => ?_,
    fun a hc hwrote hbanked => ?_⟩
  · exact (latchWrite_mem_of_no_copy fun h => hc (runs.1 h)).trans rounds.mem
  · have copied := memRead_latchWrite_inside (runs.2 hc) (k := k) hk
    rwa [romRead, afterWrites_rom] at copied
  · exact (outside a hc).trans (memRead_eq_of_mem_eq rounds.mem a)
  · refine (outside a hc).trans (rounds.memKept a fun b hb => ?_)
    rcases List.mem_append.1 hb with hb | hb
    · obtain ⟨y, hy, hw⟩ := List.mem_flatMap.1 hb
      exact hwrote y hy b hw
    · obtain ⟨y, hy, hw⟩ := List.mem_flatMap.1 hb
      exact hbanked y hy b hw

/-- Settles O38. -/
theorem latchWriteFollowsTheTable : Obligations.LatchWriteFollowsTheTable := by
  intro s v ha hx taken
  have takenThen : someoneTakes v (afterWrites v s) = taken := someoneTakes_afterWrites v s
  have work := HandlerWork.latchWrite v (afterWrites v s)
  obtain ⟨halive, hramb, _⟩ := latchWrite_registers v (afterWrites v s)
  have stored (hl : legal v = true) (hv : v ≠ s.latch) := latchWrite_of_new (s := afterWrites v s) hl (by simpa using hv)
  refine ⟨_, exec_wrLatch_of_no_exclusive ha hx v, rfl, halive.trans (by simp), hramb.trans (by simp), work.rom.trans (by simp),
    work.params.trans (by simp), work.inbox.trans (by simp), fun hl => ?_, fun hl hv => ?_, fun hl hv ht => ?_,
    fun hl hv ht => ?_⟩
  · simp [latchWrite_of_illegal hl]
  · simp [latchWrite_of_current hl (s := afterWrites v s) (by simpa using hv)]
  · simpa [takenThen, ht] using stored hl hv
  · simpa [takenThen, ht] using stored hl hv

/-- Settles O25: the search keeps everything but the output ports, and the suppressed status answers without a call. -/
theorem suppressedStatusReadIsZero : Obligations.SuppressedStatusReadIsZero := by
  intro s ha hx hc hh
  let u := settleAll ((cd1 s).map (readCall s.params.latchAddr true)) (clearOut s)
  have ran : exec (.rdLatch true) s = .next (statusAnswer true u) :=
    (exec_rdLatch ha true).trans (readD1_of_notHandled (s := clearOut s) hx hc (fun _ => hh) _)
  have quiet : clearOut (statusAnswer true u) = clearOut s :=
    (clearOut_statusAnswer_suppressed u).trans (clearOut_readCalls_suppressed (s := clearOut s) (fun _ hy => hy)
      fun y hy => mustRefuse_read_false (hh y hy) .d1 _ true)
  rw [eq_withOut_of_clearOut_eq quiet] at ran
  refine ⟨_, ran, rfl, fun c hcall => ?_⟩
  have reads : u.out.calls = (cd1 s).map fun y => ⟨y.1, .read .d1 s.params.latchAddr true, .tagged .notHandled⟩ := by
    simp only [u, settleAll_calls, clearOut_out, readCalls_of_notHandled hc]
    rfl
  obtain ⟨y, _, rfl⟩ := List.mem_map.1 (reads ▸ (show c ∈ u.out.calls from hcall))
  exact nofun

/-- Settles O41. -/
theorem shadowCopyIsTheByteLoop : Obligations.ShadowCopyIsTheByteLoop :=
  fun s h => Memory.putBlock_eq_writeLoop h (by decide) fun k => romRead s (shadowSrc + k)

/-- Settles O42. -/
theorem rejectedAndRedundantCodesChangeNothing : Obligations.RejectedAndRedundantCodesChangeNothing := by
  intro s v
  refine ⟨fun hl => ?_, fun hv hl => latchWrite_of_current hl hv⟩
  rw [latchWrite_of_illegal hl]
  exact report_eq_withTrace _ s

end Sys2Proof.Machine

/-! PROOFS. The statements of 43_irq_aggregator.md. On a live core an answered request is one equation on the aggregate
(`IsRequest`, `withAggregate`), and two requests in a row are the two functions of the aggregate one after the other
(`runOps_requests`); the laws of R219 are then facts about single bits (`getLsbD_setOwned`, `getLsbD_clearOwned`). -/

namespace Sys2Proof

/-! Owned bits of the aggregate (R211, R212). -/

section
variable (own own' agg m n : Byte)

@[simp] theorem getLsbD_setOwned (k : Nat) :
    (setOwned own agg m).getLsbD k = (agg.getLsbD k || (m.getLsbD k && own.getLsbD k)) := by
  simp [setOwned]

@[simp] theorem getLsbD_clearOwned (k : Nat) :
    (clearOwned own agg m).getLsbD k = (agg.getLsbD k && !(m.getLsbD k && own.getLsbD k)) := by
  by_cases hk : k < 8
  · simp only [clearOwned, BitVec.getLsbD_and, BitVec.getLsbD_not, hk, decide_true, Bool.true_and]
  · simp [BitVec.getLsbD_of_ge _ k (show 8 ≤ k by omega)]

theorem setOwned_setOwned_or : setOwned own (setOwned own agg m) n = setOwned own agg (m ||| n) := by
  refine BitVec.eq_of_getLsbD_eq fun k _ => ?_
  simp [Bool.and_or_distrib_right, Bool.or_assoc]

theorem setOwned_comm : setOwned own (setOwned own' agg n) m = setOwned own' (setOwned own agg m) n :=
  BitVec.eq_of_getLsbD_eq fun k _ => by simp [Bool.or_right_comm]

theorem clearOwned_comm : clearOwned own (clearOwned own' agg n) m = clearOwned own' (clearOwned own agg m) n :=
  BitVec.eq_of_getLsbD_eq fun k _ => by simp [Bool.and_right_comm]

variable {own own'}

theorem unowned_of_disjoint (h : own &&& own' = 0) (k : Nat) : own.getLsbD k = false ∨ own'.getLsbD k = false := by
  have bit := congrArg (BitVec.getLsbD · k) h
  simpa only [BitVec.getLsbD_and, BitVec.ofNat_eq_ofNat, BitVec.getLsbD_zero, Bool.and_eq_false_iff] using bit

/-- Each bit is moved by one of the two requests at most (R24). -/
theorem clearOwned_setOwned_comm (h : own &&& own' = 0) :
    clearOwned own' (setOwned own agg m) n = setOwned own (clearOwned own' agg n) m := by
  refine BitVec.eq_of_getLsbD_eq fun k _ => ?_
  rcases unowned_of_disjoint h k with unowned | unowned'
  · simp [unowned]
  · simp [unowned']

end

/-! The line (R216). -/

theorem orReduce_eq_false_iff (agg : Byte) : orReduce agg = false ↔ ∀ k < 8, agg.getLsbD k = false := by
  constructor
  · intro h k hk
    simp only [orReduce, Bool.or_eq_false_iff] at h
    interval_cases k <;> simp only [h]
  · intro h
    simp only [orReduce, h, Nat.reduceLT, Bool.or_self]

theorem orReduce_iff_ne_zero (agg : Byte) : orReduce agg = true ↔ agg ≠ 0 := by
  have zero : orReduce agg = false ↔ agg = 0 := by
    rw [orReduce_eq_false_iff]
    constructor
    · exact fun h => BitVec.eq_of_getLsbD_eq fun k hk => by simp [h k hk]
    · rintro rfl k _
      exact BitVec.getLsbD_zero
  rw [← Bool.not_eq_false, not_congr zero]

end Sys2Proof

namespace Sys2Proof.Machine

/-! A request that is answered (R211, R212). -/

/-- What an answered request makes of the machine: the aggregate is `agg`, the output ports hold the result, and nothing else
moves. -/
def withAggregate (agg : Byte) (s : State) : State := { s with irqAgg := agg, out := ⟨.done, [], []⟩ }

section
variable (agg : Byte) (s : State)

@[simp] theorem withAggregate_alive : (withAggregate agg s).alive = s.alive := rfl
@[simp] theorem withAggregate_devs : (withAggregate agg s).devs = s.devs := rfl
@[simp] theorem withAggregate_irqAgg : (withAggregate agg s).irqAgg = agg := rfl
@[simp] theorem withAggregate_withAggregate (agg' : Byte) :
    withAggregate agg' (withAggregate agg s) = withAggregate agg' s := rfl

end

/-- The operation `i` is a request of device `dev` that makes `f own agg` of the aggregate `agg`, `own` the device's bits. -/
def IsRequest (i : Instr) (dev : BitVec 3) (f : Byte → Byte → Byte) : Prop :=
  ∀ (s : State) (d : Device), s.alive = true → s.devs[dev.toNat]? = some d →
    exec i s = .next (withAggregate (f d.irqMask s.irqAgg) s)

theorem irqRequest_present {s : State} {dev : BitVec 3} {d : Device} (h : s.devs[dev.toNat]? = some d)
    (f : Byte → Byte → Byte) :
    irqRequest dev f (clearOut s) = .next (withAggregate (f d.irqMask s.irqAgg) s) := by
  simp only [irqRequest, clearOut_devs, h]
  rfl

theorem isRequest_irqSet (dev : BitVec 3) (mask : Byte) :
    IsRequest (.irqSet dev mask) dev fun own agg => setOwned own agg mask :=
  fun _ _ ha hd => (whenAlive_of_alive _ ha).trans (irqRequest_present hd _)

theorem isRequest_irqClr (dev : BitVec 3) (mask : Byte) :
    IsRequest (.irqClr dev mask) dev fun own agg => clearOwned own agg mask :=
  fun _ _ ha hd => (whenAlive_of_alive _ ha).trans (irqRequest_present hd _)

section
variable {s : State} {i j : Instr} {d e : BitVec 3} {f g : Byte → Byte → Byte} {x y : Device}

theorem runOps_requests (hi : IsRequest i d f) (hj : IsRequest j e g) (ha : s.alive = true)
    (hx : s.devs[d.toNat]? = some x) (hy : s.devs[e.toNat]? = some y) :
    runOps [i, j] s = .next (withAggregate (g y.irqMask (f x.irqMask s.irqAgg)) s) := by
  rw [runOps_cons_of_next [j] (hi s x ha hx), runOps_singleton, hj (withAggregate _ s) y (by simpa) (by simpa)]
  simp

/-- Two requests commute where their functions of the aggregate do. -/
theorem runOps_requests_comm (hi : IsRequest i d f) (hj : IsRequest j e g) (ha : s.alive = true)
    (hx : s.devs[d.toNat]? = some x) (hy : s.devs[e.toNat]? = some y)
    (comm : g y.irqMask (f x.irqMask s.irqAgg) = f x.irqMask (g y.irqMask s.irqAgg)) :
    runOps [i, j] s = runOps [j, i] s := by
  rw [runOps_requests hi hj ha hx hy, runOps_requests hj hi ha hy hx, comm]

end

/-! The statements. -/

/-- Settles O47. -/
theorem irqRequestsOfDifferentDevicesCommute : Obligations.IrqRequestsOfDifferentDevicesCommute := by
  intro s d e m n x y ha hx hy disjoint
  have setD := isRequest_irqSet d m
  have clrE := isRequest_irqClr e n
  refine ⟨?setClr, ?setSet, ?clrClr, _, runOps_requests setD clrE ha hx hy⟩
  case setClr => exact runOps_requests_comm setD clrE ha hx hy (clearOwned_setOwned_comm _ _ _ disjoint)
  case setSet => exact runOps_requests_comm setD (isRequest_irqSet e n) ha hx hy (setOwned_comm ..)
  case clrClr => exact runOps_requests_comm (isRequest_irqClr d m) clrE ha hx hy (clearOwned_comm ..)

/-- Settles O48: every bit that the set raises is one that the clear withdraws. -/
theorem irqRequestsOfOneDeviceCombine : Obligations.IrqRequestsOfOneDeviceCombine := by
  intro s d m n x ha hx
  have setM := isRequest_irqSet d m
  refine ⟨?setSet, _, runOps_requests setM (isRequest_irqClr d m) ha hx hx, fun k => ?setClr⟩
  case setSet =>
    rw [runOps_requests setM (isRequest_irqSet d n) ha hx hx, runOps_singleton, isRequest_irqSet d (m ||| n) s x ha hx,
      setOwned_setOwned_or]
  case setClr =>
    rw [withAggregate_irqAgg, getLsbD_clearOwned, getLsbD_setOwned, BitVec.getLsbD_and, Bool.and_or_distrib_right,
      Bool.and_not_self, Bool.or_false]

/-- Settles O43. -/
theorem irqSetRaisesOwnBits : Obligations.IrqSetRaisesOwnBits :=
  fun s dev mask => isRequest_irqSet dev mask s

/-- Settles O44. -/
theorem irqClrWithdrawsOwnBits : Obligations.IrqClrWithdrawsOwnBits :=
  fun s dev mask => isRequest_irqClr dev mask s

/-- Settles O46. -/
theorem irqLineIsAnyBitSet : Obligations.IrqLineIsAnyBitSet :=
  fun s => orReduce_iff_ne_zero s.irqAgg

end Sys2Proof.Machine


/-! PROOFS. The host operations (44_host_operations.md). What a record holds and what the registers hold determine each other
under the precondition of `LOAD`: the words of the flag and of the aggregate are inverse to the fields they restore
(`rambWord_rambFlag`, `irqWord_irqField`), so `snapshotOf` and `restoreFrom` are inverse (`snapshotOf_restoreFrom`,
`restoreFrom_snapshotOf`), which is LAW-8. -/

namespace Sys2Proof

/-! The snapshot words of the flag and of the aggregate (R230, R231, R233). -/

theorem rambIsBit_iff (w : SnapWord) : rambIsBit w = true ↔ w = 0 ∨ w = 1 := by simp [rambIsBit]

theorem irqFits_iff (w : SnapWord) : irqFits w = true ↔ w.toNat < 256 := by simp [irqFits]

theorem SnapRec.loadable_iff_checks (r : SnapRec) :
    r.loadable = true ↔ legal r.latch = true ∧ rambIsBit r.ramb = true ∧ irqFits r.irq = true := by
  rw [SnapRec.loadable, Bool.and_eq_true, Bool.and_eq_true, and_assoc]

theorem SnapRec.loadable_iff (r : SnapRec) :
    r.loadable = true ↔ legal r.latch = true ∧ (r.ramb = 0 ∨ r.ramb = 1) ∧ r.irq.toNat < 256 := by
  rw [r.loadable_iff_checks, rambIsBit_iff, irqFits_iff]

@[simp] theorem rambIsBit_rambWord (b : Bool) : rambIsBit (rambWord b) = true := by cases b <;> rfl

@[simp] theorem rambFlag_rambWord (b : Bool) : rambFlag (rambWord b) = b := by cases b <;> rfl

theorem rambWord_rambFlag {w : SnapWord} (h : rambIsBit w = true) : rambWord (rambFlag w) = w := by
  rcases (rambIsBit_iff w).1 h with rfl | rfl <;> rfl

@[simp] theorem irqFits_irqWord (agg : Byte) : irqFits (irqWord agg) = true := by
  rw [irqFits_iff, irqWord, BitVec.toNat_setWidth]
  omega

@[simp] theorem irqField_irqWord (agg : Byte) : irqField (irqWord agg) = agg := by
  rw [irqField, irqWord, BitVec.setWidth_setWidth_of_le _ (by decide), BitVec.setWidth_eq]

theorem irqWord_irqField {w : SnapWord} (h : irqFits w = true) : irqWord (irqField w) = w := by
  have fits := (irqFits_iff w).1 h
  apply BitVec.eq_of_toNat_eq
  rw [irqWord, irqField, BitVec.toNat_setWidth, BitVec.toNat_setWidth]
  omega

end Sys2Proof

namespace Sys2Proof.Machine

/-! Records and registers. -/

section
variable {s : State} {r : SnapRec}

theorem snapshotOf_loadable (hl : legal s.latch = true) : (snapshotOf s).loadable = true := by
  simp [SnapRec.loadable_iff_checks, snapshotOf, hl]

theorem restoreFrom_snapshotOf (s u : State) :
    restoreFrom (snapshotOf s) u = { u with latch := s.latch, ramBacked := s.ramBacked, irqAgg := s.irqAgg } := by
  simp [restoreFrom, snapshotOf]

theorem snapshotOf_restoreFrom (h : r.loadable = true) (s : State) : snapshotOf (restoreFrom r s) = r := by
  obtain ⟨_, bit, fits⟩ := r.loadable_iff_checks.1 h
  simp only [snapshotOf, restoreFrom, rambWord_rambFlag bit, irqWord_irqField fits]

/-! The operations of the host on a live core. -/

variable (ha : s.alive = true)
include ha

theorem exec_rambSet (b : Bool) : exec (.rambSet b) s = .next (finish .done { clearOut s with ramBacked := b }) :=
  whenAlive_of_alive (fun u => .next (finish .done { u with ramBacked := b })) ha

theorem exec_save : exec .save s = .next (finish (.snapshot (snapshotOf s)) (clearOut s)) :=
  whenAlive_of_alive (fun u => .next (finish (.snapshot (snapshotOf u)) u)) ha

theorem exec_load_of_loadable (h : r.loadable = true) :
    exec (.load r) s = .next (finish .done (restoreFrom r (clearOut s))) := by
  obtain ⟨lawful, bit, fits⟩ := r.loadable_iff_checks.1 h
  suffices hr : execLoad r s = .next (finish .done (restoreFrom r (clearOut s))) from hr
  simp [execLoad, whenAlive_of_alive _ ha, lawful, bit, fits]

theorem exec_load_of_not_loadable (h : r.loadable = false) : ∃ e, exec (.load r) s = .refused e := by
  suffices hr : ∃ e, execLoad r s = .refused e from hr
  rw [execLoad, whenAlive_of_alive _ ha]
  cases lawful : legal r.latch with
  | false => exact ⟨.recordLatchIllegal, by simp⟩
  | true =>
    cases bit : rambIsBit r.ramb with
    | false => exact ⟨.recordRambNotBit, by simp⟩
    | true =>
      have wide : irqFits r.irq = false := by simpa [SnapRec.loadable, lawful, bit] using h
      exact ⟨.recordIrqTooWide, by simp [wide]⟩

theorem runOps_load_save (h : r.loadable = true) :
    runOps [.load r, .save] s = .next (finish (.snapshot r) (restoreFrom r (clearOut s))) := by
  have live : (finish .done (restoreFrom r (clearOut s))).alive = true := ha
  have record : snapshotOf (finish .done (restoreFrom r (clearOut s))) = r := snapshotOf_restoreFrom h (clearOut s)
  rw [runOps_cons_of_next [.save] (exec_load_of_loadable ha h), runOps_singleton, exec_save live, record]
  rfl

end

/-! The statements. -/

/-- Settles O53: `LOAD` of the record restores the registers that `SAVE` read (`restoreFrom_snapshotOf`). -/
theorem snapshotRoundTrip : Obligations.SnapshotRoundTrip := by
  intro s ha hl
  have within : (snapshotOf s).loadable = true := snapshotOf_loadable hl
  refine ⟨_, snapshotOf s, exec_save ha, rfl, within, fun u hu => ?anyState, ?savedState⟩
  case anyState =>
    refine ⟨_, exec_load_of_loadable hu within, ?_⟩
    rw [restoreFrom_snapshotOf]
    rfl
  case savedState =>
    rw [exec_load_of_loadable ha within, restoreFrom_snapshotOf]
    exact ⟨_, rfl⟩

/-- Settles O54: the registers that `LOAD` leaves have the record as their snapshot (`snapshotOf_restoreFrom`). -/
theorem loadThenSaveGivesTheRecord : Obligations.LoadThenSaveGivesTheRecord :=
  fun _ _ ha h => ⟨_, runOps_load_save ha h, rfl⟩

/-- Settles O49. -/
theorem rambSetWritesTheFlag : Obligations.RambSetWritesTheFlag :=
  fun _ b ha => exec_rambSet ha b

/-- Settles O50. -/
theorem saveEmitsTheThreeFields : Obligations.SaveEmitsTheThreeFields :=
  fun _ ha => exec_save ha

/-- Settles O51. -/
theorem loadRestoresTheThreeFields : Obligations.LoadRestoresTheThreeFields :=
  fun _ r ha lawful bit fits => exec_load_of_loadable ha (r.loadable_iff.2 ⟨lawful, bit, fits⟩)

/-- Settles O52: a record that breaks one clause of R233 is not loadable. -/
theorem loadRefusesForeignRecords : Obligations.LoadRefusesForeignRecords := by
  intro s r ha foreign
  refine exec_load_of_not_loadable ha (Bool.eq_false_iff.2 fun h => ?_)
  obtain ⟨lawful, bit, fits⟩ := r.loadable_iff.1 h
  rcases foreign with illegal | ⟨notZero, notOne⟩ | wide
  · simp [lawful] at illegal
  · exact bit.elim notZero notOne
  · omega

end Sys2Proof.Machine

/-! PROOFS. The statements of 70_reset_and_hazards.md: power-on, reset and teardown. Each operation is an equation whose handlers
are one round of calls: of every slot for `PON` and `TEARDOWN` (`allCalls_frame`), of the enabled ones for `RESET`
(`afterResets`). Reset through the transition is a second round and the copy, read off the laws of the transition at the state
that the `Reset` handlers leave. -/

namespace Sys2Proof.Machine

/-! One round of calls of the lifecycle. -/

/-- The answered call of a reset. -/
def resetCall : Nat × Device → Settled := unitCall (fun d => d.model.resetHandler d.dst) .reset

/-- The answered call of a shutdown. -/
def shutdownCall : Nat × Device → Settled := unitCall (fun d => d.model.shutdownHandler d.dst) .shutdown

theorem callsWith_resetCall : CallsWith resetCall fun d => changeOf (d.model.resetHandler d.dst) :=
  fun _ => ⟨rfl, rfl, rfl, rfl⟩

theorem callsWith_shutdownCall : CallsWith shutdownCall fun d => changeOf (d.model.shutdownHandler d.dst) :=
  fun _ => ⟨rfl, rfl, rfl, rfl⟩

theorem callsWith_initCall : CallsWith initCall fun d => changeOf (d.model.initHandler d.dst d.args) :=
  fun _ => ⟨rfl, rfl, rfl, rfl⟩

/-- `calls_frame` for slots of `DEVS`, enabled or not. -/
theorem allCalls_frame {h : Device → DState × List Eff} {xs : List (Nat × Device)} {s : State} {mk : Nat × Device → Settled}
    (hmk : CallsWith mk h) (hxs : xs.Sublist (allSlots s)) :
    CoreKept s (settleAll (xs.map mk) (clearOut s)) ∧ HandlersRan h xs s (settleAll (xs.map mk) (clearOut s)) :=
  calls_frame (p := fun _ => true) hmk (allSlots_eq_select s ▸ hxs)

/-- The output ports of an operation whose only output is one round of calls (R32). -/
theorem out_finish_calls (r : OpResult) (mk : Nat × Device → Settled) (xs : List (Nat × Device)) (s : State) :
    (finish r (settleAll (xs.map mk) (clearOut s))).out
      = ⟨r, xs.map fun x => ⟨(mk x).i, (mk x).req, (mk x).ans⟩, []⟩ := by
  simp only [finish, settleAll_calls, settleAll_trace, clearOut_out, List.map_map]
  rfl

theorem irqLine_eq_false_of_clear {s : State} (h : s.irqAgg = 0) : irqLine s = false := by
  rw [irqLine, h]
  decide

/-! Power-on (R290, R291). -/

/-- Devices that initialise do not end the initialisation. -/
theorem initDevices_append_of_ok {pre : List (Nat × Device)}
    (h : ∀ y ∈ pre, (y.2.model.initHandler y.2.dst y.2.args).ans = true) (xs : List (Nat × Device)) (s : State) :
    initDevices (pre ++ xs) s = initDevices xs (settleAll (pre.map initCall) s) := by
  induction pre generalizing s with
  | nil => rfl
  | cons y pre ih =>
    have ok : (y.2.model.initHandler y.2.dst y.2.args).ans = true := h y (by simp)
    rw [List.cons_append, initDevices, if_pos ok, ih fun z hz => h z (List.mem_cons_of_mem _ hz)]
    rfl

theorem initDevices_of_ok {xs : List (Nat × Device)}
    (h : ∀ y ∈ xs, (y.2.model.initHandler y.2.dst y.2.args).ans = true) (s : State) :
    initDevices xs s = (true, settleAll (xs.map initCall) s) := by
  simpa [initDevices] using initDevices_append_of_ok h [] s

/-- The first device that fails ends the initialisation. -/
theorem initDevices_of_failure {pre post : List (Nat × Device)} {x : Nat × Device}
    (h : ∀ y ∈ pre, (y.2.model.initHandler y.2.dst y.2.args).ans = true)
    (hx : (x.2.model.initHandler x.2.dst x.2.args).ans = false) (s : State) :
    initDevices (pre ++ x :: post) s = (false, settleAll ((pre ++ [x]).map initCall) s) := by
  rw [initDevices_append_of_ok h, initDevices, if_neg (by simp [hx]), List.map_append, settleAll_append]
  rfl

section
variable {s u : State} (ha : s.alive = false)
include ha

theorem exec_pon_of_ok (h : initDevices (allSlots s) (clearOut s) = (true, u)) :
    exec .pon s = .next (finish .ponOk (powerOnValues u)) := by
  simp [exec, execPon, ha, h]

theorem exec_pon_of_failure (h : initDevices (allSlots s) (clearOut s) = (false, u)) :
    exec .pon s = .next (finish .ponFailed u) := by
  simp [exec, execPon, ha, h]

end

/-- Calls change neither who is enabled nor who declares `ramw`, so `PON` samples the flag of R6 as it was (log 15). -/
theorem anyRamw_settleAll (cs : List Settled) (s : State) : anyRamw (settleAll cs s) = anyRamw s := by
  have sampled (t : State) : anyRamw t = (t.devs.map fun d => d.en && d.model.cap.ramw).any id := by
    rw [anyRamw, List.any_map]
    rfl
  rw [sampled, sampled, settleAll_map cs s (fun d => d.en && d.model.cap.ramw) fun _ _ => rfl]

/-! Reset (R293, R294): the handlers. -/

/-- The state in which the `Reset` handlers leave the machine, and the reset of the latch finds it. -/
def afterResets (s : State) : State := settleAll ((enabledSlots s).map resetCall) (clearOut s)

/-- The state of a device after its `Reset` handler. -/
def resetState (d : Device) : DState := (d.model.resetHandler d.dst).dst

/-- `RESET` on a live core: the handlers first, then the latch, then the aggregate (R293, R294). -/
theorem exec_reset {s : State} (ha : s.alive = true) :
    exec .reset s = .next (finish .done { resetLatch (afterResets s) with irqAgg := 0 }) := by
  have handlers : resetDevices (clearOut s) = afterResets s := broadcast_eq _ _ _ _
  rw [← handlers]
  exact whenAlive_of_alive (fun u => .next (finish .done { resetLatch (resetDevices u) with irqAgg := 0 })) ha

theorem enabled_of_inCd1 {d : Device} (h : inCd1 d = true) : d.en = true := by
  obtain ⟨enabled, _⟩ := Bool.and_eq_true_iff.1 h
  exact enabled

theorem enabled_of_inBs {d : Device} (h : inBs d = true) : d.en = true := enabled_of_inCd1 (inCd1_of_inBs h)

theorem enabled_of_offeredTo {v : Byte} {now : Device → DState} {s : State} {y : Nat × Device} (hy : y ∈ offeredTo v now s) :
    y ∈ enabledSlots s := by
  obtain ⟨hslot, hbs⟩ := mem_select.1 (mem_bs_of_offeredTo hy)
  exact mem_select.2 ⟨hslot, enabled_of_inBs hbs⟩

section
variable (s : State)

theorem afterResets_frame : CoreKept s (afterResets s)
    ∧ HandlersRan (fun d => changeOf (d.model.resetHandler d.dst)) (enabledSlots s) s (afterResets s) :=
  calls_frame callsWith_resetCall (List.Sublist.refl _)

@[simp] theorem afterResets_alive : (afterResets s).alive = s.alive := by simp [afterResets]
@[simp] theorem afterResets_latch : (afterResets s).latch = s.latch := by simp [afterResets]
@[simp] theorem afterResets_romShadow : (afterResets s).romShadow = s.romShadow := by simp [afterResets]
@[simp] theorem afterResets_ramBacked : (afterResets s).ramBacked = s.ramBacked := by simp [afterResets]
@[simp] theorem afterResets_rom : (afterResets s).rom = s.rom := by simp [afterResets]
@[simp] theorem afterResets_params : (afterResets s).params = s.params := by simp [afterResets]
@[simp] theorem afterResets_inbox : (afterResets s).inbox = s.inbox := by simp [afterResets]

/-- A list of enabled devices after the resets: the same slots, with the states that `Reset` gave them. -/
theorem select_afterResets (p : Device → Bool) (hp : ∀ d dst, p { d with dst := dst } = p d)
    (enabled : ∀ d, p d = true → d.en = true) :
    select p (afterResets s) = (select p s).map (withState resetState) :=
  select_after_calls p Device.en resetCall resetState (clearOut s) (fun _ => ⟨rfl, rfl⟩) hp enabled

theorem someoneTakes_afterResets (v : Byte) :
    someoneTakes v (afterResets s)
      = (bs s).any fun y => decide ((y.2.model.bankSelect (resetState y.2) v).ans = .handled) := by
  rw [someoneTakes, bs, select_afterResets s inBs (fun _ _ => rfl) fun _ => enabled_of_inBs, List.any_map]
  rfl

theorem offeredTo_afterResets (v : Byte) :
    offeredTo v Device.dst (afterResets s) = (offeredTo v resetState s).map (withState resetState) :=
  offeredTo_after_calls v Device.en resetCall resetState (clearOut s) (fun _ => ⟨rfl, rfl⟩) fun _ => enabled_of_inBs

/-- The resets and the offer are two rounds of calls. -/
theorem twoRounds_reset (v : Byte) :
    TwoRounds (fun d => changeOf (d.model.resetHandler d.dst)) (fun d => changeOf (d.model.bankSelect (resetState d) v))
      (enabledSlots s) (offeredTo v resetState s) s (afterOffer v (afterResets s)) := by
  rw [afterOffer, offeredTo_afterResets]
  exact twoRounds_calls callsWith_resetCall (callsWith_bankCall v) (offeredTo_rising v resetState s)
    fun _ => enabled_of_offeredTo

end

/-! Reset by the direct store (R293). -/

/-- What a direct reset leaves: the handlers' work with the two registers cleared. -/
def directReset (s : State) : State := finish .done { afterResets s with latch := 0x00, irqAgg := 0 }

theorem exec_reset_direct {s : State} (ha : s.alive = true) (hp : s.params.resetViaTransition = false) :
    exec .reset s = .next (directReset s) := by
  have stored : resetLatch (afterResets s) = { afterResets s with latch := 0x00 } := by simp [resetLatch, hp]
  rw [exec_reset ha, stored]
  rfl

/-- A byte that no effect of a `Reset` handler writes reads as before the reset. -/
theorem memRead_directReset {s : State} {a : Addr}
    (h : ∀ y ∈ enabledSlots s, ∀ b, Eff.memWrite a b ∉ (y.2.model.resetHandler y.2.dst).effs) :
    memRead (directReset s) a = memRead s a := by
  obtain ⟨_, _, _, _, kept, _⟩ := afterResets_frame s
  refine kept a fun b hb => ?_
  obtain ⟨y, hy, hw⟩ := List.mem_flatMap.1 hb
  exact h y hy b hw

theorem xd1_directReset {s : State} (h : xd1 s = []) : xd1 (directReset s) = [] :=
  select_eq_nil_settleAll inXd1 _ (clearOut s) (fun _ _ => rfl) h

theorem cd1_directReset (s : State) : cd1 (directReset s) = (cd1 s).map (withState resetState) :=
  select_afterResets s inCd1 (fun _ _ => rfl) fun _ => enabled_of_inCd1

/-! `WR.LATCH` of the code that the latch holds (R150, R190b). -/

/-- A redundant write of the latch is its deliveries alone: the transition that follows them does nothing. -/
theorem exec_wrLatch_of_current {s : State} (ha : s.alive = true) (hx : xd1 s = []) {v : Byte} (hl : legal v = true)
    (hv : v = s.latch) : exec (.wrLatch v) s = .next (finish .written (afterWrites v s)) := by
  rw [exec_wrLatch_of_no_exclusive ha hx, latchWrite_of_current hl (hv.trans (afterWrites_latch v s).symm)]

/-- The deliveries call nothing but `Write` handlers. -/
theorem req_of_mem_calls_afterWrites {v : Byte} {s : State} {c : Call} (h : c ∈ (afterWrites v s).out.calls) :
    c.req = .write .d1 s.params.latchAddr v := by
  simp only [afterWrites, settleAll_calls, clearOut_out, Outputs.empty, List.nil_append, List.map_map] at h
  obtain ⟨y, _, rfl⟩ := List.mem_map.1 h
  rfl

/-- A byte that no effect of a `Write` handler writes reads as before the deliveries. -/
theorem memRead_afterWrites {v : Byte} {s : State} {a : Addr}
    (h : ∀ y ∈ cd1 s, ∀ b, Eff.memWrite a b ∉ (y.2.model.write y.2.dst .d1 s.params.latchAddr v).effs) :
    memRead (afterWrites v s) a = memRead s a := by
  obtain ⟨_, _, _, _, kept, _⟩ := calls_frame (callsWith_writeCall .d1 s.params.latchAddr v) (List.Sublist.refl (cd1 s))
  refine kept a fun b hb => ?_
  obtain ⟨y, hy, hw⟩ := List.mem_flatMap.1 hb
  exact h y hy b hw

/-! Reset through the transition (R294). -/

theorem exec_reset_transition {s : State} (ha : s.alive = true) (hp : s.params.resetViaTransition = true) :
    exec .reset s = .next (finish .done { latchWrite 0x00 (afterResets s) with irqAgg := 0 }) := by
  have moved : resetLatch (afterResets s) = latchWrite 0x00 (afterResets s) := by simp [resetLatch, hp]
  rw [exec_reset ha, moved]

theorem latchWrite_latch_of_legal {v : Byte} {s : State} (hl : legal v = true) : (latchWrite v s).latch = v := by
  by_cases hv : v = s.latch
  · rw [latchWrite_of_current hl hv, hv]
  · obtain ⟨stored, _⟩ := latchWrite_of_new hl hv
    exact stored

/-- A transition reports illegal codes only (R157, R251). -/
theorem latchWrite_trace_of_legal {v : Byte} {s : State} (hl : legal v = true) :
    (latchWrite v s).out.trace = s.out.trace := by
  rcases latchWrite_spec v s with ⟨illegal, _⟩ | ⟨_, _, h⟩ | ⟨_, _, pre, x, post, _, _, _, h⟩ | ⟨_, _, _, h⟩
  · simp [hl] at illegal
  · rw [h]
  · simp [h]
  · simp [h]

/-- A byte that neither a called handler's effect nor the copy writes reads as before a round of calls and the transition. -/
theorem TwoRounds.memRead_latchWrite {h k : Device → DState × List Eff} {xs ds : List (Nat × Device)} {s u : State} {v : Byte}
    (rounds : TwoRounds h k xs ds s (afterOffer v u)) {a : Addr}
    (outside : CopyRuns v u → a.toNat < shadowDst ∨ shadowDst + shadowLen ≤ a.toNat)
    (first : ∀ y ∈ xs, ∀ b, Eff.memWrite a b ∉ (h y.2).2) (second : ∀ y ∈ ds, ∀ b, Eff.memWrite a b ∉ (k y.2).2) :
    memRead (latchWrite v u) a = memRead s a := by
  refine (memRead_latchWrite_outside outside).trans (rounds.memKept a fun b hb => ?_)
  rcases List.mem_append.1 hb with hb | hb
  · obtain ⟨y, hy, hw⟩ := List.mem_flatMap.1 hb
    exact first y hy b hw
  · obtain ⟨y, hy, hw⟩ := List.mem_flatMap.1 hb
    exact second y hy b hw

/-- The output ports after a reset through the transition: the resets, then the offer, and no report. -/
theorem out_reset_transition (s : State) :
    (finish .done (latchWrite 0x00 (afterResets s))).out
      = ⟨.done, (enabledSlots s).map (fun y => ⟨y.1, .reset, .unit⟩)
          ++ (offeredTo 0x00 resetState s).map
            (fun y => ⟨y.1, .bankSelect 0x00, .claim (y.2.model.bankSelect (resetState y.2) 0x00).ans⟩), []⟩ := by
  obtain ⟨_, calls, _⟩ := latchWrite_handlers 0x00 (afterResets s)
  have trace : (latchWrite 0x00 (afterResets s)).out.trace = [] :=
    (latchWrite_trace_of_legal (by decide)).trans (by simp [afterResets, Outputs.empty])
  rw [offeredTo_afterResets, settleAll_calls, afterResets, settleAll_calls, clearOut_out, ← afterResets] at calls
  simp only [finish, calls, trace, List.map_map]
  rfl

/-! Teardown (R296). -/

theorem exec_teardown {s : State} (ha : s.alive = true) :
    exec .teardown s
      = .next (finish .done { settleAll ((allSlots s).map shutdownCall) (clearOut s) with alive := false }) := by
  have handlers : broadcast (fun d => d.model.shutdownHandler d.dst) .shutdown (allSlots s) (clearOut s)
      = settleAll ((allSlots s).map shutdownCall) (clearOut s) := broadcast_eq _ _ _ _
  rw [← handlers]
  exact whenAlive_of_alive (fun u => .next (finish .done
    { broadcast (fun d => d.model.shutdownHandler d.dst) .shutdown (allSlots u) u with alive := false })) ha

/-! The statements. -/

/-- Settles O55. -/
theorem ponGivesPowerOnValues : Obligations.PonGivesPowerOnValues := by
  intro s ha ok
  let u := settleAll ((allSlots s).map initCall) (clearOut s)
  obtain ⟨⟨_, _, _, _, rom, params, inbox⟩, devs, mem, _, memKept, _⟩ :=
    allCalls_frame callsWith_initCall (List.Sublist.refl (allSlots s))
  have ramw : ramBackedAtPon u.params (anyRamw u) = s.params.ramBackedPon.getD (anyRamw s) := by
    rw [params, anyRamw_settleAll]
    rfl
  refine ⟨_, exec_pon_of_ok ha (initDevices_of_ok ok _), (out_finish_calls .ponOk initCall (allSlots s) s).trans ?calls,
    rfl, rfl, rfl, rfl, irqLine_eq_false_of_clear rfl, ramw, rom, params, inbox, devs, mem, memKept⟩
  case calls =>
    congr 1
    exact List.map_congr_left fun y hy => by simp [initCall, ok y hy]

/-- Settles O56. -/
theorem ponFailsAtTheFirstBadDevice : Obligations.PonFailsAtTheFirstBadDevice := by
  intro s pre post x ha slots ok bad
  have listed : (pre ++ [x]).Sublist (allSlots s) := by simp [slots]
  obtain ⟨⟨alive, _, _, _, rom, params, inbox⟩, devs, mem, _, memKept, _⟩ := allCalls_frame callsWith_initCall listed
  have failed : initDevices (allSlots s) (clearOut s) = (false, settleAll ((pre ++ [x]).map initCall) (clearOut s)) := by
    rw [slots, initDevices_of_failure ok bad]
  exact ⟨_, exec_pon_of_failure ha failed, alive.trans ha, rfl, rom, params, inbox,
    congrArg Outputs.calls (out_finish_calls .ponFailed initCall (pre ++ [x]) s), devs, mem, memKept⟩

/-- Settles O60. -/
theorem teardownEndsTheCore : Obligations.TeardownEndsTheCore := by
  intro s ha
  obtain ⟨⟨_, _, _, _, rom, params, inbox⟩, ran⟩ :=
    allCalls_frame callsWith_shutdownCall (List.Sublist.refl (allSlots s))
  exact ⟨_, exec_teardown ha, out_finish_calls .done shutdownCall (allSlots s) s, rfl, rom, params, inbox, ran.congr rfl rfl rfl⟩

/-- Settles O57. -/
theorem resetClearsLatchAndAggregate : Obligations.ResetClearsLatchAndAggregate := by
  intro s ha hp
  obtain ⟨⟨alive, _, romShadow, ramBacked, rom, params, inbox⟩, devs, mem, _, memKept, _⟩ := afterResets_frame s
  exact ⟨_, exec_reset_direct ha hp, out_finish_calls .done resetCall (enabledSlots s) s, rfl, rfl,
    irqLine_eq_false_of_clear rfl, alive, romShadow, ramBacked, rom, params, inbox, devs, mem, memKept⟩

/-- Settles O58: the resets are the first round, the offer of the transition the second. -/
theorem resetThroughTheTransition : Obligations.ResetThroughTheTransition := by
  intro s ha hp wasReset banked offered taken copies handled
  let u := afterResets s
  have lawful : legal 0x00 = true := by decide
  have takenThen : someoneTakes 0x00 u = taken := someoneTakes_afterResets s 0x00
  have runs : CopyRuns 0x00 u ↔ copies := by
    simp only [CopyRuns, takenThen, u, afterResets_latch, afterResets_romShadow, lawful, true_and, ne_comm (a := (0x00 : Byte))]
    rfl
  have rounds : TwoRounds (fun d => changeOf (wasReset d)) (fun d => changeOf (banked d)) (enabledSlots s) offered s
      (afterOffer 0x00 u) := twoRounds_reset s 0x00
  have work := HandlerWork.latchWrite 0x00 u
  obtain ⟨alive, ramBacked, _⟩ := latchWrite_registers 0x00 u
  obtain ⟨devs, _⟩ : (latchWrite 0x00 u).devs = (afterOffer 0x00 u).devs ∧ _ := latchWrite_handlers 0x00 u
  have flag (hl : s.latch ≠ 0x00) : (latchWrite 0x00 u).romShadow = !taken := by
    obtain ⟨_, flag⟩ := latchWrite_of_new (s := u) lawful (by simpa [u] using hl.symm)
    rw [flag, takenThen]
  have outside (a : Addr) (hc : copies → a.toNat < 0xD800 ∨ 0xE000 ≤ a.toNat) :
      CopyRuns 0x00 u → a.toNat < shadowDst ∨ shadowDst + shadowLen ≤ a.toNat := fun h => hc (runs.1 h)
  refine ⟨_, exec_reset_transition ha hp, out_reset_transition s, latchWrite_latch_of_legal lawful, rfl,
    alive.trans (afterResets_alive s), ramBacked.trans (afterResets_ramBacked s), work.rom.trans (afterResets_rom s),
    work.params.trans (afterResets_params s), work.inbox.trans (afterResets_inbox s), ?length, ?firstOnly, ?both, ?neither,
    ?redundant, fun hl ht => ?taken, fun hl ht => ?untaken, fun hc => ?noCopy, fun hc k hk => ?copied, fun a hc => ?elsewhere,
    fun a hc hreset hbanked => ?kept⟩
  case length => exact (congrArg List.length devs).trans rounds.length
  case firstOnly => exact fun y hy hn => (congrArg (·[y.1]?) devs).trans (rounds.firstOnly y hy hn)
  case both => exact fun y hy => (congrArg (·[y.1]?) devs).trans (rounds.both y hy)
  case neither => exact fun j hj => (congrArg (·[j]?) devs).trans (rounds.neither j hj)
  case redundant =>
    intro hl
    have same : latchWrite 0x00 u = u := latchWrite_of_current lawful (by simp [u, hl])
    exact (congrArg State.romShadow same).trans (afterResets_romShadow s)
  case taken => exact (flag hl).trans (by simp [ht])
  case untaken => exact (flag hl).trans (by simp [ht])
  case noCopy => exact (latchWrite_mem_of_no_copy fun h => hc (runs.1 h)).trans rounds.mem
  case copied =>
    have copied := memRead_latchWrite_inside (runs.2 hc) (k := k) hk
    rwa [romRead, afterResets_rom] at copied
  case elsewhere => exact (memRead_latchWrite_outside (outside a hc)).trans (memRead_eq_of_mem_eq rounds.mem a)
  case kept => exact rounds.memRead_latchWrite (outside a hc) hreset hbanked

/-- Settles O59: after the reset the latch holds 0x00, so writing 0x00 is redundant and only its deliveries run. -/
theorem resetHazardLeavesTheBankMapped : Obligations.ResetHazardLeavesTheBankMapped := by
  intro s ha hp hx hr wasReset
  have live : (directReset s).alive = true := (afterResets_alive s).trans ha
  have mapped : (directReset s).romShadow = false := (afterResets_romShadow s).trans hr
  have ran : runOps [.reset, .wrLatch 0x00] s = .next (finish .written (afterWrites 0x00 (directReset s))) := by
    rw [runOps_cons_of_next _ (exec_reset_direct ha hp), runOps_singleton]
    exact exec_wrLatch_of_current live (xd1_directReset hx) (by decide) rfl
  refine ⟨_, ran, afterWrites_latch _ _, (afterWrites_romShadow _ _).trans mapped, fun c hc v => ?noOffer,
    fun a hreset hwrite => ?kept⟩
  case noOffer =>
    rw [req_of_mem_calls_afterWrites hc]
    exact nofun
  case kept =>
    refine (memRead_afterWrites fun y hy => ?_).trans (memRead_directReset hreset)
    rw [cd1_directReset] at hy
    obtain ⟨z, hz, rfl⟩ := List.mem_map.1 hy
    have sameParams : (directReset s).params = s.params := afterResets_params s
    rw [sameParams]
    exact hwrite z hz

end Sys2Proof.Machine
